-- ==== Sys2Proof/Word.lean ====
section
/-! DEFINITION. The words of the block: bytes, levels, binary64 patterns, points, and the element of a buffer space. -/

namespace Sys2Proof

/-- One symbol of an encoded string, or any other 8-bit element (20 R51). -/
abbrev Byte := BitVec 8

/-- A level: unsigned, 32 bits (00 R5 `LW`). -/
abbrev Level := BitVec 32

/-- A binary64 bit pattern, moved as one whole value (00 R9, 20 R57). -/
abbrev F64 := BitVec 64

/-- A point: latitude first (20 R51). -/
structure Point where
  lat : F64
  lon : F64
  deriving DecidableEq, Repr, Inhabited

/-- One element of a buffer space: the three element types of 20 R51. -/
inductive Elem where
  | byte  (b : Byte)
  | level (l : Level)
  | point (p : Point)
  deriving DecidableEq, Repr, Inhabited

end Sys2Proof
end

