-- ==== Sys2Proof/Config.lean ====
section
/-! DEFINITION. What the spec fixes for the block (00 R5) and the free values: constants without a body, so that no proof can know a value of them. -/

namespace Sys2Proof.Config

/-- `ALPHA_LO` (00 R5): lowest byte of the alphabet, and the offset added to every group. -/
def alphaLo : Nat := 63
/-- `ALPHA_HI` (00 R5): highest byte of the alphabet. -/
def alphaHi : Nat := 126
/-- `MAX_GROUPS_DEC` (00 R5): most groups the decoder accepts for one value. -/
def maxGroupsDec : Nat := 6
/-- `MAX_GROUPS_ENC` (00 R5): most groups the encoder emits for a 35-bit value. -/
def maxGroupsEnc : Nat := 7
/-- `DEFAULT_PRECISION` (00 R5): 1e5 as a binary64 pattern. -/
def defaultPrecision : F64 := 0x40F86A0000000000#64

/-- FREE VALUE (log 2): what IN holds, read as a byte, at an index whose cell is not a byte: never written (`none`), or
written by the host at another type. Arguments: power-on resets so far, index, cell. 93 section 2: "any value". -/
opaque inByte : Nat → Nat → Option Elem → Byte
/-- FREE VALUE (log 2): as `inByte`, for a read at the level type. -/
opaque inLevel : Nat → Nat → Option Elem → Level
/-- FREE VALUE (log 2): as `inByte`, for a read at the point type. -/
opaque inPoint : Nat → Nat → Option Elem → Point

/-- FREE VALUE (log 9): what a host's read of a result register returns while BUSY = 1 (93 U7: any value). The argument
names the occasion of the read. -/
opaque busyRead : Nat → Nat
/-- FREE VALUE (log 9): what a host's read of an output element returns while BUSY = 1, or at an index of `OCNT` or above
(93 U7 and section 2: any value). Arguments: the occasion, the index. -/
opaque outRead : Nat → Nat → Elem

end Sys2Proof.Config
end

