-- ==== Sys2Proof/Syntax.lean ====
section
/-! DEFINITION. The instructions, one constructor per row of spec/opcode_table.json, and the lines of the assembler syntax (30 R95, R96). -/

namespace Sys2Proof

/-- The nine commands (30 R90) and the two wire symbols (30 R80). `psel` is bit PSEL of the command word: `true` takes
the precision from `PREC_IN`, `false` takes 1e5 (30 R91). `group` is the symbol's payload G (30 R80). The types leave
no ill-formed term: a command without PSEL cannot carry one, a group has 5 bits. -/
inductive Instr where
  | encu
  | decc
  | zze
  | zzd
  | scale (psel : Bool)
  | encp (psel : Bool)
  | decp (psel : Bool)
  | encl
  | decl
  | wireTerminator (group : BitVec 5)
  | wireContinuation (group : BitVec 5)
  deriving DecidableEq, Repr

/-- The two encoding spaces of 30_encoding.md: the command word written to `CMD`, and the byte read from IN. -/
inductive Code where
  | command
  | wire
  deriving DecidableEq, Repr

/-- Which encoding space an instruction's word belongs to. -/
def Instr.code : Instr → Code
  | .encu | .decc | .zze | .zzd | .scale _ | .encp _ | .decp _ | .encl | .decl => .command
  | .wireTerminator _ | .wireContinuation _ => .wire

/-- Bit PSEL of a command's word; `false` for one that takes no precision (30 R89, R90). -/
def Instr.psel : Instr → Bool
  | .scale p | .encp p | .decp p => p
  | .encu | .decc | .zze | .zzd | .encl | .decl | .wireTerminator _ | .wireContinuation _ => false

/-- One line of the assembler syntax (30 R95) or one pseudo-operation (30 R96), as data: integers are the literals of the
text, floating-point operands are the binary64 patterns the literals stand for, `prec` is the operand of the suffix `.P`. -/
inductive Line where
  | encu (u : Nat)
  | decc (bytes : List Byte)
  | zze (v : Int)
  | zzd (u : Nat)
  | scale (prec : Option F64) (value : F64)
  | encp (prec : Option F64) (points : List Point)
  | decp (prec : Option F64) (bytes : List Byte)
  | encl (levels : List Nat)
  | decl (bytes : List Byte)
  | facadeEnc (prec : Option F64) (points : List Point) (levels : Option (List Nat))
  | facadeDec (prec : Option F64) (coords : List Byte) (levels : Option (List Byte))
  deriving DecidableEq, Repr

end Sys2Proof
end

