-- ==== Sys2Proof/WellFormed.lean ====
section
/-! DEFINITION. Which assembler lines can be carried by the block's ports. Every `Instr` is well formed by its type. -/

namespace Sys2Proof

/-- Every term of `Instr` is an instruction of the table: its operand types are exact (see `Instr`). -/
def Instr.wellFormed (_ : Instr) : Bool := true

/-- The operand of `.P` must be finite and greater than zero (30 R91): sign 0, exponent below 2047, pattern not zero. -/
def precisionLiteralOk : Option F64 → Bool
  | none => true
  | some p => decide (0 < p.toNat) && decide (p.toNat < 2047 * 2 ^ 52)

/-- The literals of a line fit the ports: `ENCU` 35 bits (40 R110), `ZZE` an i33 (41 R130), `ZZD` a u33 (41 R131), a level 32
bits (44 R180), a precision in the domain (30 R91). -/
def Line.wellFormed : Line → Bool
  | .encu u => decide (u < 2 ^ 35)
  | .decc _ | .decl _ => true
  | .zze v => decide (-2 ^ 32 ≤ v) && decide (v < 2 ^ 32)
  | .zzd u => decide (u < 2 ^ 33)
  | .scale p _ | .encp p _ | .decp p _ => precisionLiteralOk p
  | .encl ls => ls.all fun l => decide (l < 2 ^ 32)
  | .facadeEnc p _ ls => precisionLiteralOk p && (ls.getD []).all fun l => decide (l < 2 ^ 32)
  | .facadeDec p _ _ => precisionLiteralOk p

end Sys2Proof
end

