-- ==== Sys2Proof/Decode.lean ====
section
/-! DEFINITION. The decoder of the command word (30 R89 to R92) and of the wire byte (30 R80, R93), total, rejecting by
name; then the encoder, written from the same tables. -/

namespace Sys2Proof

/-- Why a word is no instruction. -/
inductive DecodeError where
  /-- `CMD[7:5] ≠ 0` (30 R92). -/
  | reservedBitsSet
  /-- `OPC` is 0x0 or 0xA to 0xF (30 R92). -/
  | unknownOpcode
  /-- `PSEL = 1` with an opcode that takes no precision (30 R92). -/
  | precisionSelectNotTaken
  /-- A byte below 63 or above 126 (30 R93). -/
  | outsideAlphabet
  deriving DecidableEq, Repr

/-- Field `OPC` of a command word (30 R89). -/
def cmdOpc (w : BitVec 8) : BitVec 4 := w.extractLsb' 0 4
/-- Field `PSEL` of a command word (30 R89). -/
def cmdPsel (w : BitVec 8) : Bool := w.getLsbD 4
/-- The reserved field of a command word (30 R89). -/
def cmdReserved (w : BitVec 8) : BitVec 3 := w.extractLsb' 5 3

/-- A command that takes no precision is legal only with `PSEL = 0` (30 R92). -/
def withoutPsel (psel : Bool) (i : Instr) : Except DecodeError Instr :=
  if psel then .error .precisionSelectNotTaken else .ok i

/-- The command a command word names: exactly the twelve legal words of 30 R90 name one. -/
def decodeCommand (w : BitVec 8) : Except DecodeError Instr :=
  if cmdReserved w ≠ 0#3 then .error .reservedBitsSet
  else
    match (cmdOpc w).toNat with
    | 1 => withoutPsel (cmdPsel w) .encu
    | 2 => withoutPsel (cmdPsel w) .decc
    | 3 => withoutPsel (cmdPsel w) .zze
    | 4 => withoutPsel (cmdPsel w) .zzd
    | 5 => .ok (.scale (cmdPsel w))
    | 6 => .ok (.encp (cmdPsel w))
    | 7 => .ok (.decp (cmdPsel w))
    | 8 => withoutPsel (cmdPsel w) .encl
    | 9 => withoutPsel (cmdPsel w) .decl
    | _ => .error .unknownOpcode

/-- `raw = byte − 63`, six bits (30 R80, 90 C3); meaningful for a byte of the alphabet. -/
def rawOf (b : Byte) : BitVec 6 := BitVec.ofNat 6 (b.toNat - Config.alphaLo)

/-- A byte of the alphabet read as a symbol: `C = raw[5]`, `G = raw[4:0]` (30 R80). -/
def decodeSymbol (b : Byte) : Except DecodeError Instr :=
  if b.toNat < Config.alphaLo ∨ Config.alphaHi < b.toNat then .error .outsideAlphabet
  else if (rawOf b).getLsbD 5 then .ok (.wireContinuation ((rawOf b).extractLsb' 0 5))
  else .ok (.wireTerminator ((rawOf b).extractLsb' 0 5))

/-- The decoder of each encoding space. -/
def decode : Code → BitVec 8 → Except DecodeError Instr
  | .command, w => decodeCommand w
  | .wire, b => decodeSymbol b

/-- The command word with this `PSEL` and `OPC`, reserved bits 0 (30 R89). -/
def cmdWord (psel : Bool) (opc : BitVec 4) : BitVec 8 :=
  0#3 ++ (BitVec.ofBool psel ++ opc)

/-- The byte with this continuation flag and group: `63 + raw` (30 R80). -/
def wireByte (c : Bool) (g : BitVec 5) : Byte :=
  (BitVec.ofBool c ++ g).setWidth 8 + BitVec.ofNat 8 Config.alphaLo

/-- The one word of an instruction in its encoding space. -/
def encode : Instr → BitVec 8
  | .encu => cmdWord false 1#4
  | .decc => cmdWord false 2#4
  | .zze => cmdWord false 3#4
  | .zzd => cmdWord false 4#4
  | .scale p => cmdWord p 5#4
  | .encp p => cmdWord p 6#4
  | .decp p => cmdWord p 7#4
  | .encl => cmdWord false 8#4
  | .decl => cmdWord false 9#4
  | .wireTerminator g => wireByte false g
  | .wireContinuation g => wireByte true g

/-- The wire byte whose `raw` is `w`, for a `w` below 64 (the table numbers a symbol row's bits in `raw`, 30 R80). -/
def decodeRaw (w : Nat) : Option Instr :=
  if w < 64 then (decodeSymbol (BitVec.ofNat 8 (w + Config.alphaLo))).toOption else none

/-- The host's question: what the decoder reads from a word numbered as the table numbers it (log 10). A row of at most 6 bits
is a wire symbol given as `raw`. For a word of 8 bits the legal command words are commands; every other value below 64
is read as the `raw` of a wire symbol, since the table's two symbol rows fill one byte when counted in whole bytes. -/
def decodeTableWord (nbits w : Nat) : Option Instr :=
  if nbits ≤ 6 then decodeRaw w
  else if nbits = 8 ∧ w < 256 then
    match decodeCommand (BitVec.ofNat 8 w) with
    | .ok i => some i
    | .error _ => decodeRaw w
  else none

end Sys2Proof
end

