-- ==== Sys2Proof/Machine/State.lean ====
section
/-! DEFINITION. The state of the block: every register of 10_state.md, the two buffer spaces, and the host's pending actions;
the reasons a step stops; power-on reset. -/

namespace Sys2Proof.Machine

/-- Reasons the machine itself stops. The block has no such event of its own (its faults end a command with a next state,
60 R206); the one reason guards the read primitive. -/
inductive Fault where
  /-- Raised by `memRead` at an index of `LEN` or above, where 20 R53 defines no read. SAFE: the model stops; no step of the
  machine raises it (a statement says so). -/
  | inputIndexOutOfRange
  deriving DecidableEq, Repr

/-- Reasons the model gives a run no meaning. -/
inductive Refusal where
  /-- Raised by `exec`'s arm of an instruction without a meaning (none is left). SAFE. -/
  | notModelled (mnemonic : String)
  /-- 93 U1: a coordinate component is a NaN or an infinity. Raised by `scaleInt` (SCALE, ENCP). SAFE: the spec says that a
  model refuses. -/
  | coordinateNotFinite
  /-- 93 U2: the precision is a NaN, an infinity, a zero or negative. Raised by `startable`, `scaleInt`, `accumulate` (SCALE, ENCP,
  DECP). SAFE: the spec says that a model refuses. -/
  | precisionNotPositive
  /-- 93 U3: the product overflows binary64. Raised by `scaleInt` (SCALE, ENCP). SAFE: the spec says that a model refuses. -/
  | productNotFinite
  /-- 93 U4: the rounded product does not fit an i32. Raised by `scaleInt` (SCALE, ENCP). SAFE: the spec says that a model
  refuses. -/
  | scaledOutOfRange
  /-- 93 U5: the quotient or the sum is not finite. Raised by `accumulate` (DECP). SAFE: the spec says that a model refuses. -/
  | accumulatorNotFinite
  /-- 93 U6: `CMD` written while BUSY = 1. Raised by `hostMove` and by a command's meaning. SAFE: the spec says that a model
  refuses. -/
  | commandWhileBusy
  /-- 93 U9, 70 R233 b: an IN element or `IN_LEN` written while BUSY = 1. Raised by `hostMove`. SAFE: the spec says that a model
  refuses. -/
  | inputWriteWhileBusy
  /-- 93 U9, 10 R32 ("host W" only while BUSY = 0): `OPA`, `OPF` or `PREC_IN` written while BUSY = 1. Raised by `hostMove`. SAFE: the spec
  says that a model refuses. -/
  | operandWriteWhileBusy
  /-- 40 R113, "requires CST = ACCUMULATE": a wire symbol executed where no decode command is accumulating. Raised by
  `acceptSymbol`. SAFE (00 R8: where a `require` is false "a model refuses the command"). -/
  | chunkStepNotEnabled
  /-- BUSY = 1 with an `OP` that is no command. Raised by `blockStep`; no reachable state has it. SAFE. -/
  | noRunningCommand
  deriving DecidableEq, Repr

/-- `CST`, the chunk decoder's two states (10 R24): ACCUMULATE = 0, DONE = 1. -/
inductive ChunkState where
  | accumulate
  | done
  deriving DecidableEq, Repr

/-- `PHASE`, which value of a pair (10 R30): LAT = 0, LON = 1. -/
inductive Phase where
  | lat
  | lon
  deriving DecidableEq, Repr

/-- Where the running encode command stands in `EncodeValue` (40 R110): between two values, in the loop, or past its `until V = 0`. The
spec gives no such register; it makes the position of the loop explicit, as `CST` does for the decoder (log 11). -/
inductive EncodeState where
  | idle
  | passing
  | done
  deriving DecidableEq, Repr

/-- A buffer space: (index, element) pairs, indices strictly rising; what is not listed is unspecified (10 R37). -/
abbrev Space := List (Nat × Elem)

/-- What the host may read (10 R32; 70 R240). -/
inductive HostReg where
  | busy
  | status
  | errpos
  | rval
  | consumed
  | ocnt
  | out (i : Nat)
  deriving DecidableEq, Repr

/-- The host's moves (70 R232, R233, R241; the notation of 95 section 3), plus power-on reset (70 R230). -/
inductive HostAction where
  /-- Write `CMD` and wait for the end of the command: the transaction of 92 D1, one step of the model. -/
  | command (w : BitVec 8)
  /-- Write `CMD` only; the block then runs by micro-steps. -/
  | writeCmd (w : BitVec 8)
  | writeOpa (v : BitVec 35)
  | writeOpf (x : F64)
  | writePrecIn (x : F64)
  | writeInLen (n : Nat)
  | writeIn (i : Nat) (e : Elem)
  /-- Poll until `BUSY = 0`. -/
  | wait
  /-- Let the block make one micro-step, if it is busy. -/
  | pass
  | read (r : HostReg)
  | reset
  deriving DecidableEq, Repr

/-- The machine. Names after 10_state.md: section 2 (datapath), section 3 (interface), 20 R50 (spaces), and the model's own
`est`, `sLat`, `sLon` (log 11), `host` (log 3) and `epoch` (log 2). Index-valued registers are unbounded (92 D11; log 4). -/
structure State where
  /-- `BUSY` (R32, R34). -/
  busy : Bool
  /-- `STATUS` (R32, R33). -/
  status : BitVec 3
  /-- `ERRPOS` (R32, R33). -/
  errpos : Nat
  /-- `RVAL` (R32, R33). -/
  rval : BitVec 35
  /-- `CONSUMED` (R32, R33). -/
  consumed : BitVec 3
  /-- `OCNT` (R32, R33). -/
  ocnt : Nat
  /-- `CMD` (R32). -/
  cmd : BitVec 8
  /-- `OPA` (R32). -/
  opa : BitVec 35
  /-- `OPF` (R32). -/
  opf : F64
  /-- `PREC_IN` (R32). -/
  precIn : F64
  /-- `IN_LEN` (R32). -/
  inLen : Nat
  /-- `OP` (R31). -/
  op : BitVec 4
  /-- `PREC` (R31). -/
  prec : F64
  /-- `OPA` as latched at command start (R34, R36). -/
  opaLatch : BitVec 35
  /-- `OPF` as latched at command start (R34, R36). -/
  opfLatch : F64
  /-- `LEN` (R26). -/
  len : Nat
  /-- `CURSOR` (R25). -/
  cursor : Nat
  /-- `ACC` (R21). -/
  acc : BitVec 30
  /-- `SHIFT` (R22). -/
  shift : BitVec 5
  /-- `GCNT` (R23). -/
  gcnt : BitVec 3
  /-- `CST` (R24). -/
  cst : ChunkState
  /-- `PHASE` (R30). -/
  phase : Phase
  /-- `PREV_LAT` (R27), two's complement. -/
  prevLat : BitVec 32
  /-- `PREV_LON` (R27), two's complement. -/
  prevLon : BitVec 32
  /-- `LAT_ACC` (R28). -/
  latAcc : F64
  /-- `LON_ACC` (R28). -/
  lonAcc : F64
  /-- `V` (R29). -/
  v : BitVec 35
  /-- THE MODEL'S OWN: the position in `EncodeValue` (R110). -/
  est : EncodeState
  /-- `s_lat`, the name `EncodePoint` gives the scaled latitude of its point (43 R161), held while its values are encoded; an i32. -/
  sLat : BitVec 32
  /-- `s_lon`, as `sLat`. -/
  sLon : BitVec 32
  /-- The input space (20 R50). -/
  inp : Space
  /-- The output space (20 R50). -/
  out : Space
  /-- THE MODEL'S OWN: the host's pending actions, first one first. -/
  host : List HostAction
  /-- THE MODEL'S OWN: power-on resets so far; only an argument of free values. -/
  epoch : Nat
  deriving DecidableEq, Repr

/-- The machine after power-on reset (70 R230, 10 R37): BUSY and the result registers 0, the block idle; every register the
spec leaves unspecified at the value log 1 names; nothing known of either space. -/
def State.reset : State where
  busy := false
  status := 0#3
  errpos := 0
  rval := 0#35
  consumed := 0#3
  ocnt := 0
  cmd := 0#8
  opa := 0#35
  opf := 0#64
  precIn := Config.defaultPrecision
  inLen := 0
  op := 0#4
  prec := Config.defaultPrecision
  opaLatch := 0#35
  opfLatch := 0#64
  len := 0
  cursor := 0
  acc := 0#30
  shift := 0#5
  gcnt := 0#3
  cst := .accumulate
  phase := .lat
  prevLat := 0#32
  prevLon := 0#32
  latAcc := 0#64
  lonAcc := 0#64
  v := 0#35
  est := .idle
  sLat := 0#32
  sLon := 0#32
  inp := []
  out := []
  host := []
  epoch := 0

end Sys2Proof.Machine
end

