-- ==== Sys2Proof/Machine/Flags.lean ====
section
/-! DEFINITION. The block has no condition codes (10 R35); its one status is the result tag STATUS (60 R200) and the result
registers beside it, written once, at the end of a command (10 R33). -/

namespace Sys2Proof.Machine

/-- The block's own faults (60 R200), by name. -/
inductive FaultKind where
  | truncatedChunk
  | overflowChunk
  | invalidByte
  | illegalCommand
  deriving DecidableEq, Repr

/-- The code of a fault in `STATUS` (60 R200); 0 is `OK`, 5 to 7 are never written. -/
def faultCode : FaultKind → BitVec 3
  | .truncatedChunk => 1#3
  | .overflowChunk => 2#3
  | .invalidByte => 3#3
  | .illegalCommand => 4#3

/-- The end of a command without a fault: `STATUS <- 0; ERRPOS <- 0`, the command's `RVAL` and `CONSUMED` (0 where it has none), `BUSY <- 0`
(10 R33, R34). `OCNT` holds what the command emitted. -/
def finishOk (rval : BitVec 35) (consumed : BitVec 3) (s : State) : State :=
  { s with status := 0#3, errpos := 0, rval := rval, consumed := consumed, busy := false }

end Sys2Proof.Machine
end

