-- ==== Sys2Proof/Machine/Float.lean ====
section
/-! DEFINITION. Binary64 (00 R9): the fields of a pattern, its exact value as an integer count of 2^-1074 (every finite binary64 is one),
round to nearest even, and the four primitives `fmul`, `fdiv`, `fadd`, `i2f`; and `RHAZ` (42 R140). All arithmetic is on exact
integers; nothing is rounded but in `roundNearest`. -/

namespace Sys2Proof.Machine

/-- Bit 63, the sign. -/
def f64Negative (x : F64) : Bool := x.getLsbD 63
/-- Bits 62:52, the biased exponent. -/
def f64Exponent (x : F64) : Nat := (x.extractLsb' 52 11).toNat
/-- Bits 51:0, the fraction. -/
def f64Fraction (x : F64) : Nat := (x.extractLsb' 0 52).toNat
/-- Finite: exponent below 2047. -/
def f64Finite (x : F64) : Bool := decide (f64Exponent x < 2047)

/-- `2^1074`: how many units make 1. -/
def unitsPerOne : Nat := 2 ^ 1074

/-- |real(x)| of a finite `x`, in units of 2^-1074: `f` for exponent 0, else `(2^52 + f) × 2^(e−1)`. -/
def f64Magnitude (x : F64) : Nat :=
  if f64Exponent x = 0 then f64Fraction x
  else (2 ^ 52 + f64Fraction x) * 2 ^ (f64Exponent x - 1)

/-- real(x) of a finite `x`, in units of 2^-1074. -/
def f64Units (x : F64) : Int :=
  if f64Negative x then -(f64Magnitude x : Int) else (f64Magnitude x : Int)

/-- The domain of a precision (30 R91, 93 U2): finite and greater than zero, that is sign 0 and not both fields 0 (`precisionOk_iff`). -/
def precisionOk (p : F64) : Bool := f64Finite p && !f64Negative p && (decide (f64Exponent p ≠ 0) || decide (f64Fraction p ≠ 0))

/-- A quotient rounded to the nearest integer, a tie to the even one. -/
def divNearestEven (n d : Nat) : Nat :=
  if d < 2 * (n % d) ∨ (2 * (n % d) = d ∧ n / d % 2 = 1) then n / d + 1 else n / d

/-- The place of the last significand bit, in powers of two of the unit, for a magnitude of `t` whole units: 0 for the subnormals and the
lowest binade, else such that 53 bits are kept. -/
def roundPlace (t : Nat) : Nat := if t < 2 ^ 53 then 0 else Nat.log2 t - 52

/-- Bits 62:0 of the pattern of infinity. -/
def infinityBits : Nat := 2047 * 2 ^ 52

/-- Bits 62:0 of the binary64 nearest the magnitude `num / den` (00 R9 `rne`), a tie going to an even fraction; a magnitude of
`2^1024 − 2^970` or more gives infinity. A significand `m` at place `j` has bits `j × 2^52 + m`. -/
def roundNearest (num den : Nat) : Nat :=
  let n := num * unitsPerOne
  let j := roundPlace (n / den)
  min (j * 2 ^ 52 + divNearestEven n (den * 2 ^ j)) infinityBits

/-- A pattern from its sign and its bits 62:0. -/
def f64Of (neg : Bool) (bits : Nat) : F64 :=
  BitVec.ofNat 64 (if neg then 2 ^ 63 + bits else bits)

/-- `fmul(a, b) = rne(real(a) × real(b))`; the sign is the exclusive-or of the signs, also of a zero (00 R9). -/
def fmul (a b : F64) : F64 :=
  f64Of (f64Negative a != f64Negative b) (roundNearest (f64Magnitude a * f64Magnitude b) (unitsPerOne * unitsPerOne))

/-- `fdiv(a, b) = rne(real(a) / real(b))` for `real(b) ≠ 0`; the sign as for `fmul` (00 R9). -/
def fdiv (a b : F64) : F64 :=
  f64Of (f64Negative a != f64Negative b) (roundNearest (f64Magnitude a) (f64Magnitude b))

/-- `fadd(a, b) = rne(real(a) + real(b))`; an exact zero sum is `+0.0`, but of two negative zeros `−0.0` (00 R9; PRESUMED for that last case, log 13). -/
def fadd (a b : F64) : F64 :=
  let t := f64Units a + f64Units b
  f64Of (if t = 0 then f64Negative a && f64Negative b else decide (t < 0)) (roundNearest t.natAbs unitsPerOne)

/-- `i2f(n) = rne(n)` (00 R9). -/
def i2f (n : Int) : F64 := f64Of (decide (n < 0)) (roundNearest n.natAbs 1)

/-- The binary64 nearest the decimal literal `± digits × 10^exp10` (30 R95: a literal "stands for the binary64 value nearest to it"). -/
def f64OfDecimal (neg : Bool) (digits : Nat) (exp10 : Int) : F64 :=
  f64Of neg (roundNearest (digits * 10 ^ exp10.toNat) (10 ^ (-exp10).toNat))

/-- `RHAZ(x)`, round half away from zero (42 R140): `floor(|r| + 1/2)` with the sign of `r`, in exact arithmetic. -/
def rhaz (x : F64) : Int :=
  let n := (2 * f64Magnitude x + unitsPerOne) / (2 * unitsPerOne)
  if f64Negative x then -(n : Int) else (n : Int)

end Sys2Proof.Machine
end

