-- ==== Sys2Proof/Machine/Ops.lean ====
section
/-! DEFINITION. The named operations over the buffer spaces and registers: reads and writes of a space, MemRead, Emit, raising a
fault, command start, ChunkStart, and running a command to its end. -/

namespace Sys2Proof.Machine

/-- The outcome of a step of this machine. -/
abbrev Result := Host.Outcome State Fault Refusal

/-- The element listed at an index, if one is. -/
def spaceRead : Space → Nat → Option Elem
  | [], _ => none
  | (j, e) :: rest, i => if i = j then some e else spaceRead rest i

/-- Store an element at an index, keeping the indices strictly rising. -/
def spaceWrite : Space → Nat → Elem → Space
  | [], i, e => [(i, e)]
  | (j, f) :: rest, i, e =>
    if i < j then (i, e) :: (j, f) :: rest
    else if i = j then (i, e) :: rest
    else (j, f) :: spaceWrite rest i e

/-- Every listed index is at least `lo` and the indices rise strictly. -/
def spaceWfFrom : Nat → Space → Bool
  | _, [] => true
  | lo, (j, _) :: rest => decide (lo ≤ j) && spaceWfFrom (j + 1) rest

/-- The canonical form of a space. -/
def Space.wf (m : Space) : Bool := spaceWfFrom 0 m

/-- `MemRead(IN, i, 1)`: the cell at index `i`, defined only for `i < LEN` (20 R53). -/
def memRead (s : State) (i : Nat) : Except Fault (Option Elem) :=
  if i < s.len then .ok (spaceRead s.inp i) else .error .inputIndexOutOfRange

/-- `Emit(v)`: `MemWrite(OUT, OCNT, 1, v); OCNT <- OCNT + 1` (20 R54). -/
def emit (e : Elem) (s : State) : State :=
  { s with out := spaceWrite s.out s.ocnt e, ocnt := s.ocnt + 1 }

/-- `raise F(i)`, taking a fault (60 R206): the command ends with the absent result; no other register and no element changes.
There is no return from it (60 R207): the next write of `CMD` starts afresh. -/
def raiseFault (f : FaultKind) (i : Nat) (s : State) : State :=
  { s with ocnt := 0, rval := 0#35, consumed := 0#3, errpos := i, status := faultCode f, busy := false }

/-- An illegal command word written to `CMD` while `BUSY = 0` (60 R204, 70 R231 in its order): `CMD` and `OP` latched (log 8), then
`IllegalCommand`. -/
def illegalCommand (w : BitVec 8) (s : State) : State :=
  raiseFault .illegalCommand 0 { s with cmd := w, op := cmdOpc w }

/-- The precision of a command (30 R91): `PREC_IN` with `PSEL = 1`, else 1e5. -/
def selectedPrecision (psel : Bool) (s : State) : F64 :=
  if psel then s.precIn else Config.defaultPrecision

/-- Command-start initialisation (70 R231) of a legal command: `CMD`, the operands and `IN_LEN` latched (10 R34), the datapath at its
start values, no value being encoded, `BUSY <- 1`. `V` is loaded per value before use (10 R37) and is left alone here, as 70 R231 does;
so are `s_lat` and `s_lon`. -/
def commandStart (i : Instr) (s : State) : State :=
  { s with
    busy := true
    cmd := encode i
    op := cmdOpc (encode i)
    prec := selectedPrecision i.psel s
    opaLatch := s.opa
    opfLatch := s.opf
    len := s.inLen
    cursor := 0
    ocnt := 0
    acc := 0#30
    shift := 0#5
    gcnt := 0#3
    cst := .accumulate
    phase := .lat
    prevLat := 0#32
    prevLon := 0#32
    latAcc := 0#64
    lonAcc := 0#64
    est := .idle }

/-- `ChunkStart` (40 R112): the start of decoding one value, at the current cursor. -/
def chunkStart (s : State) : State :=
  { s with acc := 0#30, shift := 0#5, gcnt := 0#3, cst := .accumulate }

/-- Repeat a command's micro-step while `BUSY = 1`, at most this many times (70 R238: every command ends). -/
def runSteps (body : State → Result) : Nat → State → Result
  | 0, s => .next s
  | n + 1, s =>
    if s.busy then
      match body s with
      | .next t => runSteps body n t
      | .fault f => .fault f
      | .refused r => .refused r
    else .next s

/-- A bound on the micro-steps of a command over `n` input elements (70 R238). A decode command takes at most `n + 1` ChunkSteps and ends at
most `n` values. An `EncodeValue` takes at most seven passes, after one step that loads `V`; ENCP takes two of them and one step more
for each point, ENCL one and one step more for each level; one last step ends a command. A wire symbol is no command. -/
def stepBound (i : Instr) (n : Nat) : Nat :=
  match i with
  | .encu => 9
  | .zze | .zzd | .scale _ => 1
  | .decc | .decp _ | .decl => 2 * n + 1
  | .encp _ => 17 * n + 1
  | .encl => 9 * n + 1
  | .wireTerminator _ | .wireContinuation _ => 0

end Sys2Proof.Machine
end

