-- ==== Sys2Proof/Machine/Operands.lean ====
section
/-! DEFINITION. Every operand form (30 R94; 20 R55): the scalar operands read from the latches, the elements read from IN at the command's
type, and the forms of a scalar result. -/

namespace Sys2Proof.Machine

/-- `u = OPA[34:0]` (40 R110). -/
def opaUnsigned35 (s : State) : BitVec 35 := s.opaLatch
/-- `u = OPA[32:0]`, a u33 (41 R131); bits 34:33 are ignored. -/
def opaUnsigned33 (s : State) : Nat := (s.opaLatch.setWidth 33).toNat
/-- `v = sext_33(OPA[32:0])`, an i33 (41 R130); bits 34:33 are ignored. -/
def opaSigned33 (s : State) : Int := (s.opaLatch.setWidth 33).toInt

/-- An unsigned scalar result, zero-extended to 35 bits (30 R94). -/
def rvalUnsigned (u : Nat) : BitVec 35 := BitVec.ofNat 35 u
/-- A signed scalar result: `v mod 2^35`, two's complement sign-extended to 35 bits (30 R94). -/
def rvalSigned (v : Int) : BitVec 35 := BitVec.ofInt 35 v

/-- IN element `i` of a command whose elements are bytes; a cell that is not a byte gives a free value (log 2). -/
def readByte (s : State) (i : Nat) : Except Fault Byte :=
  match memRead s i with
  | .ok (some (.byte b)) => .ok b
  | .ok c => .ok (Config.inByte s.epoch i c)
  | .error f => .error f

/-- IN element `i` of a command whose elements are levels (log 2). -/
def readLevel (s : State) (i : Nat) : Except Fault Level :=
  match memRead s i with
  | .ok (some (.level l)) => .ok l
  | .ok c => .ok (Config.inLevel s.epoch i c)
  | .error f => .error f

/-- IN element `i` of a command whose elements are points (log 2). -/
def readPoint (s : State) (i : Nat) : Except Fault Point :=
  match memRead s i with
  | .ok (some (.point p)) => .ok p
  | .ok c => .ok (Config.inPoint s.epoch i c)
  | .error f => .error f

end Sys2Proof.Machine
end

