-- ==== Sys2Proof/Machine/Signed.lean ====
section
/-! DEFINITION. The Signed Value Codec (41_signed_codec.md): the zigzag functions and the micro-steps of ZZE and ZZD. -/

namespace Sys2Proof.Machine

/-- `ZigZag(v)` (41 R130): `t = 2v`; `~t = −t − 1` where `v < 0`. -/
def zigZag (v : Int) : Nat :=
  let t := v * 2
  (if v < 0 then -t - 1 else t).toNat

/-- `UnZigZag(u)` (41 R131): `h = floor(u / 2)`; `~h = −h − 1` where bit 0 of `u` is 1. -/
def unZigZag (u : Nat) : Int :=
  let h : Int := (u / 2 : Nat)
  if u % 2 = 1 then -h - 1 else h

/-- The body of `ZZE` (41 R130). -/
def zzeStep (s : State) : Result :=
  .next (finishOk (rvalUnsigned (zigZag (opaSigned33 s))) 0#3 s)

/-- The body of `ZZD` (41 R131). -/
def zzdStep (s : State) : Result :=
  .next (finishOk (rvalSigned (unZigZag (opaUnsigned33 s))) 0#3 s)

end Sys2Proof.Machine
end

