-- ==== Sys2Proof/Machine/Chunk.lean ====
section
/-! DEFINITION. The Chunk Codec (40_chunk_codec.md): the passes of EncodeValue, the wire symbols as instructions, ChunkStep, and the micro-steps of ENCU
and DECC. -/

namespace Sys2Proof.Machine

/-- The byte of one pass of `EncodeValue`'s loop (40 R110): the low five bits of `V`, the flag 0x20 if any higher bit remains, plus 63. -/
def passByte (v : BitVec 35) : Byte :=
  wireByte (decide (v >>> 5 ≠ 0#35)) (v.extractLsb' 0 5)

/-- `EncodeValue(u)` begins (40 R110): `V <- u`, and the loop is entered. -/
def encodeStart (u : BitVec 35) (s : State) : State := { s with v := u, est := .passing }

/-- One pass of `EncodeValue`'s loop, one micro-step (40 R110): `V` shifted right by 5, one byte emitted, `until V = 0`. -/
def encodePass (s : State) : State :=
  emit (.byte (passByte s.v)) { s with v := s.v >>> 5, est := if s.v >>> 5 = 0#35 then .done else .passing }

/-- The commands that decode: DECC, DECP, DECL (10 R21). -/
def isDecodeOp (op : BitVec 4) : Bool := op == 2#4 || op == 7#4 || op == 9#4

/-- A `ChunkStep` that reads the symbol (`c`, `g`) (40 R113): its checks 1 and 2, then the group put at the bit offset. `requires CST =
ACCUMULATE`, in a running decode command (log 15). -/
def acceptSymbol (c : Bool) (g : BitVec 5) (s : State) : Result :=
  if s.busy && isDecodeOp s.op && decide (s.cst = .accumulate) then
    if s.len ≤ s.cursor then .next (raiseFault .truncatedChunk s.cursor s)
    else if s.gcnt = 6#3 then .next (raiseFault .overflowChunk s.cursor s)
    else .next { s with
      acc := s.acc ||| (g.setWidth 30 <<< s.shift.toNat)
      shift := s.shift + 5#5
      gcnt := s.gcnt + 1#3
      cursor := s.cursor + 1
      cst := if c then s.cst else .done }
  else .refused .chunkStepNotEnabled

/-- The wire symbol with `C = 0`, the last byte of a value (30 R80, 40 R113). -/
def execWireTerminator (g : BitVec 5) (s : State) : Result := acceptSymbol false g s

/-- The wire symbol with `C = 1`, another byte of the value follows (30 R80, 40 R113). -/
def execWireContinuation (g : BitVec 5) (s : State) : Result := acceptSymbol true g s

/-- A symbol read by the chunk machine, executed. -/
def execSymbol (i : Instr) (s : State) : Result :=
  match i with
  | .wireTerminator g => execWireTerminator g s
  | .wireContinuation g => execWireContinuation g s
  | .encu | .decc | .zze | .zzd | .scale _ | .encp _ | .decp _ | .encl | .decl => .refused .chunkStepNotEnabled

/-- `ChunkStep` (40 R113): exhaustion, group limit, the byte read, alphabet, then the symbol. -/
def chunkStep (s : State) : Result :=
  if s.len ≤ s.cursor then .next (raiseFault .truncatedChunk s.cursor s)
  else if s.gcnt = 6#3 then .next (raiseFault .overflowChunk s.cursor s)
  else
    match readByte s s.cursor with
    | .error f => .fault f
    | .ok b =>
      match decodeSymbol b with
      | .error _ => .next (raiseFault .invalidByte s.cursor s)
      | .ok i => execSymbol i s

/-- One micro-step of `ENCU` (40 R110): the value loaded, one pass, or the end of the command. -/
def encuStep (s : State) : Result :=
  match s.est with
  | .idle => .next (encodeStart (opaUnsigned35 s) s)
  | .passing => .next (encodePass s)
  | .done => .next (finishOk 0#35 0#3 s)

/-- One micro-step of `DECC` (40 R116). -/
def deccStep (s : State) : Result :=
  match s.cst with
  | .accumulate => chunkStep s
  | .done => .next (finishOk (s.acc.setWidth 35) (BitVec.ofNat 3 s.cursor) s)

end Sys2Proof.Machine
end

