-- ==== Sys2Proof/Machine/Scaler.lean ====
section
/-! DEFINITION. The precision scaler (42_scaler.md): Scale, Delta, Accumulate, and the micro-step of SCALE. -/

namespace Sys2Proof.Machine

/-- `−2^31 ≤ n ≤ 2^31 − 1` (42 R141). -/
def fitsI32 (n : Int) : Bool := decide (-2 ^ 31 ≤ n) && decide (n ≤ 2 ^ 31 - 1)

/-- `Scale(x, P)` (42 R141): the binary64 product rounded half away from zero, with its four `require` lines (93 U1 to U4). -/
def scaleInt (x p : F64) : Except Refusal Int :=
  if !f64Finite x then .error .coordinateNotFinite
  else if !precisionOk p then .error .precisionNotPositive
  else if !f64Finite (fmul x p) then .error .productNotFinite
  else if !fitsI32 (rhaz (fmul x p)) then .error .scaledOutOfRange
  else .ok (rhaz (fmul x p))

/-- `Delta(s, prev) = s − prev`, without wrap (42 R143); `prev` is an i32 register. -/
def delta (n : Int) (prev : BitVec 32) : Int := n - prev.toInt

/-- `Accumulate(acc, d, P)` (42 R144): `fadd(acc, fdiv(i2f(d), P))`, with its `require` lines (93 U2, U5). -/
def accumulate (acc : F64) (d : Int) (p : F64) : Except Refusal F64 :=
  if !precisionOk p then .error .precisionNotPositive
  else if !f64Finite (fdiv (i2f d) p) then .error .accumulatorNotFinite
  else if !f64Finite (fadd acc (fdiv (i2f d) p)) then .error .accumulatorNotFinite
  else .ok (fadd acc (fdiv (i2f d) p))

/-- The body of `SCALE` (42 R141). -/
def scaleStep (s : State) : Result :=
  match scaleInt s.opfLatch s.prec with
  | .error r => .refused r
  | .ok n => .next (finishOk (rvalSigned n) 0#3 s)

end Sys2Proof.Machine
end

