-- ==== Sys2Proof/Machine/Stream.lean ====
section
/-! DEFINITION. The stream codecs: the micro-steps of ENCP and DECP (43_coordinate_stream.md), ENCL and DECL (44_levels_stream.md). -/

namespace Sys2Proof.Machine

/-- `EncodeValue(ZigZag(d))` of a delta begins (43 R161); a u33 in 35 bits. -/
def startDelta (d : Int) (s : State) : State := encodeStart (BitVec.ofNat 35 (zigZag d)) s

/-- `EncodePoint` up to its first `EncodeValue` (43 R161): the point read, both components scaled, the latitude delta first. -/
def encodePoint (s : State) : Result :=
  match readPoint s s.cursor with
  | .error f => .fault f
  | .ok p =>
    match scaleInt p.lat s.prec, scaleInt p.lon s.prec with
    | .ok a, .ok b =>
      .next (startDelta (delta a s.prevLat) { s with sLat := BitVec.ofInt 32 a, sLon := BitVec.ofInt 32 b, phase := .lat })
    | .error r, _ => .refused r
    | .ok _, .error r => .refused r

/-- The end of one `EncodeValue` of `EncodePoint` (43 R161): after the latitude the longitude delta; after the longitude the previous pair and the
cursor, and `PHASE` toggled back (10 R30; log 7). -/
def endDelta (s : State) : State :=
  match s.phase with
  | .lat => startDelta (delta s.sLon.toInt s.prevLon) { s with phase := .lon }
  | .lon => { s with prevLat := s.sLat, prevLon := s.sLon, cursor := s.cursor + 1, phase := .lat, est := .idle }

/-- One micro-step of `ENCP` (43 R160, R161): a point begins or the command ends, one pass, or the end of a value. -/
def encpStep (s : State) : Result :=
  match s.est with
  | .idle => if s.cursor < s.len then encodePoint s else .next (finishOk 0#35 0#3 s)
  | .passing => .next (encodePass s)
  | .done => .next (endDelta s)

/-- One micro-step of `ENCL` (44 R180): a level begins or the command ends, one pass, or the end of a level. -/
def enclStep (s : State) : Result :=
  match s.est with
  | .idle =>
    if s.cursor < s.len then
      match readLevel s s.cursor with
      | .error f => .fault f
      | .ok l => .next (encodeStart (l.setWidth 35) s)
    else .next (finishOk 0#35 0#3 s)
  | .passing => .next (encodePass s)
  | .done => .next { s with cursor := s.cursor + 1, est := .idle }

/-- The test "while CURSOR < LEN" at a value boundary of a stream decode (43 R163, 44 R181): the next value starts, or the command ends. -/
def nextValue (s : State) : State :=
  if s.cursor < s.len then chunkStart s else finishOk 0#35 0#3 s

/-- One micro-step of `DECP` (43 R163, R164). At the first boundary an empty input ends the command; inside a value a `ChunkStep`; at the end
of a latitude value `LAT_ACC` and the longitude value starts without a test; at the end of a longitude value `LON_ACC`, the point
emitted, and the loop's test. -/
def decpStep (s : State) : Result :=
  match s.cst with
  | .accumulate =>
    if s.gcnt = 0#3 ∧ s.phase = .lat ∧ s.len ≤ s.cursor then .next (finishOk 0#35 0#3 s) else chunkStep s
  | .done =>
    match s.phase with
    | .lat =>
      match accumulate s.latAcc (unZigZag s.acc.toNat) s.prec with
      | .error r => .refused r
      | .ok a => .next (chunkStart { s with latAcc := a, phase := .lon })
    | .lon =>
      match accumulate s.lonAcc (unZigZag s.acc.toNat) s.prec with
      | .error r => .refused r
      | .ok a => .next (nextValue (emit (.point ⟨s.latAcc, a⟩) { s with lonAcc := a, phase := .lat }))

/-- One micro-step of `DECL` (44 R181): as `DECP`, but each value is one level, zero-extended from 30 bits to 32. -/
def declStep (s : State) : Result :=
  match s.cst with
  | .accumulate => if s.gcnt = 0#3 ∧ s.len ≤ s.cursor then .next (finishOk 0#35 0#3 s) else chunkStep s
  | .done => .next (nextValue (emit (.level (s.acc.setWidth 32)) s))

end Sys2Proof.Machine
end

