-- ==== Sys2Proof/Machine/Commands.lean ====
section
/-! DEFINITION. The nine commands as whole transactions (92 D1): command start, then the command's micro-step until BUSY = 0; and the block's
own step while BUSY = 1. -/

namespace Sys2Proof.Machine

/-- Whether a write of `CMD` that names `i` may start it (30 R91; 93 U2, U6; log 5): the block is idle and the selected precision is in the
domain. Gives the reason where it may not. -/
def startable (i : Instr) (s : State) : Option Refusal :=
  if s.busy then some .commandWhileBusy
  else if !precisionOk (selectedPrecision i.psel s) then some .precisionNotPositive
  else none

/-- A write of `CMD` alone (10 R34): command-start initialisation, and the block is busy. -/
def startCommand (i : Instr) (s : State) : Result :=
  match startable i s with
  | some r => .refused r
  | none => .next (commandStart i s)

/-- A whole command: command start, then its micro-step until `BUSY = 0` (log 11). -/
def runCommand (i : Instr) (body : State → Result) (s : State) : Result :=
  match startable i s with
  | some r => .refused r
  | none => runSteps body (stepBound i s.inLen) (commandStart i s)

/-- `ENCU` (40 R110). -/
def execEncu (s : State) : Result := runCommand .encu encuStep s
/-- `DECC` (40 R116). -/
def execDecc (s : State) : Result := runCommand .decc deccStep s
/-- `ZZE` (41 R130). -/
def execZze (s : State) : Result := runCommand .zze zzeStep s
/-- `ZZD` (41 R131). -/
def execZzd (s : State) : Result := runCommand .zzd zzdStep s
/-- `SCALE` (42 R141). -/
def execScale (psel : Bool) (s : State) : Result := runCommand (.scale psel) scaleStep s
/-- `ENCP` (43 R160). -/
def execEncp (psel : Bool) (s : State) : Result := runCommand (.encp psel) encpStep s
/-- `DECP` (43 R163). -/
def execDecp (psel : Bool) (s : State) : Result := runCommand (.decp psel) decpStep s
/-- `ENCL` (44 R180). -/
def execEncl (s : State) : Result := runCommand .encl enclStep s
/-- `DECL` (44 R181). -/
def execDecl (s : State) : Result := runCommand .decl declStep s

/-- One micro-step of the running command, by `OP` (70 R238). -/
def blockStep (s : State) : Result :=
  match s.op.toNat with
  | 1 => encuStep s
  | 2 => deccStep s
  | 3 => zzeStep s
  | 4 => zzdStep s
  | 5 => scaleStep s
  | 6 => encpStep s
  | 7 => decpStep s
  | 8 => enclStep s
  | 9 => declStep s
  | _ => .refused .noRunningCommand

end Sys2Proof.Machine
end

