-- ==== Sys2Proof/Machine/Dispatch.lean ====
section
/-! DEFINITION. One arm per constructor of Instr: the meaning of each row of the opcode table. -/

namespace Sys2Proof.Machine

def exec (i : Instr) (s : State) : Host.Outcome State Fault Refusal :=
  match i with
  | .encu => Sys2Proof.Machine.execEncu s
  | .decc => Sys2Proof.Machine.execDecc s
  | .zze => Sys2Proof.Machine.execZze s
  | .zzd => Sys2Proof.Machine.execZzd s
  | .scale psel => Sys2Proof.Machine.execScale psel s
  | .encp psel => Sys2Proof.Machine.execEncp psel s
  | .decp psel => Sys2Proof.Machine.execDecp psel s
  | .encl => Sys2Proof.Machine.execEncl s
  | .decl => Sys2Proof.Machine.execDecl s
  | .wireTerminator group => Sys2Proof.Machine.execWireTerminator group s
  | .wireContinuation group => Sys2Proof.Machine.execWireContinuation group s

end Sys2Proof.Machine
end

