-- ==== Sys2Proof/Machine/Fetch.lean ====
section
/-! DEFINITION. Where the next instruction comes from: a command word from the host's next action while BUSY = 0, a wire symbol from IN at CURSOR
while a decode command is accumulating; and everything else that can happen in a step. -/

namespace Sys2Proof.Machine

/-- What a step finds to do: an instruction to execute in a state, or an outcome that executes none. -/
inductive Fetched where
  | run (i : Instr) (s : State)
  | other (r : Result)

/-- The wire symbol the next `ChunkStep` reads, if it gets past its three checks (40 R113). -/
def fetchSymbol (s : State) : Option Instr :=
  if isDecodeOp s.op && decide (s.cst = .accumulate) && decide (s.cursor < s.len) && decide (s.gcnt ≠ 6#3) then
    match readByte s s.cursor with
    | .ok b => (decodeSymbol b).toOption
    | .error _ => none
  else none

/-- The block's turn while `BUSY = 1`: the symbol at `CURSOR`, or the running command's next micro-step. -/
def fetchBusy (s : State) : Fetched :=
  match fetchSymbol s with
  | some i => .run i s
  | none => .other (blockStep s)

/-- Power-on reset, at any time (70 R230): the host's later actions stay pending; a new epoch of unspecified values begins
(log 14). -/
def powerOnReset (s : State) : State :=
  { State.reset with host := s.host, epoch := s.epoch + 1 }

/-- One host action on the state left when it is taken off the list (10 R32; 70 R233, R241; 93 U6, U7, U9; log 6). -/
def hostMove (a : HostAction) (s : State) : Fetched :=
  match a with
  | .command w =>
    if s.busy then .other (.refused .commandWhileBusy)
    else
      match decodeCommand w with
      | .ok i => .run i s
      | .error _ => .other (.next (illegalCommand w s))
  | .writeCmd w =>
    if s.busy then .other (.refused .commandWhileBusy)
    else
      match decodeCommand w with
      | .ok i => .other (startCommand i s)
      | .error _ => .other (.next (illegalCommand w s))
  | .writeOpa v =>
    if s.busy then .other (.refused .operandWriteWhileBusy) else .other (.next { s with opa := v })
  | .writeOpf x =>
    if s.busy then .other (.refused .operandWriteWhileBusy) else .other (.next { s with opf := x })
  | .writePrecIn x =>
    if s.busy then .other (.refused .operandWriteWhileBusy) else .other (.next { s with precIn := x })
  | .writeInLen n =>
    if s.busy then .other (.refused .inputWriteWhileBusy) else .other (.next { s with inLen := n })
  | .writeIn i e =>
    if s.busy then .other (.refused .inputWriteWhileBusy)
    else .other (.next { s with inp := spaceWrite s.inp i e })
  | .wait => .other (.next s)
  | .pass => if s.busy then fetchBusy s else .other (.next s)
  | .read _ => .other (.next s)
  | .reset => .other (.next (powerOnReset s))

/-- What happens next. While `BUSY = 1` and the host waits or has nothing to do, the block moves; else the host's next action is taken;
an idle block with no action pending stays as it is (10 R37: it "does nothing until the host writes CMD"; log 3). -/
def fetch (s : State) : Fetched :=
  match s.host with
  | [] => if s.busy then fetchBusy s else .other (.next s)
  | .wait :: rest => if s.busy then fetchBusy s else hostMove .wait { s with host := rest }
  | a :: rest => hostMove a { s with host := rest }

/-- The state whose very next step runs a wire byte: a `DECC` over that one byte, at its first ChunkStep, the host waiting (log 10). -/
def placeByte (b : Byte) (s : State) : State :=
  { s with busy := true, op := 2#4, len := 1, cursor := 0, acc := 0#30, shift := 0#5, gcnt := 0#3, cst := .accumulate,
           inp := spaceWrite s.inp 0 (.byte b), host := .wait :: s.host }

/-- The state whose very next step runs a command word: the host's next action writes it to `CMD` (log 10). -/
def placeCommand (w : BitVec 8) (s : State) : State :=
  { s with busy := false, host := .command w :: s.host }

/-- An instruction's word, numbered as the table numbers it, put where the next step fetches it: read as `decodeTableWord` reads
it, a wire symbol as the byte in IN, everything else as a command word. -/
def placeWord (s : State) (nbits w : Nat) : State :=
  match decodeTableWord nbits w with
  | some i => match i.code with
    | .wire => placeByte (encode i) s
    | .command => placeCommand (encode i) s
  | none => placeCommand (BitVec.ofNat 8 w) s

end Sys2Proof.Machine
end

