-- ==== Sys2Proof/Machine/Step.lean ====
section
/-! DEFINITION. One step: what Fetch finds, run by exec. -/

namespace Sys2Proof.Machine

/-- One step of the machine. -/
def step (s : State) : Host.Outcome State Fault Refusal :=
  match fetch s with
  | .run i t => exec i t
  | .other r => r

/-- `s` with an instruction's word where `step` fetches its next instruction (see `placeWord`). -/
def State.withFetchWord (s : State) (nbits w : Nat) : State := placeWord s nbits w

end Sys2Proof.Machine
end

