-- ==== Sys2Proof/Machine/HostPort.lean ====
section
/-! DEFINITION. What the host reads (70 R240, R233 c and d; 93 U7 and section 2). `k` names the occasion of the read: two reads that return "any value"
need not return the same one. -/

namespace Sys2Proof.Machine

/-- `BUSY`, readable at any time (10 R32). -/
def hostBusy (s : State) : Bool := s.busy

/-- A result register read by the host: its value while `BUSY = 0`, any value of its width while `BUSY = 1` (93 U7). -/
def hostStatus (k : Nat) (s : State) : BitVec 3 :=
  if s.busy then BitVec.ofNat 3 (Config.busyRead k) else s.status
/-- As `hostStatus`. -/
def hostErrpos (k : Nat) (s : State) : Nat := if s.busy then Config.busyRead k else s.errpos
/-- As `hostStatus`. -/
def hostRval (k : Nat) (s : State) : BitVec 35 :=
  if s.busy then BitVec.ofNat 35 (Config.busyRead k) else s.rval
/-- As `hostStatus`. -/
def hostConsumed (k : Nat) (s : State) : BitVec 3 :=
  if s.busy then BitVec.ofNat 3 (Config.busyRead k) else s.consumed
/-- As `hostStatus`. -/
def hostOcnt (k : Nat) (s : State) : Nat := if s.busy then Config.busyRead k else s.ocnt

/-- OUT element `i` read by the host: the element while `BUSY = 0` and `i < OCNT` (70 R240), else any value. -/
def hostOut (k i : Nat) (s : State) : Elem :=
  if s.busy then Config.outRead k i
  else if i < s.ocnt then (spaceRead s.out i).getD (Config.outRead k i)
  else Config.outRead k i

/-- The valid output elements `0 .. OCNT − 1`, as the host copies them out (70 R233 e). -/
def outElements (s : State) : List (Option Elem) := (List.range s.ocnt).map (spaceRead s.out)

/-- An output element as a byte, a level, a point. -/
def elemByte : Option Elem → Option Byte
  | some (.byte b) => some b
  | some (.level _) | some (.point _) | none => none
/-- As `elemByte`. -/
def elemLevel : Option Elem → Option Level
  | some (.level l) => some l
  | some (.byte _) | some (.point _) | none => none
/-- As `elemByte`. -/
def elemPoint : Option Elem → Option Point
  | some (.point p) => some p
  | some (.byte _) | some (.level _) | none => none

/-- The output of an encode command. -/
def outBytes (s : State) : List Byte := (outElements s).filterMap elemByte
/-- The output of `DECL`. -/
def outLevels (s : State) : List Level := (outElements s).filterMap elemLevel
/-- The output of `DECP`. -/
def outPoints (s : State) : List Point := (outElements s).filterMap elemPoint

end Sys2Proof.Machine
end

