-- ==== Sys2Proof/Machine/Facade.lean ====
section
/-! DEFINITION. The host's side (30 R95, R96; 45 R190 to R192): assembler lines and pseudo-operations expanded into host actions, and the facade's snapshot.
Not part of the block (00 R4 d). -/

namespace Sys2Proof.Machine

/-- The host writes the input elements and `IN_LEN` (70 R232). -/
def loadInput (es : List Elem) : List HostAction :=
  es.zipIdx.map (fun p => .writeIn p.2 p.1) ++ [.writeInLen es.length]

/-- The host writes `PREC_IN` for a command with `PSEL = 1` (70 R232). -/
def loadPrecision : Option F64 → List HostAction
  | none => []
  | some p => [.writePrecIn p]

/-- `PSEL` of a line: set exactly by the suffix `.P` (30 R95). -/
def linePsel (p : Option F64) : Bool := p.isSome

/-- The host actions of an assembler line or pseudo-operation (30 R95, R96; 70 R232: `CMD` last). -/
def lineActions : Line → List HostAction
  | .encu u => [.writeOpa (BitVec.ofNat 35 u), .command (encode .encu)]
  | .decc bs => loadInput (bs.map .byte) ++ [.command (encode .decc)]
  | .zze v => [.writeOpa (BitVec.ofInt 35 v), .command (encode .zze)]
  | .zzd u => [.writeOpa (BitVec.ofNat 35 u), .command (encode .zzd)]
  | .scale p x => loadPrecision p ++ [.writeOpf x, .command (encode (.scale (linePsel p)))]
  | .encp p ps => loadPrecision p ++ loadInput (ps.map .point) ++ [.command (encode (.encp (linePsel p)))]
  | .decp p bs => loadPrecision p ++ loadInput (bs.map .byte) ++ [.command (encode (.decp (linePsel p)))]
  | .encl ls => loadInput (ls.map fun l => .level (BitVec.ofNat 32 l)) ++ [.command (encode .encl)]
  | .decl bs => loadInput (bs.map .byte) ++ [.command (encode .decl)]
  | .facadeEnc p ps ls =>
    (loadPrecision p ++ loadInput (ps.map .point) ++ [.command (encode (.encp (linePsel p)))]) ++
      match ls with
      | none => []
      | some ls => loadInput (ls.map fun l => .level (BitVec.ofNat 32 l)) ++ [.command (encode .encl)]
  | .facadeDec p bs ls =>
    (loadPrecision p ++ loadInput (bs.map .byte) ++ [.command (encode (.decp (linePsel p)))]) ++
      match ls with
      | none => []
      | some ls => loadInput (ls.map .byte) ++ [.command (encode .decl)]

/-- One host action taken while the block is idle: what `step` does when it is the next one. -/
def perform (a : HostAction) (s : State) : Result :=
  match hostMove a s with
  | .run i t => exec i t
  | .other r => r

/-- Host actions taken one after another. -/
def performAll : List HostAction → State → Result
  | [], s => .next s
  | a :: rest, s =>
    match perform a s with
    | .next t => performAll rest t
    | .fault f => .fault f
    | .refused r => .refused r

/-- `PolylineSnapshot` (45 R192): "absent" is `none`. -/
structure Snapshot where
  coordinates : Option (List Point)
  encodedPolyline : List Byte
  levels : Option (List Level)
  encodedLevels : Option (List Byte)
  precision : F64
  deriving DecidableEq, Repr

/-- The outcome of a facade call: the snapshot and the block afterwards. -/
abbrev FacadeResult := Host.Outcome (Snapshot × State) Fault Refusal

/-- The decoded list of the command that has just ended, or "absent" (45 R191; 70 R233 d). -/
def presentIf {α : Type} (s : State) (x : α) : Option α := if s.status = 0#3 then some x else none

/-- `FACADE.ENC` (45 R190): the coordinates and levels are stored as given. -/
def facadeEnc (p : Option F64) (points : List Point) (levels : Option (List Level)) (s : State) : FacadeResult :=
  match performAll (lineActions (.encp p points)) s with
  | .fault f => .fault f
  | .refused r => .refused r
  | .next t =>
    match levels with
    | none => .next (⟨some points, outBytes t, none, none, p.getD Config.defaultPrecision⟩, t)
    | some ls =>
      match performAll (lineActions (.encl (ls.map BitVec.toNat))) t with
      | .fault f => .fault f
      | .refused r => .refused r
      | .next w => .next (⟨some points, outBytes t, some ls, some (outBytes w), p.getD Config.defaultPrecision⟩, w)

/-- `FACADE.DEC` (45 R191): each of the two decodes is judged on its own. -/
def facadeDec (p : Option F64) (coords : List Byte) (levels : Option (List Byte)) (s : State) : FacadeResult :=
  match performAll (lineActions (.decp p coords)) s with
  | .fault f => .fault f
  | .refused r => .refused r
  | .next t =>
    match levels with
    | none => .next (⟨presentIf t (outPoints t), coords, none, none, p.getD Config.defaultPrecision⟩, t)
    | some ls =>
      match performAll (lineActions (.decl ls)) t with
      | .fault f => .fault f
      | .refused r => .refused r
      | .next w =>
        .next (⟨presentIf t (outPoints t), coords, presentIf w (outLevels w), some ls, p.getD Config.defaultPrecision⟩, w)

end Sys2Proof.Machine
end

