-- ==== Sys2Proof/Safety.lean ====
section
/-! DEFINITION. The terms claims are stated in: the closed forms of the spec (how many bytes a value takes, what a byte string decodes to, what a list of
points encodes to), written on lists and integers and not on the machine's loops; and the invariants of a safe run. -/

namespace Sys2Proof.Machine

/-! ## What a command reads -/

/-- IN element `i` as a byte (a free value where the cell is none, log 2). -/
def byteAt (s : State) (i : Nat) : Byte :=
  match spaceRead s.inp i with
  | some (.byte b) => b
  | c => Config.inByte s.epoch i c

/-- IN element `i` as a level. -/
def levelAt (s : State) (i : Nat) : Level :=
  match spaceRead s.inp i with
  | some (.level l) => l
  | c => Config.inLevel s.epoch i c

/-- IN element `i` as a point. -/
def pointAt (s : State) (i : Nat) : Point :=
  match spaceRead s.inp i with
  | some (.point p) => p
  | c => Config.inPoint s.epoch i c

/-- The bytes a decode command reads: IN `0 .. IN_LEN − 1`. -/
def inputBytes (s : State) : List Byte := (List.range s.inLen).map (byteAt s)
/-- The levels `ENCL` reads. -/
def inputLevels (s : State) : List Level := (List.range s.inLen).map (levelAt s)
/-- The points `ENCP` reads. -/
def inputPoints (s : State) : List Point := (List.range s.inLen).map (pointAt s)

/-! ## The chunk codec in closed form -/

/-- `bitlen(u)` (30 R84). -/
def bitLength (u : Nat) : Nat := if u = 0 then 0 else Nat.log2 u + 1

/-- `k = max(1, ceil(bitlen(u) / 5))` (40 R111 a). -/
def chunkLength (u : Nat) : Nat := max 1 ((bitLength u + 4) / 5)

/-- Byte `j` of the encoding of `u` (40 R111 b). -/
def chunkByteAt (u j : Nat) : Byte :=
  BitVec.ofNat 8 (63 + (u >>> (5 * j)) % 32 + if j + 1 < chunkLength u then 32 else 0)

/-- The chunk sequence of `u` (40 R111). -/
def chunkBytes (u : Nat) : List Byte := (List.range (chunkLength u)).map (chunkByteAt u)

/-- A continuation byte: 95 to 126 (30 R80). -/
def isContinuation (b : Byte) : Bool := decide (95 ≤ b.toNat) && decide (b.toNat ≤ 126)
/-- A terminator: 63 to 94 (30 R80). -/
def isTerminator (b : Byte) : Bool := decide (63 ≤ b.toNat) && decide (b.toNat ≤ 94)

/-- `Σ G_j × 2^(5j)` over the bytes of a chunk sequence (30 R83). -/
def groupsValue : List Byte → Nat
  | [] => 0
  | b :: bs => (b.toNat - 63) % 32 + 32 * groupsValue bs

/-- What decoding one value from the front of `bs` gives (40 R114): the value and how many bytes it took, or the fault and its offset. `t` is the
number of leading continuation bytes. -/
def decodeOne (bs : List Byte) : Except (FaultKind × Nat) (Nat × Nat) :=
  let t := (bs.takeWhile isContinuation).length
  if 6 ≤ t then
    if bs.length = 6 then .error (.truncatedChunk, 6) else .error (.overflowChunk, 6)
  else
    match bs[t]? with
    | none => .error (.truncatedChunk, t)
    | some b => if isTerminator b then .ok (groupsValue (bs.take (t + 1)), t + 1) else .error (.invalidByte, t)

/-- What decoding all of `bs` gives, from offset `c` on: its values, or the first fault and its index. The first argument bounds the number of
values: `bs.length` is enough. -/
def decodeMany : Nat → Nat → List Byte → Except (FaultKind × Nat) (List Nat)
  | 0, _, _ => .ok []
  | n + 1, c, bs =>
    if bs.isEmpty then .ok []
    else
      match decodeOne bs with
      | .error (f, o) => .error (f, c + o)
      | .ok (u, k) =>
        match decodeMany n (c + k) (bs.drop k) with
        | .error e => .error e
        | .ok us => .ok (u :: us)

/-- The values of a byte string, or its first fault (30 R87, 44 R181). -/
def decodeAll (bs : List Byte) : Except (FaultKind × Nat) (List Nat) := decodeMany bs.length 0 bs

/-- Why decoding points stops: a fault of the block, or an input outside the domain. -/
inductive DecodeStop where
  | fault (f : FaultKind) (i : Nat)
  | outside (r : Refusal)
  deriving DecidableEq, Repr

/-- What decoding points from `bs` gives (43 R164), from offset `c` and the accumulators `lat`, `lon` on. The first argument bounds the number of
points. -/
def decodePoints (prec : F64) : Nat → Nat → F64 → F64 → List Byte → Except DecodeStop (List Point)
  | 0, _, _, _, _ => .ok []
  | n + 1, c, lat, lon, bs =>
    if bs.isEmpty then .ok []
    else
      match decodeOne bs with
      | .error (f, o) => .error (.fault f (c + o))
      | .ok (u, k) =>
        match accumulate lat (unZigZag u) prec with
        | .error r => .error (.outside r)
        | .ok lat' =>
          match decodeOne (bs.drop k) with
          | .error (f, o) => .error (.fault f (c + k + o))
          | .ok (w, m) =>
            match accumulate lon (unZigZag w) prec with
            | .error r => .error (.outside r)
            | .ok lon' =>
              match decodePoints prec n (c + k + m) lat' lon' (bs.drop (k + m)) with
              | .error e => .error e
              | .ok ps => .ok (⟨lat', lon'⟩ :: ps)

/-! ## The encoders in closed form -/

/-- The levels string of a list of levels (30 R87). -/
def levelsString (ls : List Level) : List Byte := ls.flatMap fun l => chunkBytes l.toNat

/-- The scaled pairs of a list of points, or why a point is outside the domain (43 R161, R162). -/
def scaledPairs (prec : F64) : List Point → Except Refusal (List (Int × Int))
  | [] => .ok []
  | p :: ps =>
    match scaleInt p.lat prec with
    | .error r => .error r
    | .ok a =>
      match scaleInt p.lon prec with
      | .error r => .error r
      | .ok b =>
        match scaledPairs prec ps with
        | .error r => .error r
        | .ok qs => .ok ((a, b) :: qs)

/-- The deltas of scaled pairs, latitude then longitude of each point, from a previous pair on (43 R161). -/
def deltasFrom : Int × Int → List (Int × Int) → List Int
  | _, [] => []
  | prev, p :: ps => (p.1 - prev.1) :: (p.2 - prev.2) :: deltasFrom p ps

/-- The coordinate string of a list of scaled pairs (30 R86): the implicit starting point is (0, 0). -/
def coordinateString (ps : List (Int × Int)) : List Byte :=
  (deltasFrom (0, 0) ps).flatMap fun d => chunkBytes (zigZag d)

/-! ## DecodeValue -/

/-- `while CST = ACCUMULATE do ChunkStep` (40 R113), at most this many steps, while the command runs. -/
def chunkSteps : Nat → State → Result
  | 0, s => .next s
  | n + 1, s =>
    if s.busy && decide (s.cst = .accumulate) then
      match chunkStep s with
      | .next t => chunkSteps n t
      | .fault f => .fault f
      | .refused r => .refused r
    else .next s

/-- `DecodeValue()` (40 R113): ChunkStart, then ChunkSteps, at most seven. -/
def decodeValue (s : State) : Result := chunkSteps 7 (chunkStart s)

/-! ## EncodeValue -/

/-- The loop of `EncodeValue` (40 R110): passes until `V = 0`, at most this many. -/
def encodePasses : Nat → State → State
  | 0, s => s
  | n + 1, s => if s.est = .passing then encodePasses n (encodePass s) else s

/-- `EncodeValue(u)` (40 R110): a 35-bit value takes at most seven passes. -/
def encodeValue (u : BitVec 35) (s : State) : State := encodePasses Config.maxGroupsEnc (encodeStart u s)

/-! ## Invariants -/

/-- Both spaces are in canonical form. -/
abbrev SpacesWf (s : State) : Prop := Space.wf s.inp = true ∧ Space.wf s.out = true

/-- The result registers as a command leaves them (10 R33; 60 R200, R206): a code 0 to 4; `ERRPOS = 0` with code 0; no result beside a fault;
`CONSUMED` at most 6. -/
abbrev ResultsWf (s : State) : Prop :=
  s.status.toNat ≤ 4 ∧ (s.status = 0#3 → s.errpos = 0) ∧
    (s.status ≠ 0#3 → s.rval = 0#35 ∧ s.consumed = 0#3 ∧ (s.busy = false → s.ocnt = 0)) ∧
    s.consumed.toNat ≤ 6

/-- A running command is one of the nine, with a precision in the domain, and `0 ≤ CURSOR ≤ LEN` (10 R25, R31). -/
abbrev CommandWf (s : State) : Prop :=
  s.busy = true → 1 ≤ s.op.toNat ∧ s.op.toNat ≤ 9 ∧ precisionOk s.prec = true ∧ s.cursor ≤ s.len

/-- The chunk machine of a running decode command (10 R21 to R23): `GCNT` at most 6, `SHIFT = 5 × GCNT`, `ACC` below `2^(5 × GCNT)`, no more groups than
bytes read, at least one group once `DONE`, and in a `DECC` as many groups as bytes read. -/
abbrev ChunkWf (s : State) : Prop :=
  s.busy = true → isDecodeOp s.op = true →
    s.gcnt.toNat ≤ 6 ∧ s.shift.toNat = 5 * s.gcnt.toNat ∧ s.acc.toNat < 2 ^ (5 * s.gcnt.toNat) ∧
      s.gcnt.toNat ≤ s.cursor ∧ (s.cst = .done → 1 ≤ s.gcnt.toNat) ∧ (s.op = 2#4 → s.cursor = s.gcnt.toNat)

/-- A running ENCP or ENCL in the middle of a value has an element at `CURSOR`, whose value it is (43 R161, 44 R180); between two points `PHASE` is LAT. -/
abbrev EncoderWf (s : State) : Prop :=
  s.busy = true → (s.op = 6#4 ∨ s.op = 8#4) →
    (s.est ≠ .idle → s.cursor < s.len) ∧ (s.op = 6#4 → s.est = .idle → s.phase = .lat)

/-- An accumulator of `DECP` is finite and never `−0.0` (42 R144). -/
def accumulatorOk (x : F64) : Bool := f64Finite x && decide (x ≠ 0x8000000000000000#64)

/-- The accumulators of a running `DECP` (42 R144). -/
abbrev AccumulatorsWf (s : State) : Prop :=
  s.busy = true → s.op = 7#4 → accumulatorOk s.latAcc = true ∧ accumulatorOk s.lonAcc = true

/-- The invariant of the machine. -/
abbrev Inv (s : State) : Prop :=
  SpacesWf s ∧ ResultsWf s ∧ CommandWf s ∧ ChunkWf s ∧ EncoderWf s ∧ AccumulatorsWf s

end Sys2Proof.Machine
end

