-- ==== Sys2Proof/Certificates/Slice0/Obligations.lean ====
section
/-! DEFINITION. The statements for the provers. Each docstring names the rule of spec/ it formalises. -/

namespace Sys2Proof.Machine

/-! ## Terms used in several statements -/

/-- The result registers of a command that ended without a fault and has the given scalar result (10 R33). -/
abbrev EndedOk (t : State) (rval : BitVec 35) (consumed ocnt : Nat) : Prop :=
  t.busy = false ∧ t.status = 0#3 ∧ t.errpos = 0 ∧ t.rval = rval ∧ t.consumed.toNat = consumed ∧ t.ocnt = ocnt

/-- The result registers of a command that ended with fault `f` at index `i` (60 R206). -/
abbrev EndedWith (t : State) (f : FaultKind) (i : Nat) : Prop :=
  t.busy = false ∧ t.status = faultCode f ∧ t.errpos = i ∧ t.rval = 0#35 ∧ t.consumed = 0#3 ∧ t.ocnt = 0

/-- The precision a command uses, written out (30 R91). -/
abbrev precisionOf (psel : Bool) (s : State) : F64 := if psel then s.precIn else 0x40F86A0000000000#64

/-- `s` after the fault `f` was raised at index `i`: exactly the writes of 60 R206. -/
abbrev afterFault (s : State) (f : FaultKind) (i : Nat) : State :=
  { s with ocnt := 0, rval := 0#35, consumed := 0#3, errpos := i, status := faultCode f, busy := false }

/-- `x` is `rne` of the real `num / den` (00 R9): at a magnitude of `2^1024 − 2^970` or more an infinity; else finite, at least as near as every finite binary64, and with fraction bit 0
equal to 0 where another value is equally near. Distances are in units of 2^-1074, times `|den|`. -/
def IsRounded (x : F64) (num den : Int) : Prop :=
  ((2 ^ 1024 - 2 ^ 970) * den.natAbs ≤ num.natAbs → x.setWidth 63 = 0x7FF0000000000000#63) ∧
  (num.natAbs < (2 ^ 1024 - 2 ^ 970) * den.natAbs →
    f64Finite x = true ∧
    ∀ y : F64, f64Finite y = true →
      (f64Units x * den - num * (unitsPerOne : Nat)).natAbs ≤ (f64Units y * den - num * (unitsPerOne : Nat)).natAbs ∧
      ((f64Units x * den - num * (unitsPerOne : Nat)).natAbs = (f64Units y * den - num * (unitsPerOne : Nat)).natAbs →
        f64Units y ≠ f64Units x → x.getLsbD 0 = false))

/-- The bytes from `CURSOR` to `LEN`. -/
def bytesFromCursor (s : State) : List Byte :=
  (List.range (s.len - s.cursor)).map fun j => byteAt s (s.cursor + j)

/-- The operands of command `i`, and the input elements it reads, are the same in two states (30 R94). -/
def SameOperands (i : Instr) (s t : State) : Prop :=
  match i with
  | .encu => s.opa = t.opa
  | .zze | .zzd => s.opa.setWidth 33 = t.opa.setWidth 33
  | .scale p => s.opf = t.opf ∧ precisionOf p s = precisionOf p t
  | .encp p => inputPoints s = inputPoints t ∧ precisionOf p s = precisionOf p t
  | .decp p => inputBytes s = inputBytes t ∧ precisionOf p s = precisionOf p t
  | .encl => inputLevels s = inputLevels t
  | .decc | .decl => inputBytes s = inputBytes t
  | .wireTerminator _ | .wireContinuation _ => False

/-- Two runs give the host the same result (10 R20): the result registers and the valid output elements, or the same refusal. -/
def SameResult : Result → Result → Prop
  | .next s, .next t =>
    s.status = t.status ∧ s.errpos = t.errpos ∧ s.rval = t.rval ∧ s.consumed = t.consumed ∧ s.ocnt = t.ocnt ∧
      outElements s = outElements t
  | .refused r, .refused q => r = q
  | .fault f, .fault g => f = g
  | _, _ => False

end Sys2Proof.Machine

open Sys2Proof Sys2Proof.Machine

/-! ## Encoding -/

/-- 30 R80, R89, R90: in each encoding space a word decodes to an instruction exactly when it is that instruction's word, so decoding undoes
encoding for every instruction at every operand, and no instruction has two words. -/
def Obligations.DecodeExactlyEncodedWords : Prop :=
  ∀ (c : Code) (w : BitVec 8) (i : Instr), decode c w = .ok i ↔ (i.code = c ∧ encode i = w)

/-- 30 R89, R90, R80 on words written out from the tables: four command words and four wire bytes. -/
def Obligations.DecodeOfWrittenWords : Prop :=
  decode .command 0b00000001#8 = .ok .encu ∧ decode .command 0b00010101#8 = .ok (.scale true) ∧
    decode .command 0b00000111#8 = .ok (.decp false) ∧ decode .command 0b00001001#8 = .ok .decl ∧
    decode .wire 63#8 = .ok (.wireTerminator 0#5) ∧ decode .wire 94#8 = .ok (.wireTerminator 31#5) ∧
    decode .wire 95#8 = .ok (.wireContinuation 0#5) ∧ decode .wire 126#8 = .ok (.wireContinuation 31#5)

/-- 30 R92, 60 R204: a command word is illegal exactly when its opcode is 0x0 or 0xA to 0xF, or `CMD[7:5]` is not 0, or `PSEL = 1` with an opcode
that takes no precision; these are the 244 words other than the twelve of R90; and such a word, written while the block is idle, raises
IllegalCommand: `CMD` latched, the writes of R204, nothing else (what `OP` holds after it is left open here: log 8). -/
def Obligations.IllegalCommandWords : Prop :=
  (∀ w : BitVec 8,
    (decodeCommand w).toOption = none ↔
      (w.extractLsb' 0 4 = 0#4 ∨ 10 ≤ (w.extractLsb' 0 4).toNat ∨ w.extractLsb' 5 3 ≠ 0#3 ∨
        (w.getLsbD 4 = true ∧ w.extractLsb' 0 4 ≠ 5#4 ∧ w.extractLsb' 0 4 ≠ 6#4 ∧ w.extractLsb' 0 4 ≠ 7#4))) ∧
  (∀ w : BitVec 8, (decodeCommand w).toOption = none ↔
    w ∉ [0x01#8, 0x02#8, 0x03#8, 0x04#8, 0x05#8, 0x15#8, 0x06#8, 0x16#8, 0x07#8, 0x17#8, 0x08#8, 0x09#8]) ∧
  ((List.range 256).filter fun n => (decodeCommand (BitVec.ofNat 8 n)).toOption.isNone).length = 244 ∧
  (∀ (s : State) (w : BitVec 8) (rest : List HostAction),
    s.busy = false → (s.host = .command w :: rest ∨ s.host = .writeCmd w :: rest) → (decodeCommand w).toOption = none →
    ∃ o, step s = .next { s with host := rest, cmd := w, op := o, ocnt := 0, rval := 0#35, consumed := 0#3,
                                 errpos := 0, status := 4#3, busy := false })

/-! ## The step -/

/-- 10 R34, 92 D1: when the idle block's next event is the host's write of a legal command word that it waits for, the step is the execution of the
decoded command, the action taken off the host's list. -/
def Obligations.StepRunsDecodedCommand : Prop :=
  ∀ (s : State) (w : BitVec 8) (rest : List HostAction) (i : Instr),
    s.busy = false → s.host = .command w :: rest → decode .command w = .ok i →
    step s = exec i { s with host := rest }

/-- 40 R113: while a decode command is accumulating and the step's checks 1 and 2 pass, the byte at `CURSOR` that decodes to a symbol is executed; the host
waits, has nothing pending, or lets the block make one micro-step. -/
def Obligations.StepRunsDecodedSymbol : Prop :=
  ∀ (s : State) (i : Instr),
    s.busy = true → isDecodeOp s.op = true → s.cst = .accumulate → s.cursor < s.len → s.gcnt ≠ 6#3 →
    decode .wire (byteAt s s.cursor) = .ok i →
    (s.host = [] → step s = exec i s) ∧
    (∀ rest, s.host = .wait :: rest → step s = exec i s) ∧
    (∀ rest, s.host = .pass :: rest → step s = exec i { s with host := rest })

/-- 10 R34, 70 R231: a write of `CMD` with a legal word, while the block is idle and the precision is in its domain (30 R91), latches the command and
initialises every register R231 lists and the model's position in EncodeValue (log 11), and leaves everything else (10 R37: `STATUS`, `ERRPOS`, `RVAL`, `CONSUMED` until command end). -/
def Obligations.CommandStartInitialises : Prop :=
  ∀ (s : State) (w : BitVec 8) (rest : List HostAction) (i : Instr),
    s.busy = false → s.host = .writeCmd w :: rest → decode .command w = .ok i →
    precisionOk (precisionOf (w.getLsbD 4) s) = true →
    step s = .next { s with
      host := rest, busy := true, cmd := w, op := w.extractLsb' 0 4,
      prec := precisionOf (w.getLsbD 4) s, opaLatch := s.opa, opfLatch := s.opf, len := s.inLen,
      cursor := 0, ocnt := 0, acc := 0#30, shift := 0#5, gcnt := 0#3, cst := .accumulate, phase := .lat,
      prevLat := 0#32, prevLon := 0#32, latAcc := 0x0000000000000000#64, lonAcc := 0x0000000000000000#64, est := .idle }

/-- 10 R37, last paragraph: the idle block does nothing until the host acts. -/
def Obligations.IdleBlockStays : Prop :=
  ∀ s : State, s.busy = false → s.host = [] → step s = .next s

/-- 70 R230: after power-on reset `BUSY` and the result registers are 0 and the block starts nothing by itself; a reset at any time, also during a
command, abandons the command and leaves those values. -/
def Obligations.ResetClearsResults : Prop :=
  EndedOk State.reset 0#35 0 0 ∧ step State.reset = .next State.reset ∧
  ∀ (s : State) (rest : List HostAction), s.host = .reset :: rest →
    ∃ t, step s = .next t ∧ EndedOk t 0#35 0 0 ∧ t.host = rest

/-- 93 U6 and U9, 70 R233 a and b, 10 R32: a host that writes `CMD`, `IN_LEN`, an input element or an operand register while `BUSY = 1` is outside the
protocol, and the model refuses, by name. -/
def Obligations.ProtocolViolationsRefused : Prop :=
  ∀ (s : State) (rest : List HostAction), s.busy = true →
    (∀ w, s.host = .command w :: rest ∨ s.host = .writeCmd w :: rest → step s = .refused .commandWhileBusy) ∧
    (∀ n, s.host = .writeInLen n :: rest → step s = .refused .inputWriteWhileBusy) ∧
    (∀ i e, s.host = .writeIn i e :: rest → step s = .refused .inputWriteWhileBusy) ∧
    (∀ v, s.host = .writeOpa v :: rest → step s = .refused .operandWriteWhileBusy) ∧
    (∀ x, s.host = .writeOpf x :: rest → step s = .refused .operandWriteWhileBusy) ∧
    (∀ p, s.host = .writePrecIn p :: rest → step s = .refused .operandWriteWhileBusy)

/-- 10 R32, R34, R36; 20 R63; 70 R232: while the block is idle a host write of `OPA`, `OPF`, `PREC_IN`, `IN_LEN` or an input element writes that and nothing else; and the scalar
operands are latched at command start: a running command's micro-step is the same whatever the three registers hold. -/
def Obligations.OperandsAreLatched : Prop :=
  (∀ (s : State) (rest : List HostAction), s.busy = false →
    (∀ v, s.host = .writeOpa v :: rest → step s = .next { s with host := rest, opa := v }) ∧
    (∀ x, s.host = .writeOpf x :: rest → step s = .next { s with host := rest, opf := x }) ∧
    (∀ p, s.host = .writePrecIn p :: rest → step s = .next { s with host := rest, precIn := p }) ∧
    (∀ n, s.host = .writeInLen n :: rest → step s = .next { s with host := rest, inLen := n }) ∧
    (∀ i e, s.host = .writeIn i e :: rest →
      ∃ m, step s = .next { s with host := rest, inp := m } ∧ ∀ k, spaceRead m k = if k = i then some e else spaceRead s.inp k)) ∧
  (∀ (s : State) (v : BitVec 35) (x p : F64), s.busy = true →
    match blockStep s with
    | .next t => blockStep { s with opa := v, opf := x, precIn := p } = .next { t with opa := v, opf := x, precIn := p }
    | .fault f => blockStep { s with opa := v, opf := x, precIn := p } = .fault f
    | .refused r => blockStep { s with opa := v, opf := x, precIn := p } = .refused r)

/-- 93 U7, 70 R240: a host read leaves the machine as it is, whether or not a command runs; while the block is idle it returns the register, or the
valid output element. -/
def Obligations.HostReadsAffectNothing : Prop :=
  (∀ (s : State) (r : HostReg) (rest : List HostAction), s.host = .read r :: rest → step s = .next { s with host := rest }) ∧
  (∀ (s : State) (k : Nat), s.busy = false →
    hostStatus k s = s.status ∧ hostErrpos k s = s.errpos ∧ hostRval k s = s.rval ∧ hostConsumed k s = s.consumed ∧
      hostOcnt k s = s.ocnt ∧ ∀ i e, i < s.ocnt → spaceRead s.out i = some e → hostOut k i s = e)

/-! ## The chunk codec -/

/-- 40 R110, R111: `ENCU` completes for every operand: `k = max(1, ceil(bitlen(u)/5))` bytes in OUT, byte `j` being `63 + ((u >> 5j) & 0x1F)` plus 0x20 for
every byte but the last; no result in `RVAL` or `CONSUMED`. -/
def Obligations.EncuEncodesValue : Prop :=
  ∀ s : State, s.busy = false →
    ∃ t, exec .encu s = .next t ∧ EndedOk t 0#35 0 (chunkLength s.opa.toNat) ∧
      ∀ j, j < chunkLength s.opa.toNat → spaceRead t.out j = some (.byte (chunkByteAt s.opa.toNat j))

/-- 40 R110 by micro-steps (log 11), in a running ENCU, ENCP or ENCL: one pass of the loop puts the low five bits of `V`, with 0x20 where any higher bit remains, plus 63, into OUT at
`OCNT`, shifts `V` right by 5, and ends the loop where `V` is 0 then; nothing else changes. And the whole loop, for any value `u`: the `k = max(1, ceil(bitlen(u)/5))` bytes of R111 b
from `OCNT` on, every other element kept, `V = 0`, and nothing else. -/
def Obligations.EncodeValueByPasses : Prop :=
  (∀ s : State, s.busy = true → (s.op = 1#4 ∨ s.op = 6#4 ∨ s.op = 8#4) → s.est = .passing →
    ∃ m, blockStep s = .next { s with
        v := s.v >>> 5, out := m, ocnt := s.ocnt + 1, est := if s.v >>> 5 = 0#35 then .done else .passing } ∧
      ∀ k, spaceRead m k =
        if k = s.ocnt then some (.byte (BitVec.ofNat 8 (63 + s.v.toNat % 32 + if s.v >>> 5 = 0#35 then 0 else 32)))
        else spaceRead s.out k) ∧
  (∀ (u : BitVec 35) (s : State),
    ∃ m, encodeValue u s = { s with v := 0#35, out := m, ocnt := s.ocnt + chunkLength u.toNat, est := .done } ∧
      ∀ k, spaceRead m k =
        if s.ocnt ≤ k ∧ k < s.ocnt + chunkLength u.toNat then some (.byte (chunkByteAt u.toNat (k - s.ocnt)))
        else spaceRead s.out k)

/-- 40 R111: what `ENCU` emits for `u`: `max(1, ceil(bitlen(u)/5))` bytes (a); byte `j` in the closed form (b); every byte in 63 to 126 (c); the last
group non-zero for `u > 0` (d); a single chunk sequence whose value is `u` (e); different operands give different strings, and no output is a
proper prefix of another (f). -/
def Obligations.EncuOutputIsCanonical : Prop :=
  (∀ s t : State, exec .encu s = .next t →
    (outBytes t).length = max 1 ((bitLength s.opa.toNat + 4) / 5) ∧
    (∀ (j : Nat) (h : j < (outBytes t).length),
      ((outBytes t)[j]).toNat =
        63 + (s.opa.toNat >>> (5 * j)) % 32 + if j + 1 < (outBytes t).length then 32 else 0) ∧
    (∀ b ∈ outBytes t, 63 ≤ b.toNat ∧ b.toNat ≤ 126) ∧
    (0 < s.opa.toNat → ∀ b, (outBytes t).getLast? = some b → (b.toNat - 63) % 32 ≠ 0) ∧
    (∀ b ∈ (outBytes t).dropLast, isContinuation b = true) ∧
    (∀ b, (outBytes t).getLast? = some b → isTerminator b = true) ∧
    groupsValue (outBytes t) = s.opa.toNat) ∧
  (∀ s t s' t' : State, exec .encu s = .next t → exec .encu s' = .next t' → outBytes t <+: outBytes t' → s.opa = s'.opa)

/-- 40 R113 (the step that consumes a byte): a wire symbol, executed in a running decode command that is accumulating, with a byte present and fewer than
six groups taken, puts its group at the current bit offset, which adds `G × 2^(5 × GCNT)` to `ACC` without wrap, and advances `SHIFT`, `GCNT` and
`CURSOR`; a terminator sets `DONE`, a continuation byte leaves `CST`; nothing else changes. -/
def Obligations.WireSymbolsAccumulate : Prop :=
  ∀ (s : State) (g : BitVec 5),
    s.busy = true → isDecodeOp s.op = true → s.cst = .accumulate → s.cursor < s.len →
    s.gcnt.toNat < 6 → s.shift.toNat = 5 * s.gcnt.toNat → s.acc.toNat < 2 ^ (5 * s.gcnt.toNat) →
    s.acc.toNat + g.toNat * 2 ^ (5 * s.gcnt.toNat) < 2 ^ (5 * (s.gcnt.toNat + 1)) ∧
    exec (.wireTerminator g) s = .next { s with
      acc := BitVec.ofNat 30 (s.acc.toNat + g.toNat * 2 ^ (5 * s.gcnt.toNat))
      shift := BitVec.ofNat 5 (5 * (s.gcnt.toNat + 1)), gcnt := BitVec.ofNat 3 (s.gcnt.toNat + 1)
      cursor := s.cursor + 1, cst := .done } ∧
    exec (.wireContinuation g) s = .next { s with
      acc := BitVec.ofNat 30 (s.acc.toNat + g.toNat * 2 ^ (5 * s.gcnt.toNat))
      shift := BitVec.ofNat 5 (5 * (s.gcnt.toNat + 1)), gcnt := BitVec.ofNat 3 (s.gcnt.toNat + 1)
      cursor := s.cursor + 1, cst := .accumulate }

/-- 40 R113 checks 1 and 2, and its `requires`: where a wire symbol does not complete. With no byte left it raises TruncatedChunk, as a seventh group
OverflowChunk; outside a running decode command that is accumulating the model refuses. -/
def Obligations.WireSymbolsTrap : Prop :=
  ∀ (s : State) (g : BitVec 5) (i : Instr), (i = .wireTerminator g ∨ i = .wireContinuation g) →
    ((s.busy = true ∧ isDecodeOp s.op = true ∧ s.cst = .accumulate) →
      (s.len ≤ s.cursor → exec i s = .next (afterFault s .truncatedChunk s.cursor)) ∧
      (s.cursor < s.len → s.gcnt = 6#3 → exec i s = .next (afterFault s .overflowChunk s.cursor))) ∧
    (¬ (s.busy = true ∧ isDecodeOp s.op = true ∧ s.cst = .accumulate) → exec i s = .refused .chunkStepNotEnabled)

/-- 60 R201, R202, R203, R206; 40 R113: the three faults of a `ChunkStep`, in their fixed order, each with exactly the writes of R206 and no other:
exhaustion (whatever `GCNT` is), the seventh byte (whatever it is), a byte outside 63 to 126. -/
def Obligations.ChunkStepFaults : Prop :=
  ∀ s : State, s.busy = true → isDecodeOp s.op = true → s.cst = .accumulate →
    (s.len ≤ s.cursor → chunkStep s = .next { s with
      ocnt := 0, rval := 0#35, consumed := 0#3, errpos := s.cursor, status := 1#3, busy := false }) ∧
    (s.cursor < s.len → s.gcnt = 6#3 → chunkStep s = .next { s with
      ocnt := 0, rval := 0#35, consumed := 0#3, errpos := s.cursor, status := 2#3, busy := false }) ∧
    (s.cursor < s.len → s.gcnt ≠ 6#3 → ((byteAt s s.cursor).toNat < 63 ∨ 126 < (byteAt s s.cursor).toNat) →
      chunkStep s = .next { s with
        ocnt := 0, rval := 0#35, consumed := 0#3, errpos := s.cursor, status := 3#3, busy := false })

/-- 40 R114: `DecodeValue` in closed form, over the bytes from `CURSOR` to `LEN`, `t` of them leading continuation bytes: the fault and its `ERRPOS`, or the
value, with the cursor after its terminator. On success only `ACC`, `SHIFT`, `GCNT`, `CST` and `CURSOR` change. -/
def Obligations.DecodeValueClosedForm : Prop :=
  ∀ s : State, s.busy = true → isDecodeOp s.op = true →
    match decodeOne (bytesFromCursor s) with
    | .error (f, o) => ∃ t, decodeValue s = .next t ∧ EndedWith t f (s.cursor + o) ∧ t.inp = s.inp ∧ t.out = s.out
    | .ok (u, k) =>
      1 ≤ k ∧ k ≤ 6 ∧ u < 2 ^ 30 ∧
      decodeValue s = .next { s with
        acc := BitVec.ofNat 30 u, shift := BitVec.ofNat 5 (5 * k), gcnt := BitVec.ofNat 3 k, cst := .done,
        cursor := s.cursor + k }

/-- 40 R116, R114: `DECC` completes for every input: the value of the first chunk sequence in `RVAL`, its length in `CONSUMED`; or the fault R114 names, with no
result. Bytes after the terminator do not matter. -/
def Obligations.DeccDecodesOneValue : Prop :=
  ∀ s : State, s.busy = false →
    ∃ t, exec .decc s = .next t ∧
      match decodeOne (inputBytes s) with
      | .ok (u, k) => 1 ≤ k ∧ k ≤ 6 ∧ u < 2 ^ 30 ∧ EndedOk t (BitVec.ofNat 35 u) k 0
      | .error (f, i) => EndedWith t f i

/-- 30 R82, R83, R85: `DECC` accepts every chunk sequence of at most six groups, whatever its groups (also one padded with zero groups, which has the same value): at most five
continuation bytes and a terminator give `Σ G_j × 2^(5j)`. -/
def Obligations.EveryChunkSequenceAccepted : Prop :=
  ∀ (s : State) (cs rest : List Byte) (b : Byte), s.busy = false → cs.length ≤ 5 → (∀ c ∈ cs, isContinuation c = true) →
    isTerminator b = true → inputBytes s = cs ++ b :: rest →
    (∃ t, exec .decc s = .next t ∧ EndedOk t t.rval (cs.length + 1) 0 ∧ t.rval.toNat = groupsValue (cs ++ [b])) ∧
    (b = 63#8 → groupsValue (cs ++ [b]) = groupsValue cs)

/-- 40 R115: the round trip of the chunk codec. For `u < 2^30`, `DECC` on the bytes `ENCU` emitted for `u`, followed by any bytes, returns `u` and consumes
exactly those bytes; for larger `u` there are 7 bytes and `DECC` raises OverflowChunk at index 6. -/
def Obligations.ChunkCodecRoundTrip : Prop :=
  ∀ (s t s' : State) (rest : List Byte), exec .encu s = .next t → s'.busy = false → inputBytes s' = outBytes t ++ rest →
    ∃ t', exec .decc s' = .next t' ∧
      if s.opa.toNat < 2 ^ 30 then EndedOk t' s.opa t.ocnt 0
      else t.ocnt = 7 ∧ EndedWith t' .overflowChunk 6

/-! ## The signed codec -/

/-- 41 R130: `ZZE` completes for every operand: with `v` the 33 low bits of `OPA` read as two's complement, `RVAL` is `2v` for `v ≥ 0` and `−2v − 1` for `v < 0`, so its
bit 0 is 1 exactly when `v < 0`; in the fixed-width form, its low 33 bits are `(v << 1) XOR m`, `m` being 33 copies of bit 32. -/
def Obligations.ZzeZigzags : Prop :=
  ∀ s : State, s.busy = false →
    ∃ t, exec .zze s = .next t ∧ EndedOk t t.rval 0 0 ∧
      (t.rval.toNat : Int) =
        (if (s.opa.setWidth 33).toInt < 0 then -2 * (s.opa.setWidth 33).toInt - 1 else 2 * (s.opa.setWidth 33).toInt) ∧
      (t.rval.getLsbD 0 = true ↔ (s.opa.setWidth 33).toInt < 0) ∧
      t.rval.setWidth 33 =
        ((s.opa.setWidth 33) <<< 1) ^^^ (if s.opa.getLsbD 32 then BitVec.allOnes 33 else 0#33)

/-- 41 R131: `ZZD` completes for every operand: with `u` the 33 low bits of `OPA`, `RVAL`, as a signed 35-bit value, is `u/2` for even `u` and
`−(u/2) − 1` for odd `u`; for `u < 2^30`, what the chunk decoder delivers, it lies in `−2^29 .. 2^29 − 1`. -/
def Obligations.ZzdUnzigzags : Prop :=
  ∀ s : State, s.busy = false →
    ∃ t, exec .zzd s = .next t ∧ EndedOk t t.rval 0 0 ∧
      t.rval.toInt =
        (if (s.opa.setWidth 33).toNat % 2 = 1 then -(((s.opa.setWidth 33).toNat / 2 : Nat) : Int) - 1
        else (((s.opa.setWidth 33).toNat / 2 : Nat) : Int)) ∧
      ((s.opa.setWidth 33).toNat < 2 ^ 30 → -2 ^ 29 ≤ t.rval.toInt ∧ t.rval.toInt ≤ 2 ^ 29 - 1)

/-- 41 R132: `ZigZag` and `UnZigZag` are inverse bijections between the integers and the non-negative integers; and `ZZE` and `ZZD` are inverse bijections
between i33 and u33. -/
def Obligations.ZigzagIsBijective : Prop :=
  (∀ v : Int, unZigZag (zigZag v) = v) ∧ (∀ u : Nat, zigZag (unZigZag u) = u) ∧
  (∀ s t s' t' : State, exec .zze s = .next t → s'.opa = t.rval → exec .zzd s' = .next t' →
    t'.rval.setWidth 33 = s.opa.setWidth 33) ∧
  (∀ s t s' t' : State, exec .zzd s = .next t → s'.opa = t.rval → exec .zze s' = .next t' →
    t'.rval.setWidth 33 = s.opa.setWidth 33)

/-! ## Binary64 and the scaler -/

/-- 00 R9, `rne`: the pattern `roundNearest` gives for a magnitude `num / den`, where it is below infinity, is at least as near to it as every non-negative
finite binary64; where another value is equally near, the fraction's bit 0 is 0. Distances are in units of 2^-1074, times `den`. -/
def Obligations.RoundsToNearestEven : Prop :=
  ∀ num den : Nat, 0 < den → roundNearest num den < infinityBits →
    ∀ y : F64, f64Finite y = true →
      let r := f64Magnitude (f64Of false (roundNearest num den))
      ((r * den : Nat) - (num * unitsPerOne : Nat) : Int).natAbs ≤ ((f64Magnitude y * den : Nat) - (num * unitsPerOne : Nat) : Int).natAbs ∧
      (((r * den : Nat) - (num * unitsPerOne : Nat) : Int).natAbs = ((f64Magnitude y * den : Nat) - (num * unitsPerOne : Nat) : Int).natAbs →
        f64Magnitude y ≠ r → roundNearest num den % 2 = 0)

/-- 00 R9, `rne`: the result is infinity exactly for a magnitude of at least `2^1024 − 2^970`. -/
def Obligations.RoundingOverflowsAtTheLimit : Prop :=
  ∀ num den : Nat, 0 < den → (roundNearest num den = infinityBits ↔ (2 ^ 1024 - 2 ^ 970) * den ≤ num)

/-- 00 R9: `i2f` is exact for `|n| ≤ 2^53`; and a sum, product or quotient whose exact value is a finite binary64 `z` other than zero is `z`. -/
def Obligations.ExactResultsAreExact : Prop :=
  (∀ n : Int, n.natAbs ≤ 2 ^ 53 → f64Finite (i2f n) = true ∧ f64Units (i2f n) = n * (unitsPerOne : Nat)) ∧
  (∀ a b z : F64, f64Finite a = true → f64Finite b = true → f64Finite z = true → f64Units z ≠ 0 →
    (f64Units a + f64Units b = f64Units z → fadd a b = z) ∧
    (f64Units a * f64Units b = f64Units z * (unitsPerOne : Nat) → fmul a b = z) ∧
    (f64Units b ≠ 0 → f64Units a * (unitsPerOne : Nat) = f64Units z * f64Units b → fdiv a b = z))

/-- 00 R9: `fmul(a, b) = rne(real(a) × real(b))` for finite operands: below `2^1024 − 2^970` a finite binary64 nearest the exact product, a tie going to the even fraction, else infinity;
with the exclusive-or of the signs, also where the result is a zero. -/
def Obligations.FmulRoundsToNearestEven : Prop :=
  ∀ a b : F64, f64Finite a = true → f64Finite b = true →
    f64Negative (fmul a b) = (f64Negative a != f64Negative b) ∧
    IsRounded (fmul a b) (f64Units a * f64Units b) ((unitsPerOne : Nat) * (unitsPerOne : Nat))

/-- 00 R9: `fdiv(a, b) = rne(real(a) / real(b))` for finite operands with `real(b) ≠ 0`, as for `fmul`. -/
def Obligations.FdivRoundsToNearestEven : Prop :=
  ∀ a b : F64, f64Finite a = true → f64Finite b = true → f64Units b ≠ 0 →
    f64Negative (fdiv a b) = (f64Negative a != f64Negative b) ∧ IsRounded (fdiv a b) (f64Units a) (f64Units b)

/-- 00 R9: `fadd(a, b) = rne(real(a) + real(b))` for finite operands, as for `fmul`; the sign is that of an exact sum that is not zero; an exact zero sum of operands of opposite sign is `+0.0`,
and so is `+0.0 + (+0.0)`. (The sum of two negative zeros is left open here: log 13.) -/
def Obligations.FaddRoundsToNearestEven : Prop :=
  ∀ a b : F64, f64Finite a = true → f64Finite b = true →
    IsRounded (fadd a b) (f64Units a + f64Units b) (unitsPerOne : Nat) ∧
    (f64Units a + f64Units b ≠ 0 → f64Negative (fadd a b) = decide (f64Units a + f64Units b < 0)) ∧
    (f64Units a + f64Units b = 0 → f64Negative a ≠ f64Negative b → fadd a b = 0x0000000000000000#64) ∧
    fadd 0x0000000000000000#64 0x0000000000000000#64 = 0x0000000000000000#64

/-- 00 R9: `i2f(n) = rne(n)` for every integer, as for `fmul`; the integer 0 gives `+0.0`. -/
def Obligations.I2fRoundsToNearestEven : Prop :=
  ∀ n : Int, IsRounded (i2f n) n 1 ∧ (n ≠ 0 → f64Negative (i2f n) = decide (n < 0)) ∧ (n = 0 → i2f n = 0x0000000000000000#64)

/-- 42 R140: `RHAZ(x)` of a finite `x` is `floor(|r| + 1/2)` with the sign of `r`, in exact arithmetic (units of 2^-1074): a half goes away from zero, any other value
to the nearest integer, both zeros to 0; a value that is an integer goes to itself, and every value with `|r| ≥ 2^52` is one. -/
def Obligations.RhazRoundsHalfAwayFromZero : Prop :=
  ∀ x : F64, f64Finite x = true →
    (0 ≤ f64Units x →
      rhaz x = (2 * f64Units x + (unitsPerOne : Nat)) / (2 * (unitsPerOne : Nat))) ∧
    (f64Units x < 0 →
      rhaz x = -((2 * -f64Units x + (unitsPerOne : Nat)) / (2 * (unitsPerOne : Nat)))) ∧
    (∀ n : Int, f64Units x = n * (unitsPerOne : Nat) → rhaz x = n) ∧
    (2 ^ 52 * unitsPerOne ≤ (f64Units x).natAbs → f64Units x = rhaz x * (unitsPerOne : Nat))

/-- 42 R141, R142; 30 R91: `SCALE` completes on its domain: the i32 `RHAZ(fmul(OPF, PREC))` in `RVAL`, sign-extended, `PREC` being 1e5 or, with `PSEL`, `PREC_IN`. -/
def Obligations.ScaleScales : Prop :=
  ∀ (psel : Bool) (s : State), s.busy = false →
    precisionOk (precisionOf psel s) = true → f64Finite s.opf = true → f64Finite (fmul s.opf (precisionOf psel s)) = true →
    -2 ^ 31 ≤ rhaz (fmul s.opf (precisionOf psel s)) → rhaz (fmul s.opf (precisionOf psel s)) ≤ 2 ^ 31 - 1 →
    ∃ t, exec (.scale psel) s = .next t ∧ EndedOk t t.rval 0 0 ∧ t.rval.toInt = rhaz (fmul s.opf (precisionOf psel s))

/-- 42 R142; 93 U1 to U4: outside its domain `SCALE` is refused, by the name of the condition that fails (the precision first, log 5). -/
def Obligations.ScaleDomainRefusals : Prop :=
  ∀ (psel : Bool) (s : State), s.busy = false →
    (precisionOk (precisionOf psel s) = false → exec (.scale psel) s = .refused .precisionNotPositive) ∧
    (precisionOk (precisionOf psel s) = true →
      (f64Finite s.opf = false → exec (.scale psel) s = .refused .coordinateNotFinite) ∧
      (f64Finite s.opf = true →
        (f64Finite (fmul s.opf (precisionOf psel s)) = false → exec (.scale psel) s = .refused .productNotFinite) ∧
        (f64Finite (fmul s.opf (precisionOf psel s)) = true →
          (rhaz (fmul s.opf (precisionOf psel s)) < -2 ^ 31 ∨ 2 ^ 31 - 1 < rhaz (fmul s.opf (precisionOf psel s))) →
          exec (.scale psel) s = .refused .scaledOutOfRange)))

/-- 42 R143: `Delta` is computed without wrap: an i33 for every scaled integer and every previous one. -/
def Obligations.DeltaNeverWraps : Prop :=
  ∀ (n : Int) (prev : BitVec 32), fitsI32 n = true →
    delta n prev = n - prev.toInt ∧ -(2 ^ 32 - 1) ≤ delta n prev ∧ delta n prev ≤ 2 ^ 32 - 1 ∧
      (BitVec.ofInt 33 (delta n prev)).toInt = delta n prev

/-- 42 R144, corner case: a zero delta leaves an accumulator that is finite and not `−0.0` unchanged; and an accumulation from such an accumulator never gives
`−0.0` or a value that is not finite. -/
def Obligations.ZeroDeltaLeavesAccumulator : Prop :=
  (∀ acc p : F64, accumulatorOk acc = true → precisionOk p = true → accumulate acc 0 p = .ok acc) ∧
  (∀ (acc p r : F64) (d : Int), accumulatorOk acc = true → accumulate acc d p = .ok r → accumulatorOk r = true)

/-! ## The streams -/

/-- 43 R160 to R162; 30 R86, R91: `ENCP` on every list of points in its domain: the concatenation, point by point, of the chunk sequences of the zigzag of the latitude
and longitude deltas between scaled pairs, from (0, 0) on. Outside the domain it is refused by the name of the first condition that fails: the precision, also for an empty list
(93 U2; log 5), then point by point latitude before longitude (93 U1, U3, U4). -/
def Obligations.EncpEncodesPoints : Prop :=
  ∀ (psel : Bool) (s : State), s.busy = false →
    (precisionOk (precisionOf psel s) = false → exec (.encp psel) s = .refused .precisionNotPositive) ∧
    (precisionOk (precisionOf psel s) = true →
      match scaledPairs (precisionOf psel s) (inputPoints s) with
      | .ok ps => ∃ t, exec (.encp psel) s = .next t ∧ EndedOk t 0#35 0 (coordinateString ps).length ∧
          outBytes t = coordinateString ps
      | .error r => exec (.encp psel) s = .refused r)

/-- 43 R163 to R166; 42 R144: `DECP` on every byte string: the points whose components are the running binary64 sums, or the first fault with no point at all; an
accumulation outside the domain (93 U5) is refused, and so is a precision outside its domain, also for an empty string (93 U2; log 5). -/
def Obligations.DecpDecodesPoints : Prop :=
  ∀ (psel : Bool) (s : State), s.busy = false →
    (precisionOk (precisionOf psel s) = false → exec (.decp psel) s = .refused .precisionNotPositive) ∧
    (precisionOk (precisionOf psel s) = true →
      match decodePoints (precisionOf psel s) s.inLen 0 0#64 0#64 (inputBytes s) with
      | .ok ps => ∃ t, exec (.decp psel) s = .next t ∧ EndedOk t 0#35 0 ps.length ∧ outPoints t = ps
      | .error (.fault f i) => ∃ t, exec (.decp psel) s = .next t ∧ EndedWith t f i
      | .error (.outside r) => exec (.decp psel) s = .refused r)

/-- 44 R180; 30 R87: `ENCL` completes for every list of levels: the concatenation of their chunk sequences, no delta, no zigzag. -/
def Obligations.EnclEncodesLevels : Prop :=
  ∀ s : State, s.busy = false →
    ∃ t, exec .encl s = .next t ∧ EndedOk t 0#35 0 (levelsString (inputLevels s)).length ∧
      outBytes t = levelsString (inputLevels s)

/-- 44 R181: `DECL` completes for every byte string: the values of its chunk sequences, each one level below 2^30, or the first fault with no level at all. -/
def Obligations.DeclDecodesLevels : Prop :=
  ∀ s : State, s.busy = false →
    ∃ t, exec .decl s = .next t ∧
      match decodeAll (inputBytes s) with
      | .ok us => (∀ u ∈ us, u < 2 ^ 30) ∧ EndedOk t 0#35 0 us.length ∧ outLevels t = us.map (BitVec.ofNat 32)
      | .error (f, i) => EndedWith t f i

/-- 44 R182: `ENCL` accepts every level, `DECL` delivers only levels below 2^30; `DECL` of what `ENCL` emitted returns the levels exactly when every one is below 2^30;
otherwise it raises OverflowChunk. -/
def Obligations.LevelsRoundTrip : Prop :=
  (∀ s : State, s.busy = false → ∃ t, exec .encl s = .next t ∧ t.status = 0#3) ∧
  (∀ s t : State, exec .decl s = .next t → ∀ l ∈ outLevels t, l.toNat < 2 ^ 30) ∧
  (∀ s t s' : State, exec .encl s = .next t → s'.busy = false → inputBytes s' = outBytes t →
    ∃ t', exec .decl s' = .next t' ∧
      (t'.status = 0#3 ∧ outLevels t' = inputLevels s ↔ ∀ l ∈ inputLevels s, l.toNat < 2 ^ 30) ∧
      ((∃ l ∈ inputLevels s, 2 ^ 30 ≤ l.toNat) → t'.status = faultCode .overflowChunk ∧ t'.ocnt = 0))

/-- 43 R168: the integer round trip. Where every delta of the encoded points lies in `−2^29 .. 2^29 − 1`, the values in `ENCP`'s output are exactly the zigzags of the
deltas, in order, and `DECP` with the same precision succeeds with as many points; where one does not, it raises OverflowChunk. Either is up to an accumulation outside
the domain (93 U5), which is refused. -/
def Obligations.CoordinatesRoundTrip : Prop :=
  ∀ (psel psel' : Bool) (s t s' : State) (ps : List (Int × Int)),
    exec (.encp psel) s = .next t → scaledPairs (precisionOf psel s) (inputPoints s) = .ok ps →
    s'.busy = false → inputBytes s' = outBytes t → precisionOf psel' s' = precisionOf psel s →
    ((∀ d ∈ deltasFrom (0, 0) ps, -2 ^ 29 ≤ d ∧ d ≤ 2 ^ 29 - 1) →
      (∃ us, decodeAll (outBytes t) = .ok us ∧ us.map unZigZag = deltasFrom (0, 0) ps) ∧
      (exec (.decp psel') s' = .refused .accumulatorNotFinite ∨
        ∃ t', exec (.decp psel') s' = .next t' ∧ t'.status = 0#3 ∧ t'.ocnt = s.inLen)) ∧
    ((∃ d ∈ deltasFrom (0, 0) ps, d < -2 ^ 29 ∨ 2 ^ 29 - 1 < d) →
      (exec (.decp psel') s' = .refused .accumulatorNotFinite ∨
        ∃ t', exec (.decp psel') s' = .next t' ∧ t'.status = faultCode .overflowChunk ∧ t'.ocnt = 0))

/-- 60 R217: empty input is not an error for the stream commands, and is one for `DECC`. -/
def Obligations.EmptyInputSucceeds : Prop :=
  ∀ (psel : Bool) (s : State), s.busy = false → s.inLen = 0 → precisionOk (precisionOf psel s) = true →
    (∃ t, exec (.encp psel) s = .next t ∧ EndedOk t 0#35 0 0) ∧
    (∃ t, exec (.decp psel) s = .next t ∧ EndedOk t 0#35 0 0) ∧
    (∃ t, exec .encl s = .next t ∧ EndedOk t 0#35 0 0) ∧
    (∃ t, exec .decl s = .next t ∧ EndedOk t 0#35 0 0) ∧
    (∃ t, exec .decc s = .next t ∧ EndedWith t .truncatedChunk 0)

/-- 43 R166: a coordinate string with an odd number of chunk sequences, so one that ends after a latitude value, raises TruncatedChunk with `ERRPOS = LEN`, whole (up to
an accumulation outside the domain, 93 U5); the one-byte string `?` does. -/
def Obligations.LoneLatitudeIsTruncated : Prop :=
  (∀ (psel : Bool) (s : State) (us : List Nat), s.busy = false → precisionOk (precisionOf psel s) = true →
    decodeAll (inputBytes s) = .ok us → us.length % 2 = 1 →
    exec (.decp psel) s = .refused .accumulatorNotFinite ∨
      ∃ t, exec (.decp psel) s = .next t ∧ EndedWith t .truncatedChunk s.inLen) ∧
  (∀ s : State, s.busy = false → inputBytes s = [63#8] →
    ∃ t, exec (.decp false) s = .next t ∧ EndedWith t .truncatedChunk 1)

/-! ## Whole-machine rules -/

/-- 60 R216: ENCU, ENCL, ZZE and ZZD end with `STATUS = 0` for every input, SCALE and ENCP for every input in their domain (42 R141, R142; 43 R162), and none of the six
ever ends with another `STATUS`. -/
def Obligations.EncodingNeverFaults : Prop :=
  (∀ (s : State) (i : Instr), s.busy = false → (i = .encu ∨ i = .encl ∨ i = .zze ∨ i = .zzd) →
    ∃ t, exec i s = .next t ∧ t.status = 0#3) ∧
  (∀ (psel : Bool) (s : State), s.busy = false → precisionOk (precisionOf psel s) = true →
    (∀ n, scaleInt s.opf (precisionOf psel s) = .ok n → ∃ t, exec (.scale psel) s = .next t ∧ t.status = 0#3) ∧
    (∀ ps, scaledPairs (precisionOf psel s) (inputPoints s) = .ok ps → ∃ t, exec (.encp psel) s = .next t ∧ t.status = 0#3)) ∧
  (∀ (psel : Bool) (s t : State) (i : Instr),
    (i = .encu ∨ i = .encp psel ∨ i = .encl ∨ i = .zze ∨ i = .zzd ∨ i = .scale psel) →
    exec i s = .next t → t.status = 0#3)

/-- 60 R206, R200; 43 R165: a command that ends with `STATUS` not 0 gives the host nothing: one of the three decode faults, `OCNT`, `RVAL` and `CONSUMED` 0, no output
element; and only DECC, DECP and DECL do. -/
def Obligations.FailureIsAtomic : Prop :=
  ∀ (i : Instr) (s t : State), i.code = .command → exec i s = .next t → t.status ≠ 0#3 →
    (i = .decc ∨ i = .decl ∨ ∃ psel, i = .decp psel) ∧
    (t.status = 1#3 ∨ t.status = 2#3 ∨ t.status = 3#3) ∧ t.errpos ≤ s.inLen ∧
    t.rval = 0#35 ∧ t.consumed = 0#3 ∧ t.ocnt = 0 ∧ outElements t = []

/-- 70 R238: every command ends: where a command's meaning answers a next state, `BUSY` is 0 in it, after at most `stepBound` micro-steps: `2 LEN + 1` of a decode
command, seven passes of each value (and its beginning and end) of an encode command. -/
def Obligations.EveryCommandEnds : Prop :=
  ∀ (i : Instr) (s t : State), i.code = .command → exec i s = .next t → t.busy = false

/-- 92 D1, 10 R34: the command as one transaction and the command by micro-steps are the same: where a command's meaning answers a next state, writing `CMD` and letting the
block run its micro-steps (each wire byte fetched and executed) reaches exactly that state, within `stepBound` of them (R238), and stays there. -/
def Obligations.MicroStepsReachTransaction : Prop :=
  ∀ (i : Instr) (s t : State), i.code = .command → s.host = [] → exec i s = .next t →
    ∀ n, stepBound i s.inLen + 1 ≤ n →
      Host.Core.run Sys2Proof.core n ({ s with host := [.writeCmd (encode i)] } : State) = .next t

/-- 20 R53: the block never reads IN at an index of `LEN` or above: no step of the machine, from any state, raises the fault that guards such a read. -/
def Obligations.NoReadOutsideInput : Prop :=
  ∀ (s : State) (f : Fault), step s ≠ .fault f

/-- 10 R20, 30 R94: the result of a command is a function of the command, its operands and the input elements it reads: no register left by an earlier command or by
reset, and no operand it does not take, enters it. -/
def Obligations.NoStateSurvivesACommand : Prop :=
  ∀ (i : Instr) (s s' : State), s.busy = false → s'.busy = false → SameOperands i s s' → SameResult (exec i s) (exec i s')

/-- 20 R50, R63; 10 R36: the frame of all nine commands: the operand registers, the input space, and what is the host's are unchanged. -/
def Obligations.CommandsKeepInputs : Prop :=
  ∀ (i : Instr) (s t : State), i.code = .command → exec i s = .next t →
    t.opa = s.opa ∧ t.opf = s.opf ∧ t.precIn = s.precIn ∧ t.inLen = s.inLen ∧ t.inp = s.inp ∧ t.host = s.host ∧ t.epoch = s.epoch

/-- 20 R52, R54; 10 R21, R27 to R29: the frame of all nine commands over OUT and the datapath. A command without output leaves every element of OUT, an encode command every element
from `OCNT` on, a decode command every element from `OCNT` on or, after a fault, from the largest count it could have emitted on; and a register only some commands write is left
at its command-start value by the others (`V`, which command start does not load, at what it was; so also where a list is empty). `PHASE` after an `ENCP` is LAT by log 7, and `est`, `sLat`,
`sLon` are the model's own (log 11). -/
def Obligations.CommandsFrameOutput : Prop :=
  ∀ (i : Instr) (s t : State), i.code = .command → exec i s = .next t →
    (∀ k,
      (match i with
        | .encu | .encl | .encp _ => t.ocnt ≤ k
        | .decl => (if t.status = 0#3 then t.ocnt else s.inLen) ≤ k
        | .decp _ => (if t.status = 0#3 then t.ocnt else s.inLen / 2) ≤ k
        | _ => True) →
      spaceRead t.out k = spaceRead s.out k) ∧
    (match i with
      | .encu => t.v = 0#35
      | .encl | .encp _ => t.v = if s.inLen = 0 then s.v else 0#35
      | _ => t.v = s.v) ∧
    ((∀ p, i ≠ .decp p) → t.phase = .lat) ∧
    ((∀ p, i ≠ .encp p) → t.prevLat = 0#32 ∧ t.prevLon = 0#32 ∧ t.sLat = s.sLat ∧ t.sLon = s.sLon) ∧
    (t.est = if i = .encu then .done else .idle) ∧
    ((∀ p, i ≠ .decp p) → t.latAcc = 0#64 ∧ t.lonAcc = 0#64) ∧
    (isDecodeOp (cmdOpc (encode i)) = false → t.acc = 0#30 ∧ t.shift = 0#5 ∧ t.gcnt = 0#3 ∧ t.cst = .accumulate) ∧
    t.cmd = encode i ∧ t.op = (encode i).extractLsb' 0 4 ∧ t.len = s.inLen ∧ t.cursor ≤ t.len ∧
    t.opaLatch = s.opa ∧ t.opfLatch = s.opf ∧ t.prec = precisionOf i.psel s

/-- 10 R25, R26, R31; 20 R50, R54, R63: what no micro-step of a running command does, whatever the state. `CURSOR` stays or advances by exactly 1; `OP`, `PREC`, `LEN` and the
latched operands are constant; IN is not written; no element of OUT at an index below `OCNT` is rewritten, and `OCNT` never falls but to 0 at a fault. -/
def Obligations.MicroStepsOnlyAdvance : Prop :=
  ∀ s t : State, blockStep s = .next t →
    (t.cursor = s.cursor ∨ t.cursor = s.cursor + 1) ∧
    t.op = s.op ∧ t.prec = s.prec ∧ t.len = s.len ∧ t.opaLatch = s.opaLatch ∧ t.opfLatch = s.opfLatch ∧ t.cmd = s.cmd ∧
    t.inp = s.inp ∧ (∀ k, k < s.ocnt → spaceRead t.out k = spaceRead s.out k) ∧
    (s.ocnt ≤ t.ocnt ∨ (t.ocnt = 0 ∧ t.busy = false ∧ t.status ≠ 0#3))

/-- The invariant holds after power-on reset. -/
def Obligations.ResetMeetsInvariant : Prop := Inv State.reset

/-- 10 R21 to R25, R28, R31, R33; 42 R144; 60 R200: every step, from every state that meets it, keeps the invariant: both spaces canonical; `STATUS` a code 0 to 4 with no result beside a fault and `CONSUMED` at
most 6; a running command one of the nine with its precision in the domain and `CURSOR ≤ LEN`; `GCNT ≤ 6`, `SHIFT = 5 × GCNT` and `ACC` below `2^(5 GCNT)`; an encode command in the middle of a value with an element at `CURSOR`, and `PHASE` LAT between two points; the accumulators of `DECP` finite and
never `−0.0`. -/
def Obligations.StepKeepsInvariant : Prop :=
  ∀ s t : State, Inv s → step s = .next t → Inv t

/-! ## The host's side -/

/-- 30 R95, R91; 70 R232: a well-formed assembler line, issued to the idle block, executes its command on exactly its operands: the scalar in `OPA` or `OPF`, the list in IN,
and the operand of `.P`, or else 1e5, as the precision. -/
def Obligations.LinesIssueCommands : Prop :=
  ∀ s : State, s.busy = false →
    (∀ u, (Line.encu u).wellFormed = true →
      ∃ t, performAll (lineActions (.encu u)) s = exec .encu t ∧ t.busy = false ∧ t.opa.toNat = u) ∧
    (∀ v, (Line.zze v).wellFormed = true →
      ∃ t, performAll (lineActions (.zze v)) s = exec .zze t ∧ t.busy = false ∧ (t.opa.setWidth 33).toInt = v) ∧
    (∀ u, (Line.zzd u).wellFormed = true →
      ∃ t, performAll (lineActions (.zzd u)) s = exec .zzd t ∧ t.busy = false ∧ (t.opa.setWidth 33).toNat = u) ∧
    (∀ p x, ∃ t, performAll (lineActions (.scale p x)) s = exec (.scale p.isSome) t ∧ t.busy = false ∧ t.opf = x ∧
      precisionOf p.isSome t = p.getD 0x40F86A0000000000#64) ∧
    (∀ p ps, ∃ t, performAll (lineActions (.encp p ps)) s = exec (.encp p.isSome) t ∧ t.busy = false ∧ inputPoints t = ps ∧
      precisionOf p.isSome t = p.getD 0x40F86A0000000000#64) ∧
    (∀ p bs, ∃ t, performAll (lineActions (.decp p bs)) s = exec (.decp p.isSome) t ∧ t.busy = false ∧ inputBytes t = bs ∧
      precisionOf p.isSome t = p.getD 0x40F86A0000000000#64) ∧
    (∀ ls, (Line.encl ls).wellFormed = true →
      ∃ t, performAll (lineActions (.encl ls)) s = exec .encl t ∧ t.busy = false ∧ (inputLevels t).map BitVec.toNat = ls) ∧
    (∀ bs, ∃ t, performAll (lineActions (.decc bs)) s = exec .decc t ∧ t.busy = false ∧ inputBytes t = bs) ∧
    (∀ bs, ∃ t, performAll (lineActions (.decl bs)) s = exec .decl t ∧ t.busy = false ∧ inputBytes t = bs)

/-- 45 R191, R192; 43 R167: `FACADE.DEC`, where the `DECP` it issues is not refused, stores as coordinates the points that `DECP` alone delivers, or absent where it ends with `STATUS` not 0; as levels,
where a levels string was given, what `DECL` alone delivers, or absent; the two strings as given; and the precision or 1e5. So failure of one stream does not imply failure of the other. -/
def Obligations.FacadeStreamsAreIndependent : Prop :=
  (∀ (p : Option F64) (coords : List Byte) (levels : Option (List Byte)) (s u : State), s.busy = false →
    performAll (lineActions (.decp p coords)) s = .next u →
    ∃ sn w, facadeDec p coords levels s = .next (sn, w) ∧
      sn.coordinates = (if u.status = 0#3 then some (outPoints u) else none) ∧
      sn.encodedPolyline = coords ∧ sn.encodedLevels = levels ∧ sn.precision = p.getD 0x40F86A0000000000#64 ∧
      (levels = none → sn.levels = none) ∧
      ∀ ls, levels = some ls →
        ∃ x, performAll (lineActions (.decl ls)) s = .next x ∧ sn.levels = if x.status = 0#3 then some (outLevels x) else none) ∧
  (∀ (p : Option F64) (coords levels : List Byte) (s w : State) (sn : Snapshot), s.busy = false →
    facadeDec p coords (some levels) s = .next (sn, w) →
    ∃ sn' t, facadeDec p coords none s = .next (sn', t) ∧ sn'.coordinates = sn.coordinates)

/-- 45 R190: `FACADE.ENC` on points in the domain: the snapshot holds the coordinates and levels as given, not re-decoded, the two encoded strings, and the precision or 1e5. -/
def Obligations.FacadeEncodesEagerly : Prop :=
  ∀ (p : Option F64) (points : List Point) (levels : Option (List Level)) (s : State) (ps : List (Int × Int)),
    s.busy = false → precisionOk (p.getD 0x40F86A0000000000#64) = true →
    scaledPairs (p.getD 0x40F86A0000000000#64) points = .ok ps →
    ∃ sn t, facadeEnc p points levels s = .next (sn, t) ∧
      sn.coordinates = some points ∧ sn.encodedPolyline = coordinateString ps ∧ sn.levels = levels ∧
      sn.encodedLevels = levels.map levelsString ∧ sn.precision = p.getD 0x40F86A0000000000#64
end

