-- ==== Sys2Proof/Laws/State.lean ====
section
/-! SUPPORT. One lemma per field per named update of the state, so that no proof unfolds a record update. -/

namespace Sys2Proof.Machine

section emit

variable (e : Elem) (s : State)

@[simp] theorem emit_busy : (emit e s).busy = s.busy := rfl
@[simp] theorem emit_status : (emit e s).status = s.status := rfl
@[simp] theorem emit_errpos : (emit e s).errpos = s.errpos := rfl
@[simp] theorem emit_rval : (emit e s).rval = s.rval := rfl
@[simp] theorem emit_consumed : (emit e s).consumed = s.consumed := rfl
@[simp] theorem emit_ocnt : (emit e s).ocnt = s.ocnt + 1 := rfl
@[simp] theorem emit_cmd : (emit e s).cmd = s.cmd := rfl
@[simp] theorem emit_opa : (emit e s).opa = s.opa := rfl
@[simp] theorem emit_opf : (emit e s).opf = s.opf := rfl
@[simp] theorem emit_precIn : (emit e s).precIn = s.precIn := rfl
@[simp] theorem emit_inLen : (emit e s).inLen = s.inLen := rfl
@[simp] theorem emit_op : (emit e s).op = s.op := rfl
@[simp] theorem emit_prec : (emit e s).prec = s.prec := rfl
@[simp] theorem emit_opaLatch : (emit e s).opaLatch = s.opaLatch := rfl
@[simp] theorem emit_opfLatch : (emit e s).opfLatch = s.opfLatch := rfl
@[simp] theorem emit_len : (emit e s).len = s.len := rfl
@[simp] theorem emit_cursor : (emit e s).cursor = s.cursor := rfl
@[simp] theorem emit_acc : (emit e s).acc = s.acc := rfl
@[simp] theorem emit_shift : (emit e s).shift = s.shift := rfl
@[simp] theorem emit_gcnt : (emit e s).gcnt = s.gcnt := rfl
@[simp] theorem emit_cst : (emit e s).cst = s.cst := rfl
@[simp] theorem emit_phase : (emit e s).phase = s.phase := rfl
@[simp] theorem emit_prevLat : (emit e s).prevLat = s.prevLat := rfl
@[simp] theorem emit_prevLon : (emit e s).prevLon = s.prevLon := rfl
@[simp] theorem emit_latAcc : (emit e s).latAcc = s.latAcc := rfl
@[simp] theorem emit_lonAcc : (emit e s).lonAcc = s.lonAcc := rfl
@[simp] theorem emit_v : (emit e s).v = s.v := rfl
@[simp] theorem emit_est : (emit e s).est = s.est := rfl
@[simp] theorem emit_sLat : (emit e s).sLat = s.sLat := rfl
@[simp] theorem emit_sLon : (emit e s).sLon = s.sLon := rfl
@[simp] theorem emit_inp : (emit e s).inp = s.inp := rfl
@[simp] theorem emit_out : (emit e s).out = spaceWrite s.out s.ocnt e := rfl
@[simp] theorem emit_host : (emit e s).host = s.host := rfl
@[simp] theorem emit_epoch : (emit e s).epoch = s.epoch := rfl

end emit

section finishOk

variable (r : BitVec 35) (c : BitVec 3) (s : State)

@[simp] theorem finishOk_busy : (finishOk r c s).busy = false := rfl
@[simp] theorem finishOk_status : (finishOk r c s).status = 0#3 := rfl
@[simp] theorem finishOk_errpos : (finishOk r c s).errpos = 0 := rfl
@[simp] theorem finishOk_rval : (finishOk r c s).rval = r := rfl
@[simp] theorem finishOk_consumed : (finishOk r c s).consumed = c := rfl
@[simp] theorem finishOk_ocnt : (finishOk r c s).ocnt = s.ocnt := rfl
@[simp] theorem finishOk_cmd : (finishOk r c s).cmd = s.cmd := rfl
@[simp] theorem finishOk_opa : (finishOk r c s).opa = s.opa := rfl
@[simp] theorem finishOk_opf : (finishOk r c s).opf = s.opf := rfl
@[simp] theorem finishOk_precIn : (finishOk r c s).precIn = s.precIn := rfl
@[simp] theorem finishOk_inLen : (finishOk r c s).inLen = s.inLen := rfl
@[simp] theorem finishOk_op : (finishOk r c s).op = s.op := rfl
@[simp] theorem finishOk_prec : (finishOk r c s).prec = s.prec := rfl
@[simp] theorem finishOk_opaLatch : (finishOk r c s).opaLatch = s.opaLatch := rfl
@[simp] theorem finishOk_opfLatch : (finishOk r c s).opfLatch = s.opfLatch := rfl
@[simp] theorem finishOk_len : (finishOk r c s).len = s.len := rfl
@[simp] theorem finishOk_cursor : (finishOk r c s).cursor = s.cursor := rfl
@[simp] theorem finishOk_acc : (finishOk r c s).acc = s.acc := rfl
@[simp] theorem finishOk_shift : (finishOk r c s).shift = s.shift := rfl
@[simp] theorem finishOk_gcnt : (finishOk r c s).gcnt = s.gcnt := rfl
@[simp] theorem finishOk_cst : (finishOk r c s).cst = s.cst := rfl
@[simp] theorem finishOk_phase : (finishOk r c s).phase = s.phase := rfl
@[simp] theorem finishOk_prevLat : (finishOk r c s).prevLat = s.prevLat := rfl
@[simp] theorem finishOk_prevLon : (finishOk r c s).prevLon = s.prevLon := rfl
@[simp] theorem finishOk_latAcc : (finishOk r c s).latAcc = s.latAcc := rfl
@[simp] theorem finishOk_lonAcc : (finishOk r c s).lonAcc = s.lonAcc := rfl
@[simp] theorem finishOk_v : (finishOk r c s).v = s.v := rfl
@[simp] theorem finishOk_est : (finishOk r c s).est = s.est := rfl
@[simp] theorem finishOk_sLat : (finishOk r c s).sLat = s.sLat := rfl
@[simp] theorem finishOk_sLon : (finishOk r c s).sLon = s.sLon := rfl
@[simp] theorem finishOk_inp : (finishOk r c s).inp = s.inp := rfl
@[simp] theorem finishOk_out : (finishOk r c s).out = s.out := rfl
@[simp] theorem finishOk_host : (finishOk r c s).host = s.host := rfl
@[simp] theorem finishOk_epoch : (finishOk r c s).epoch = s.epoch := rfl

end finishOk

section raiseFault

variable (f : FaultKind) (i : Nat) (s : State)

@[simp] theorem raiseFault_busy : (raiseFault f i s).busy = false := rfl
@[simp] theorem raiseFault_status : (raiseFault f i s).status = faultCode f := rfl
@[simp] theorem raiseFault_errpos : (raiseFault f i s).errpos = i := rfl
@[simp] theorem raiseFault_rval : (raiseFault f i s).rval = 0#35 := rfl
@[simp] theorem raiseFault_consumed : (raiseFault f i s).consumed = 0#3 := rfl
@[simp] theorem raiseFault_ocnt : (raiseFault f i s).ocnt = 0 := rfl
@[simp] theorem raiseFault_cmd : (raiseFault f i s).cmd = s.cmd := rfl
@[simp] theorem raiseFault_opa : (raiseFault f i s).opa = s.opa := rfl
@[simp] theorem raiseFault_opf : (raiseFault f i s).opf = s.opf := rfl
@[simp] theorem raiseFault_precIn : (raiseFault f i s).precIn = s.precIn := rfl
@[simp] theorem raiseFault_inLen : (raiseFault f i s).inLen = s.inLen := rfl
@[simp] theorem raiseFault_op : (raiseFault f i s).op = s.op := rfl
@[simp] theorem raiseFault_prec : (raiseFault f i s).prec = s.prec := rfl
@[simp] theorem raiseFault_opaLatch : (raiseFault f i s).opaLatch = s.opaLatch := rfl
@[simp] theorem raiseFault_opfLatch : (raiseFault f i s).opfLatch = s.opfLatch := rfl
@[simp] theorem raiseFault_len : (raiseFault f i s).len = s.len := rfl
@[simp] theorem raiseFault_cursor : (raiseFault f i s).cursor = s.cursor := rfl
@[simp] theorem raiseFault_acc : (raiseFault f i s).acc = s.acc := rfl
@[simp] theorem raiseFault_shift : (raiseFault f i s).shift = s.shift := rfl
@[simp] theorem raiseFault_gcnt : (raiseFault f i s).gcnt = s.gcnt := rfl
@[simp] theorem raiseFault_cst : (raiseFault f i s).cst = s.cst := rfl
@[simp] theorem raiseFault_phase : (raiseFault f i s).phase = s.phase := rfl
@[simp] theorem raiseFault_prevLat : (raiseFault f i s).prevLat = s.prevLat := rfl
@[simp] theorem raiseFault_prevLon : (raiseFault f i s).prevLon = s.prevLon := rfl
@[simp] theorem raiseFault_latAcc : (raiseFault f i s).latAcc = s.latAcc := rfl
@[simp] theorem raiseFault_lonAcc : (raiseFault f i s).lonAcc = s.lonAcc := rfl
@[simp] theorem raiseFault_v : (raiseFault f i s).v = s.v := rfl
@[simp] theorem raiseFault_est : (raiseFault f i s).est = s.est := rfl
@[simp] theorem raiseFault_sLat : (raiseFault f i s).sLat = s.sLat := rfl
@[simp] theorem raiseFault_sLon : (raiseFault f i s).sLon = s.sLon := rfl
@[simp] theorem raiseFault_inp : (raiseFault f i s).inp = s.inp := rfl
@[simp] theorem raiseFault_out : (raiseFault f i s).out = s.out := rfl
@[simp] theorem raiseFault_host : (raiseFault f i s).host = s.host := rfl
@[simp] theorem raiseFault_epoch : (raiseFault f i s).epoch = s.epoch := rfl

end raiseFault

section chunkStart

variable (s : State)

@[simp] theorem chunkStart_busy : (chunkStart s).busy = s.busy := rfl
@[simp] theorem chunkStart_status : (chunkStart s).status = s.status := rfl
@[simp] theorem chunkStart_errpos : (chunkStart s).errpos = s.errpos := rfl
@[simp] theorem chunkStart_rval : (chunkStart s).rval = s.rval := rfl
@[simp] theorem chunkStart_consumed : (chunkStart s).consumed = s.consumed := rfl
@[simp] theorem chunkStart_ocnt : (chunkStart s).ocnt = s.ocnt := rfl
@[simp] theorem chunkStart_cmd : (chunkStart s).cmd = s.cmd := rfl
@[simp] theorem chunkStart_opa : (chunkStart s).opa = s.opa := rfl
@[simp] theorem chunkStart_opf : (chunkStart s).opf = s.opf := rfl
@[simp] theorem chunkStart_precIn : (chunkStart s).precIn = s.precIn := rfl
@[simp] theorem chunkStart_inLen : (chunkStart s).inLen = s.inLen := rfl
@[simp] theorem chunkStart_op : (chunkStart s).op = s.op := rfl
@[simp] theorem chunkStart_prec : (chunkStart s).prec = s.prec := rfl
@[simp] theorem chunkStart_opaLatch : (chunkStart s).opaLatch = s.opaLatch := rfl
@[simp] theorem chunkStart_opfLatch : (chunkStart s).opfLatch = s.opfLatch := rfl
@[simp] theorem chunkStart_len : (chunkStart s).len = s.len := rfl
@[simp] theorem chunkStart_cursor : (chunkStart s).cursor = s.cursor := rfl
@[simp] theorem chunkStart_acc : (chunkStart s).acc = 0#30 := rfl
@[simp] theorem chunkStart_shift : (chunkStart s).shift = 0#5 := rfl
@[simp] theorem chunkStart_gcnt : (chunkStart s).gcnt = 0#3 := rfl
@[simp] theorem chunkStart_cst : (chunkStart s).cst = .accumulate := rfl
@[simp] theorem chunkStart_phase : (chunkStart s).phase = s.phase := rfl
@[simp] theorem chunkStart_prevLat : (chunkStart s).prevLat = s.prevLat := rfl
@[simp] theorem chunkStart_prevLon : (chunkStart s).prevLon = s.prevLon := rfl
@[simp] theorem chunkStart_latAcc : (chunkStart s).latAcc = s.latAcc := rfl
@[simp] theorem chunkStart_lonAcc : (chunkStart s).lonAcc = s.lonAcc := rfl
@[simp] theorem chunkStart_v : (chunkStart s).v = s.v := rfl
@[simp] theorem chunkStart_est : (chunkStart s).est = s.est := rfl
@[simp] theorem chunkStart_sLat : (chunkStart s).sLat = s.sLat := rfl
@[simp] theorem chunkStart_sLon : (chunkStart s).sLon = s.sLon := rfl
@[simp] theorem chunkStart_inp : (chunkStart s).inp = s.inp := rfl
@[simp] theorem chunkStart_out : (chunkStart s).out = s.out := rfl
@[simp] theorem chunkStart_host : (chunkStart s).host = s.host := rfl
@[simp] theorem chunkStart_epoch : (chunkStart s).epoch = s.epoch := rfl

end chunkStart

section commandStart

variable (i : Instr) (s : State)

@[simp] theorem commandStart_busy : (commandStart i s).busy = true := rfl
@[simp] theorem commandStart_status : (commandStart i s).status = s.status := rfl
@[simp] theorem commandStart_errpos : (commandStart i s).errpos = s.errpos := rfl
@[simp] theorem commandStart_rval : (commandStart i s).rval = s.rval := rfl
@[simp] theorem commandStart_consumed : (commandStart i s).consumed = s.consumed := rfl
@[simp] theorem commandStart_ocnt : (commandStart i s).ocnt = 0 := rfl
@[simp] theorem commandStart_cmd : (commandStart i s).cmd = encode i := rfl
@[simp] theorem commandStart_opa : (commandStart i s).opa = s.opa := rfl
@[simp] theorem commandStart_opf : (commandStart i s).opf = s.opf := rfl
@[simp] theorem commandStart_precIn : (commandStart i s).precIn = s.precIn := rfl
@[simp] theorem commandStart_inLen : (commandStart i s).inLen = s.inLen := rfl
@[simp] theorem commandStart_op : (commandStart i s).op = cmdOpc (encode i) := rfl
@[simp] theorem commandStart_prec : (commandStart i s).prec = selectedPrecision i.psel s := rfl
@[simp] theorem commandStart_opaLatch : (commandStart i s).opaLatch = s.opa := rfl
@[simp] theorem commandStart_opfLatch : (commandStart i s).opfLatch = s.opf := rfl
@[simp] theorem commandStart_len : (commandStart i s).len = s.inLen := rfl
@[simp] theorem commandStart_cursor : (commandStart i s).cursor = 0 := rfl
@[simp] theorem commandStart_acc : (commandStart i s).acc = 0#30 := rfl
@[simp] theorem commandStart_shift : (commandStart i s).shift = 0#5 := rfl
@[simp] theorem commandStart_gcnt : (commandStart i s).gcnt = 0#3 := rfl
@[simp] theorem commandStart_cst : (commandStart i s).cst = .accumulate := rfl
@[simp] theorem commandStart_phase : (commandStart i s).phase = .lat := rfl
@[simp] theorem commandStart_prevLat : (commandStart i s).prevLat = 0#32 := rfl
@[simp] theorem commandStart_prevLon : (commandStart i s).prevLon = 0#32 := rfl
@[simp] theorem commandStart_latAcc : (commandStart i s).latAcc = 0#64 := rfl
@[simp] theorem commandStart_lonAcc : (commandStart i s).lonAcc = 0#64 := rfl
@[simp] theorem commandStart_v : (commandStart i s).v = s.v := rfl
@[simp] theorem commandStart_est : (commandStart i s).est = .idle := rfl
@[simp] theorem commandStart_sLat : (commandStart i s).sLat = s.sLat := rfl
@[simp] theorem commandStart_sLon : (commandStart i s).sLon = s.sLon := rfl
@[simp] theorem commandStart_inp : (commandStart i s).inp = s.inp := rfl
@[simp] theorem commandStart_out : (commandStart i s).out = s.out := rfl
@[simp] theorem commandStart_host : (commandStart i s).host = s.host := rfl
@[simp] theorem commandStart_epoch : (commandStart i s).epoch = s.epoch := rfl

end commandStart

section encodeStart

variable (u : BitVec 35) (s : State)

@[simp] theorem encodeStart_busy : (encodeStart u s).busy = s.busy := rfl
@[simp] theorem encodeStart_status : (encodeStart u s).status = s.status := rfl
@[simp] theorem encodeStart_errpos : (encodeStart u s).errpos = s.errpos := rfl
@[simp] theorem encodeStart_rval : (encodeStart u s).rval = s.rval := rfl
@[simp] theorem encodeStart_consumed : (encodeStart u s).consumed = s.consumed := rfl
@[simp] theorem encodeStart_ocnt : (encodeStart u s).ocnt = s.ocnt := rfl
@[simp] theorem encodeStart_cmd : (encodeStart u s).cmd = s.cmd := rfl
@[simp] theorem encodeStart_opa : (encodeStart u s).opa = s.opa := rfl
@[simp] theorem encodeStart_opf : (encodeStart u s).opf = s.opf := rfl
@[simp] theorem encodeStart_precIn : (encodeStart u s).precIn = s.precIn := rfl
@[simp] theorem encodeStart_inLen : (encodeStart u s).inLen = s.inLen := rfl
@[simp] theorem encodeStart_op : (encodeStart u s).op = s.op := rfl
@[simp] theorem encodeStart_prec : (encodeStart u s).prec = s.prec := rfl
@[simp] theorem encodeStart_opaLatch : (encodeStart u s).opaLatch = s.opaLatch := rfl
@[simp] theorem encodeStart_opfLatch : (encodeStart u s).opfLatch = s.opfLatch := rfl
@[simp] theorem encodeStart_len : (encodeStart u s).len = s.len := rfl
@[simp] theorem encodeStart_cursor : (encodeStart u s).cursor = s.cursor := rfl
@[simp] theorem encodeStart_acc : (encodeStart u s).acc = s.acc := rfl
@[simp] theorem encodeStart_shift : (encodeStart u s).shift = s.shift := rfl
@[simp] theorem encodeStart_gcnt : (encodeStart u s).gcnt = s.gcnt := rfl
@[simp] theorem encodeStart_cst : (encodeStart u s).cst = s.cst := rfl
@[simp] theorem encodeStart_phase : (encodeStart u s).phase = s.phase := rfl
@[simp] theorem encodeStart_prevLat : (encodeStart u s).prevLat = s.prevLat := rfl
@[simp] theorem encodeStart_prevLon : (encodeStart u s).prevLon = s.prevLon := rfl
@[simp] theorem encodeStart_latAcc : (encodeStart u s).latAcc = s.latAcc := rfl
@[simp] theorem encodeStart_lonAcc : (encodeStart u s).lonAcc = s.lonAcc := rfl
@[simp] theorem encodeStart_v : (encodeStart u s).v = u := rfl
@[simp] theorem encodeStart_est : (encodeStart u s).est = .passing := rfl
@[simp] theorem encodeStart_sLat : (encodeStart u s).sLat = s.sLat := rfl
@[simp] theorem encodeStart_sLon : (encodeStart u s).sLon = s.sLon := rfl
@[simp] theorem encodeStart_inp : (encodeStart u s).inp = s.inp := rfl
@[simp] theorem encodeStart_out : (encodeStart u s).out = s.out := rfl
@[simp] theorem encodeStart_host : (encodeStart u s).host = s.host := rfl
@[simp] theorem encodeStart_epoch : (encodeStart u s).epoch = s.epoch := rfl

end encodeStart

section encodePass

variable (s : State)

@[simp] theorem encodePass_busy : (encodePass s).busy = s.busy := rfl
@[simp] theorem encodePass_status : (encodePass s).status = s.status := rfl
@[simp] theorem encodePass_errpos : (encodePass s).errpos = s.errpos := rfl
@[simp] theorem encodePass_rval : (encodePass s).rval = s.rval := rfl
@[simp] theorem encodePass_consumed : (encodePass s).consumed = s.consumed := rfl
@[simp] theorem encodePass_ocnt : (encodePass s).ocnt = s.ocnt + 1 := rfl
@[simp] theorem encodePass_cmd : (encodePass s).cmd = s.cmd := rfl
@[simp] theorem encodePass_opa : (encodePass s).opa = s.opa := rfl
@[simp] theorem encodePass_opf : (encodePass s).opf = s.opf := rfl
@[simp] theorem encodePass_precIn : (encodePass s).precIn = s.precIn := rfl
@[simp] theorem encodePass_inLen : (encodePass s).inLen = s.inLen := rfl
@[simp] theorem encodePass_op : (encodePass s).op = s.op := rfl
@[simp] theorem encodePass_prec : (encodePass s).prec = s.prec := rfl
@[simp] theorem encodePass_opaLatch : (encodePass s).opaLatch = s.opaLatch := rfl
@[simp] theorem encodePass_opfLatch : (encodePass s).opfLatch = s.opfLatch := rfl
@[simp] theorem encodePass_len : (encodePass s).len = s.len := rfl
@[simp] theorem encodePass_cursor : (encodePass s).cursor = s.cursor := rfl
@[simp] theorem encodePass_acc : (encodePass s).acc = s.acc := rfl
@[simp] theorem encodePass_shift : (encodePass s).shift = s.shift := rfl
@[simp] theorem encodePass_gcnt : (encodePass s).gcnt = s.gcnt := rfl
@[simp] theorem encodePass_cst : (encodePass s).cst = s.cst := rfl
@[simp] theorem encodePass_phase : (encodePass s).phase = s.phase := rfl
@[simp] theorem encodePass_prevLat : (encodePass s).prevLat = s.prevLat := rfl
@[simp] theorem encodePass_prevLon : (encodePass s).prevLon = s.prevLon := rfl
@[simp] theorem encodePass_latAcc : (encodePass s).latAcc = s.latAcc := rfl
@[simp] theorem encodePass_lonAcc : (encodePass s).lonAcc = s.lonAcc := rfl
@[simp] theorem encodePass_v : (encodePass s).v = s.v >>> 5 := rfl
@[simp] theorem encodePass_est : (encodePass s).est = if s.v >>> 5 = 0#35 then .done else .passing := rfl
@[simp] theorem encodePass_sLat : (encodePass s).sLat = s.sLat := rfl
@[simp] theorem encodePass_sLon : (encodePass s).sLon = s.sLon := rfl
@[simp] theorem encodePass_inp : (encodePass s).inp = s.inp := rfl
@[simp] theorem encodePass_out : (encodePass s).out = spaceWrite s.out s.ocnt (.byte (passByte s.v)) := rfl
@[simp] theorem encodePass_host : (encodePass s).host = s.host := rfl
@[simp] theorem encodePass_epoch : (encodePass s).epoch = s.epoch := rfl

end encodePass

end Sys2Proof.Machine
end

