-- ==== Sys2Proof/Laws/Space.lean ====
section
/-! SUPPORT. The laws of a buffer space: read after write, and the canonical form kept; what a typed read answers. -/

namespace Sys2Proof.Machine

theorem spaceRead_spaceWrite_same (m : Space) (i : Nat) (e : Elem) :
    spaceRead (spaceWrite m i e) i = some e := by
  induction m with
  | nil => simp [spaceWrite, spaceRead]
  | cons c rest ih =>
    obtain ⟨j, f⟩ := c
    unfold spaceWrite
    split
    · simp [spaceRead]
    · split
      · simp [spaceRead]
      · simp [spaceRead, *]

theorem spaceRead_spaceWrite_other (m : Space) {i k : Nat} (e : Elem) (h : k ≠ i) :
    spaceRead (spaceWrite m i e) k = spaceRead m k := by
  induction m with
  | nil => simp [spaceWrite, spaceRead, h]
  | cons c rest ih =>
    obtain ⟨j, f⟩ := c
    unfold spaceWrite
    split
    · simp [spaceRead, h]
    · split
      · next hij => subst hij; simp [spaceRead, h]
      · simp only [spaceRead]
        split
        · rfl
        · exact ih

/-- What a write does to every read. -/
theorem spaceRead_spaceWrite (m : Space) (i k : Nat) (e : Elem) :
    spaceRead (spaceWrite m i e) k = if k = i then some e else spaceRead m k := by
  split
  · next h => subst h; exact spaceRead_spaceWrite_same m k e
  · next h => exact spaceRead_spaceWrite_other m e h

theorem spaceWfFrom_spaceWrite (m : Space) {lo i : Nat} (e : Elem) (h : spaceWfFrom lo m = true) (hi : lo ≤ i) :
    spaceWfFrom lo (spaceWrite m i e) = true := by
  induction m generalizing lo with
  | nil => simp [spaceWrite, spaceWfFrom, hi]
  | cons c rest ih =>
    obtain ⟨j, f⟩ := c
    simp only [spaceWfFrom, Bool.and_eq_true, decide_eq_true_eq] at h
    unfold spaceWrite
    split
    · next hij => simp only [spaceWfFrom, Bool.and_eq_true, decide_eq_true_eq]; exact ⟨hi, hij, h.2⟩
    · split
      · next hij => subst hij; simp only [spaceWfFrom, Bool.and_eq_true, decide_eq_true_eq]; exact ⟨hi, h.2⟩
      · simp only [spaceWfFrom, Bool.and_eq_true, decide_eq_true_eq]
        exact ⟨h.1, ih h.2 (by omega)⟩

/-- A write keeps the canonical form. -/
theorem spaceWrite_wf (m : Space) (i : Nat) (e : Elem) (h : Space.wf m = true) : Space.wf (spaceWrite m i e) = true :=
  spaceWfFrom_spaceWrite m e h (Nat.zero_le i)

theorem memRead_of_lt {s : State} {i : Nat} (h : i < s.len) : memRead s i = .ok (spaceRead s.inp i) := by
  simp [memRead, h]

/-- A read below `LEN` answers the element, as a byte. -/
theorem readByte_of_lt {s : State} {i : Nat} (h : i < s.len) : readByte s i = .ok (byteAt s i) := by
  unfold readByte byteAt
  rw [memRead_of_lt h]
  generalize spaceRead s.inp i = c
  rcases c with _ | (_ | _ | _) <;> rfl

theorem readLevel_of_lt {s : State} {i : Nat} (h : i < s.len) : readLevel s i = .ok (levelAt s i) := by
  unfold readLevel levelAt
  rw [memRead_of_lt h]
  generalize spaceRead s.inp i = c
  rcases c with _ | (_ | _ | _) <;> rfl

theorem readPoint_of_lt {s : State} {i : Nat} (h : i < s.len) : readPoint s i = .ok (pointAt s i) := by
  unfold readPoint pointAt
  rw [memRead_of_lt h]
  generalize spaceRead s.inp i = c
  rcases c with _ | (_ | _ | _) <;> rfl

end Sys2Proof.Machine
end

