-- ==== Sys2Proof/Laws/Ops.lean ====
section
/-! SUPPORT. One lemma for each shared operation: everything it can answer. -/

namespace Sys2Proof.Machine

/-! ## Running a command -/

theorem runSteps_idle (body : State → Result) (n : Nat) {s : State} (h : s.busy = false) :
    runSteps body n s = .next s := by
  cases n <;> simp [runSteps, h]

/-- A property that the command's micro-step keeps while `BUSY = 1` holds at the end of a run. -/
theorem runSteps_keeps {body : State → Result} {P : State → Prop}
    (hbody : ∀ s t, P s → s.busy = true → body s = .next t → P t) {n : Nat} {s t : State}
    (hs : P s) (h : runSteps body n s = .next t) : P t := by
  induction n generalizing s with
  | zero => simp only [runSteps, Host.Outcome.next.injEq] at h; exact h ▸ hs
  | succ n ih =>
    simp only [runSteps] at h
    split at h
    · next hb =>
      split at h
      · next u hu => exact ih (hbody s u hs hb hu) h
      · cases h
      · cases h
    · simp only [Host.Outcome.next.injEq] at h; exact h ▸ hs

theorem startable_none_iff (i : Instr) (s : State) :
    startable i s = none ↔ s.busy = false ∧ precisionOk (selectedPrecision i.psel s) = true := by
  unfold startable
  split
  · simp [*]
  · split <;> simp_all

/-- Everything a command's meaning can answer. -/
theorem runCommand_cases (i : Instr) (body : State → Result) (s : State) :
    (∃ r, startable i s = some r ∧ runCommand i body s = .refused r) ∨
    (startable i s = none ∧ runCommand i body s = runSteps body (stepBound i s.inLen) (commandStart i s)) := by
  unfold runCommand
  cases h : startable i s with
  | some r => exact .inl ⟨r, rfl, rfl⟩
  | none => exact .inr ⟨rfl, rfl⟩

/-- The start of a command that answers a next state. -/
theorem runCommand_next {i : Instr} {body : State → Result} {s t : State} (h : runCommand i body s = .next t) :
    s.busy = false ∧ precisionOk (selectedPrecision i.psel s) = true ∧
      runSteps body (stepBound i s.inLen) (commandStart i s) = .next t := by
  rcases runCommand_cases i body s with ⟨r, _, hr⟩ | ⟨hn, hr⟩
  · rw [hr] at h; cases h
  · obtain ⟨hb, hp⟩ := (startable_none_iff i s).mp hn
    exact ⟨hb, hp, hr ▸ h⟩

/-- The domain of a precision, by its value (30 R91): finite and greater than zero. -/
theorem precisionOk_iff (p : F64) : precisionOk p = true ↔ f64Finite p = true ∧ 0 < f64Units p := by
  have hm : 0 < f64Magnitude p ↔ (f64Exponent p ≠ 0 ∨ f64Fraction p ≠ 0) := by
    unfold f64Magnitude
    split
    · next h => simp [h, Nat.pos_iff_ne_zero]
    · next h => simp [h]
  unfold precisionOk f64Units
  cases f64Negative p
  · simp [← hm]
  · simp

/-- The default precision is in the domain (30 R91). -/
theorem precisionOk_default : precisionOk Config.defaultPrecision = true := by decide

/-! ## EncodeValue -/

/-- The bytes at most this many passes emit from `V = v`. -/
def loopBytes : Nat → BitVec 35 → List Byte
  | 0, _ => []
  | n + 1, v => passByte v :: (if v >>> 5 = 0#35 then [] else loopBytes n (v >>> 5))

/-- Elements written one after another from an index on. -/
def spaceAppend : Space → Nat → List Byte → Space
  | m, _, [] => m
  | m, i, b :: bs => spaceAppend (spaceWrite m i (.byte b)) (i + 1) bs

theorem spaceRead_spaceAppend (bs : List Byte) (m : Space) (i k : Nat) :
    spaceRead (spaceAppend m i bs) k =
      if h : i ≤ k ∧ k < i + bs.length then some (.byte (bs[k - i]'(by omega))) else spaceRead m k := by
  induction bs generalizing m i with
  | nil =>
    have : ¬ (i ≤ k ∧ k < i + ([] : List Byte).length) := by simp
    rw [dif_neg this]; rfl
  | cons b bs ih =>
    rw [spaceAppend, ih, spaceRead_spaceWrite]
    by_cases h1 : k = i
    · subst h1; simp
    · by_cases h2 : i + 1 ≤ k ∧ k < i + 1 + bs.length
      · have h3 : i ≤ k ∧ k < i + (b :: bs).length := by simp only [List.length_cons]; omega
        rw [dif_pos h2, dif_pos h3]
        have : k - i = (k - (i + 1)) + 1 := by omega
        simp [this]
      · have h3 : ¬ (i ≤ k ∧ k < i + (b :: bs).length) := by simp only [List.length_cons]; omega
        rw [dif_neg h2, dif_neg h3, if_neg h1]

theorem spaceAppend_wf (bs : List Byte) (m : Space) (i : Nat) (h : Space.wf m = true) :
    Space.wf (spaceAppend m i bs) = true := by
  induction bs generalizing m i with
  | nil => exact h
  | cons b bs ih => exact ih _ _ (spaceWrite_wf m i _ h)

theorem spaceAppend_append (xs ys : List Byte) (m : Space) (i : Nat) :
    spaceAppend m i (xs ++ ys) = spaceAppend (spaceAppend m i xs) (i + xs.length) ys := by
  induction xs generalizing m i with
  | nil => rfl
  | cons b xs ih =>
    simp only [List.cons_append, spaceAppend, List.length_cons, ih]
    congr 1
    omega

/-- Everything the passes of `EncodeValue` do: `V`, the position, `OUT` and `OCNT`, and nothing else. -/
theorem encodePasses_eq (n : Nat) (s : State) (h : s.est = .passing) :
    encodePasses n s = { s with
      v := (encodePasses n s).v
      est := (encodePasses n s).est
      out := spaceAppend s.out s.ocnt (loopBytes n s.v)
      ocnt := s.ocnt + (loopBytes n s.v).length } := by
  induction n generalizing s with
  | zero => rfl
  | succ n ih =>
    have hs : encodePasses (n + 1) s = encodePasses n (encodePass s) := by simp [encodePasses, h]
    rw [hs]
    unfold loopBytes
    by_cases hv : s.v >>> 5 = 0#35
    · have hp : encodePasses n (encodePass s) = encodePass s := by cases n <;> simp [encodePasses, hv]
      rw [hp]
      simp [encodePass, emit, spaceAppend, hv]
    · have he : (encodePass s).est = .passing := by simp [hv]
      rw [ih (encodePass s) he]
      simp [spaceAppend, hv, Nat.add_comm, Nat.add_assoc, encodePass, emit]

/-- After enough passes `V` is 0 and the loop has ended. -/
theorem encodePasses_end (n : Nat) (s : State) (h : s.est = .passing) (hv : s.v.toNat < 2 ^ (5 * (n + 1))) :
    (encodePasses (n + 1) s).v = 0#35 ∧ (encodePasses (n + 1) s).est = .done := by
  induction n generalizing s with
  | zero =>
    have h0 : s.v >>> 5 = 0#35 := by
      apply BitVec.eq_of_toNat_eq
      rw [BitVec.toNat_ushiftRight, Nat.shiftRight_eq_div_pow]
      simp only [BitVec.toNat_ofNat, Nat.zero_mod]
      exact Nat.div_eq_of_lt (by simpa using hv)
    simp [encodePasses, h, h0]
  | succ n ih =>
    have hs : encodePasses (n + 2) s = encodePasses (n + 1) (encodePass s) := by simp [encodePasses, h]
    rw [hs]
    by_cases h0 : s.v >>> 5 = 0#35
    · simp [encodePasses, h0]
    · apply ih
      · simp [h0]
      · rw [encodePass_v, BitVec.toNat_ushiftRight, Nat.shiftRight_eq_div_pow, Nat.div_lt_iff_lt_mul (by norm_num)]
        calc s.v.toNat < 2 ^ (5 * (n + 1 + 1)) := hv
          _ = 2 ^ (5 * (n + 1)) * 2 ^ 5 := by rw [← Nat.pow_add]; congr 1

/-- The bytes `EncodeValue(u)` emits. -/
def valueBytes (u : BitVec 35) : List Byte := loopBytes Config.maxGroupsEnc u

/-- Everything `EncodeValue` does (40 R110): the bytes appended, `V` to 0, the loop ended, and nothing else. -/
theorem encodeValue_eq (u : BitVec 35) (s : State) :
    encodeValue u s = { s with
      v := 0#35
      est := .done
      out := spaceAppend s.out s.ocnt (valueBytes u)
      ocnt := s.ocnt + (valueBytes u).length } := by
  obtain ⟨hv, he⟩ := encodePasses_end 6 (encodeStart u s) rfl (by have := u.isLt; simpa using this)
  have h := encodePasses_eq Config.maxGroupsEnc (encodeStart u s) rfl
  rw [show Config.maxGroupsEnc = 6 + 1 from rfl] at h
  rw [hv, he] at h
  exact h

/-- Running a command's micro-steps over passes only is running the passes. -/
theorem runSteps_pass {body : State → Result} (hb : ∀ s : State, s.est = .passing → body s = .next (encodePass s))
    {n : Nat} {s : State} (h : s.est = .passing) (hbusy : s.busy = true) :
    runSteps body (n + 1) s = runSteps body n (encodePass s) := by
  simp [runSteps, hbusy, hb s h]

/-- Everything the end of one of a point's values does (43 R161). -/
theorem endDelta_cases (s : State) :
    (s.phase = .lat ∧ endDelta s = startDelta (delta s.sLon.toInt s.prevLon) { s with phase := .lon }) ∨
    (s.phase = .lon ∧
      endDelta s = { s with prevLat := s.sLat, prevLon := s.sLon, cursor := s.cursor + 1, phase := .lat, est := .idle }) := by
  unfold endDelta
  cases s.phase
  · exact .inl ⟨rfl, rfl⟩
  · exact .inr ⟨rfl, rfl⟩

/-! ## The chunk machine -/

/-- Where a `ChunkStep` is enabled: a running decode command, accumulating (40 R113). -/
abbrev ChunkEnabled (s : State) : Prop := s.busy = true ∧ isDecodeOp s.op = true ∧ s.cst = .accumulate

/-- The state after a symbol is accepted (40 R113). -/
def accepted (c : Bool) (g : BitVec 5) (s : State) : State :=
  { s with
    acc := s.acc ||| (g.setWidth 30 <<< s.shift.toNat)
    shift := s.shift + 5#5
    gcnt := s.gcnt + 1#3
    cursor := s.cursor + 1
    cst := if c then s.cst else .done }

/-- Everything a wire symbol can answer. -/
theorem acceptSymbol_cases (c : Bool) (g : BitVec 5) (s : State) :
    (¬ ChunkEnabled s ∧ acceptSymbol c g s = .refused .chunkStepNotEnabled) ∨
    (ChunkEnabled s ∧ s.len ≤ s.cursor ∧ acceptSymbol c g s = .next (raiseFault .truncatedChunk s.cursor s)) ∨
    (ChunkEnabled s ∧ s.cursor < s.len ∧ s.gcnt = 6#3 ∧
      acceptSymbol c g s = .next (raiseFault .overflowChunk s.cursor s)) ∨
    (ChunkEnabled s ∧ s.cursor < s.len ∧ s.gcnt ≠ 6#3 ∧ acceptSymbol c g s = .next (accepted c g s)) := by
  unfold acceptSymbol
  by_cases he : ChunkEnabled s
  · have hb : (s.busy && isDecodeOp s.op && decide (s.cst = .accumulate)) = true := by
      simp [he.1, he.2.1, he.2.2]
    rw [if_pos hb]
    split
    · exact .inr (.inl ⟨he, by assumption, rfl⟩)
    · split
      · exact .inr (.inr (.inl ⟨he, by omega, by assumption, rfl⟩))
      · exact .inr (.inr (.inr ⟨he, by omega, by assumption, rfl⟩))
  · have hb : (s.busy && isDecodeOp s.op && decide (s.cst = .accumulate)) ≠ true := by
      intro h
      apply he
      simpa [and_assoc] using h
    rw [if_neg hb]
    exact .inl ⟨he, rfl⟩

/-- A byte of the alphabet decodes to the symbol with its fields; any other byte is refused (30 R80, R93). -/
theorem decodeSymbol_cases (b : Byte) :
    ((b.toNat < 63 ∨ 126 < b.toNat) ∧ decodeSymbol b = .error .outsideAlphabet) ∨
    ((63 ≤ b.toNat ∧ b.toNat ≤ 126) ∧
      ((decodeSymbol b = .ok (.wireContinuation ((rawOf b).extractLsb' 0 5)) ∧ (rawOf b).getLsbD 5 = true) ∨
        (decodeSymbol b = .ok (.wireTerminator ((rawOf b).extractLsb' 0 5)) ∧ (rawOf b).getLsbD 5 = false))) := by
  unfold decodeSymbol
  by_cases h : b.toNat < Config.alphaLo ∨ Config.alphaHi < b.toNat
  · exact .inl ⟨h, by rw [if_pos h]⟩
  · refine .inr ⟨by simp only [Config.alphaLo, Config.alphaHi] at h; omega, ?_⟩
    rw [if_neg h]
    cases hc : (rawOf b).getLsbD 5 <;> simp

/-- Everything `ChunkStep` can answer in a running decode command that is accumulating (40 R113). -/
theorem chunkStep_cases {s : State} (he : ChunkEnabled s) :
    (s.len ≤ s.cursor ∧ chunkStep s = .next (raiseFault .truncatedChunk s.cursor s)) ∨
    (s.cursor < s.len ∧ s.gcnt = 6#3 ∧ chunkStep s = .next (raiseFault .overflowChunk s.cursor s)) ∨
    (s.cursor < s.len ∧ s.gcnt ≠ 6#3 ∧ decodeSymbol (byteAt s s.cursor) = .error .outsideAlphabet ∧
      chunkStep s = .next (raiseFault .invalidByte s.cursor s)) ∨
    (s.cursor < s.len ∧ s.gcnt ≠ 6#3 ∧ ∃ c g,
      decodeSymbol (byteAt s s.cursor) = .ok (if c then .wireContinuation g else .wireTerminator g) ∧
      chunkStep s = .next (accepted c g s)) := by
  unfold chunkStep
  split
  · exact .inl ⟨by assumption, rfl⟩
  · next h1 =>
    have hlt : s.cursor < s.len := by omega
    split
    · exact .inr (.inl ⟨hlt, by assumption, rfl⟩)
    · next h2 =>
      refine .inr (.inr ?_)
      have hacc : ∀ c g, acceptSymbol c g s = .next (accepted c g s) := by
        intro c g
        rcases acceptSymbol_cases c g s with h | h | h | h
        · exact absurd he h.1
        · exact absurd h.2.1 h1
        · exact absurd h.2.2.1 h2
        · exact h.2.2.2
      rw [readByte_of_lt hlt]
      rcases decodeSymbol_cases (byteAt s s.cursor) with ⟨_, hd⟩ | ⟨_, ⟨hd, _⟩ | ⟨hd, _⟩⟩
      · exact .inl ⟨hlt, h2, hd, by simp [hd]⟩
      · exact .inr ⟨hlt, h2, true, _, by simpa using hd, by simp [hd, execSymbol, execWireContinuation, hacc]⟩
      · exact .inr ⟨hlt, h2, false, _, by simpa using hd, by simp [hd, execSymbol, execWireTerminator, hacc]⟩

/-! ## The scaler -/

/-- `Scale` answers exactly inside its domain (42 R141, R142). -/
theorem scaleInt_ok {x p : F64} {n : Int} (h : scaleInt x p = .ok n) :
    f64Finite x = true ∧ precisionOk p = true ∧ f64Finite (fmul x p) = true ∧ fitsI32 n = true ∧ n = rhaz (fmul x p) := by
  unfold scaleInt at h
  split at h
  · cases h
  · split at h
    · cases h
    · split at h
      · cases h
      · split at h
        · cases h
        · simp only [Except.ok.injEq] at h
          subst h
          simp_all

/-- `Accumulate` answers exactly inside its domain (42 R144, R145). -/
theorem accumulate_ok {acc p r : F64} {d : Int} (h : accumulate acc d p = .ok r) :
    precisionOk p = true ∧ f64Finite (fdiv (i2f d) p) = true ∧ f64Finite r = true ∧ r = fadd acc (fdiv (i2f d) p) := by
  unfold accumulate at h
  split at h
  · cases h
  · split at h
    · cases h
    · split at h
      · cases h
      · simp only [Except.ok.injEq] at h
        subst h
        simp_all

/-- A scaled integer held in its 32-bit register reads back unchanged. -/
theorem toInt_ofInt_of_fitsI32 {n : Int} (h : fitsI32 n = true) : (BitVec.ofInt 32 n).toInt = n := by
  simp only [fitsI32, Bool.and_eq_true, decide_eq_true_eq] at h
  rw [BitVec.toInt_ofInt]
  exact Int.bmod_eq_of_le (by omega) (by omega)

end Sys2Proof.Machine
end

