-- ==== Sys2Proof/Laws/PerInstr.lean ====
section
/-! SUPPORT. For every instruction: its word has the mask and match of its row in spec/opcode_table.json. -/

namespace Sys2Proof.Laws.TableRow

/-- The word as the table numbers it: a command word as it is, a wire symbol by `raw` (30 R80). -/
def tableWord (i : Instr) : BitVec 8 :=
  match i.code with
  | .command => encode i
  | .wire => (rawOf (encode i)).setWidth 8

/-- `mask` of the row. -/
def tableMask : Instr → BitVec 8
  | .encu | .decc | .zze | .zzd | .encl | .decl => 0xFF#8
  | .scale _ | .encp _ | .decp _ => 0xEF#8
  | .wireTerminator _ | .wireContinuation _ => 0x20#8

/-- `match` of the row. -/
def tableMatch : Instr → BitVec 8
  | .encu => 0x01#8
  | .decc => 0x02#8
  | .zze => 0x03#8
  | .zzd => 0x04#8
  | .scale _ => 0x05#8
  | .encp _ => 0x06#8
  | .decp _ => 0x07#8
  | .encl => 0x08#8
  | .decl => 0x09#8
  | .wireTerminator _ => 0x00#8
  | .wireContinuation _ => 0x20#8

/-- The word of `i` matches its row of the table. -/
def Statement (i : Instr) : Prop := tableWord i &&& tableMask i = tableMatch i

theorem encu : Statement .encu := rfl
theorem decc : Statement .decc := rfl
theorem zze : Statement .zze := rfl
theorem zzd : Statement .zzd := rfl
theorem scale (psel : Bool) : Statement (.scale psel) := by cases psel <;> rfl
theorem encp (psel : Bool) : Statement (.encp psel) := by cases psel <;> rfl
theorem decp (psel : Bool) : Statement (.decp psel) := by cases psel <;> rfl
theorem encl : Statement .encl := rfl
theorem decl : Statement .decl := rfl
theorem wireTerminator (group : BitVec 5) : Statement (.wireTerminator group) := by
  revert group; unfold Statement; decide
theorem wireContinuation (group : BitVec 5) : Statement (.wireContinuation group) := by
  revert group; unfold Statement; decide

end Sys2Proof.Laws.TableRow
end

