-- ==== Sys2Proof/Machine/Assembler.lean ====
section
/-! DEFINITION. The text of the assembler syntax (30 R95) and its aliases (30 R96): a line of text read as a `Line`, and what is written after `=>`.
Host software, no part of the block (log 12). Text is a list of characters; a reader answers what it read and the text after it. -/

namespace Sys2Proof.Machine

/-- Text before which something of type `α` was read, or nothing readable. -/
abbrev Reader (α : Type) := List Char → Option (α × List Char)

/-- A space or a tab. -/
def isBlank (c : Char) : Bool := c == ' ' || c == '\t'

/-- The text after its leading blanks. -/
def skipBlanks (t : List Char) : List Char := t.dropWhile isBlank

/-- The text after this word, if it stands at the front. -/
def readWord (w t : List Char) : Option (List Char) := if w.isPrefixOf t then some (t.drop w.length) else none

/-- A comment runs from `;` to the end of the line; inside double quotes `;` is a byte of the string. -/
def stripComment : Bool → List Char → List Char
  | _, [] => []
  | quoted, c :: t => if c == ';' && !quoted then [] else c :: stripComment (quoted != (c == '"')) t

/-- The value of a decimal digit. -/
def digitValue (c : Char) : Option Nat :=
  if 48 ≤ c.toNat ∧ c.toNat ≤ 57 then some (c.toNat - 48) else none

/-- The value of a hexadecimal digit. -/
def hexValue (c : Char) : Option Nat :=
  if 48 ≤ c.toNat ∧ c.toNat ≤ 57 then some (c.toNat - 48)
  else if 65 ≤ c.toNat ∧ c.toNat ≤ 70 then some (c.toNat - 55)
  else if 97 ≤ c.toNat ∧ c.toNat ≤ 102 then some (c.toNat - 87)
  else none

/-- As many digits as stand at the front, in this base, on top of a value read so far: the value, how many digits, the rest. -/
def readDigits (value : Char → Option Nat) (base : Nat) : Nat → Nat → List Char → Nat × Nat × List Char
  | v, n, [] => (v, n, [])
  | v, n, c :: t =>
    match value c with
    | some d => readDigits value base (v * base + d) (n + 1) t
    | none => (v, n, c :: t)

/-- At least one digit. -/
def readNumber (value : Char → Option Nat) (base : Nat) : Reader Nat := fun t =>
  match readDigits value base 0 0 t with
  | (_, 0, _) => none
  | (v, _ + 1, rest) => some (v, rest)

/-- An optional leading minus sign. -/
def readSign : List Char → Bool × List Char
  | '-' :: t => (true, t)
  | t => (false, t)

/-- An integer: a decimal literal with an optional leading `-`, or `0x` hexadecimal. -/
def readInt : Reader Int := fun t =>
  match t with
  | '0' :: 'x' :: rest => (readNumber hexValue 16 rest).map fun r => ((r.1 : Int), r.2)
  | _ => (readNumber digitValue 10 (readSign t).2).map fun r => (if (readSign t).1 then -(r.1 : Int) else (r.1 : Int), r.2)

/-- An integer that is not negative. -/
def readNat : Reader Nat := fun t =>
  match readInt t with
  | some (.ofNat n, rest) => some (n, rest)
  | some (.negSucc _, _) => none
  | none => none

/-- An optional exponent part `e` or `E` with an integer. -/
def readExponent (t : List Char) : Int × List Char :=
  match t with
  | 'e' :: rest | 'E' :: rest =>
    match readInt (match rest with | '+' :: r => r | r => r) with
    | some (e, rest) => (e, rest)
    | none => (0, t)
  | _ => (0, t)

/-- A decimal literal, standing for the binary64 value nearest to it. -/
def readDecimal : Reader F64 := fun t =>
  match readNumber digitValue 10 (readSign t).2 with
  | none => none
  | some (whole, rest) =>
    let frac := match rest with
      | '.' :: r => readDigits digitValue 10 whole 0 r
      | r => (whole, 0, r)
    let e := readExponent frac.2.2
    some (f64OfDecimal (readSign t).1 frac.1 (e.1 - (frac.2.1 : Int)), e.2)

/-- A floating-point value: `f64:0x` and 16 hexadecimal digits for an exact pattern, or a decimal literal. -/
def readFloat : Reader F64 := fun t =>
  match readWord ['f', '6', '4', ':', '0', 'x'] t with
  | some rest =>
    match readDigits hexValue 16 0 0 rest with
    | (v, n, rest) => if n = 16 then some (BitVec.ofNat 64 v, rest) else none
  | none => readDecimal t

/-- One character, blanks before it skipped. -/
def readChar (c : Char) (t : List Char) : Option (List Char) := readWord [c] (skipBlanks t)

/-- A point: `(lat, lon)`. -/
def readPointText : Reader Point := fun t =>
  match readChar '(' t with
  | none => none
  | some t =>
    match readFloat (skipBlanks t) with
    | none => none
    | some (lat, t) =>
      match readChar ',' t with
      | none => none
      | some t =>
        match readFloat (skipBlanks t) with
        | none => none
        | some (lon, t) => (readChar ')' t).map fun t => (⟨lat, lon⟩, t)

/-- The items of a list after the first: a comma and an item, as long as both stand there. The first argument bounds the number of items. -/
def readMore {α : Type} (item : Reader α) : Nat → List Char → List α × List Char
  | 0, t => ([], t)
  | n + 1, t =>
    match (readChar ',' t).bind fun t => item (skipBlanks t) with
    | none => ([], t)
    | some (x, rest) => (x :: (readMore item n rest).1, (readMore item n rest).2)

/-- A comma-separated list; the empty list is `[]`. -/
def readList {α : Type} (item : Reader α) : Reader (List α) := fun t =>
  match readWord ['[', ']'] t with
  | some rest => some ([], rest)
  | none =>
    match item t with
    | none => none
    | some (x, rest) => some (x :: (readMore item rest.length rest).1, (readMore item rest.length rest).2)

/-- The characters between double quotes: each stands for the one byte of its ASCII code, with no escape processing. -/
def readQuoted : Reader (List Byte)
  | [] => none
  | c :: t =>
    if c == '"' then some ([], t)
    else if c.toNat < 128 then (readQuoted t).map fun r => (BitVec.ofNat 8 c.toNat :: r.1, r.2)
    else none

/-- Pairs of hexadecimal digits up to a double quote, one pair per byte, spaces allowed between pairs. -/
def readHexPairs : Nat → Reader (List Byte)
  | 0, _ => none
  | n + 1, t =>
    match skipBlanks t with
    | '"' :: rest => some ([], rest)
    | a :: b :: rest =>
      match hexValue a, hexValue b with
      | some x, some y => (readHexPairs n rest).map fun r => (BitVec.ofNat 8 (x * 16 + y) :: r.1, r.2)
      | _, _ => none
    | _ => none

/-- A byte string: `"..."` or `x"..."`. -/
def readBytes : Reader (List Byte) := fun t =>
  match t with
  | '"' :: rest => readQuoted rest
  | 'x' :: '"' :: rest => readHexPairs (rest.length + 1) rest
  | _ => none

/-- The operations a line can name: the nine commands and the two pseudo-operations. -/
inductive LineOp where
  | encu | decc | zze | zzd | scale | encp | decp | encl | decl | facadeEnc | facadeDec
  deriving DecidableEq, Repr

/-- The mnemonics (30 R90, R96), POLY's function names, and the two short names of POLY's tests (30 R96). -/
def lineOps : List (List Char × LineOp) :=
  [(['E', 'N', 'C', 'U'], .encu), (['D', 'E', 'C', 'C'], .decc), (['Z', 'Z', 'E'], .zze), (['Z', 'Z', 'D'], .zzd),
    (['S', 'C', 'A', 'L', 'E'], .scale), (['E', 'N', 'C', 'P'], .encp), (['D', 'E', 'C', 'P'], .decp),
    (['E', 'N', 'C', 'L'], .encl), (['D', 'E', 'C', 'L'], .decl),
    (['F', 'A', 'C', 'A', 'D', 'E', '.', 'E', 'N', 'C'], .facadeEnc), (['F', 'A', 'C', 'A', 'D', 'E', '.', 'D', 'E', 'C'], .facadeDec)] ++
  [(['e', 'n', 'c', 'o', 'd', 'e', 'U', 'n', 's', 'i', 'g', 'n', 'e', 'd'], .encu),
    (['d', 'e', 'c', 'o', 'd', 'e', 'C', 'h', 'u', 'n', 'k'], .decc),
    (['e', 'n', 'c', 'o', 'd', 'e', 'S', 'i', 'g', 'n', 'e', 'd'], .zze),
    (['d', 'e', 'c', 'o', 'd', 'e', 'S', 'i', 'g', 'n', 'e', 'd'], .zzd),
    (['S', 'c', 'a', 'l', 'e', 'd', 'I', 'n', 't'], .scale)] ++
  [(['e', 'n', 'c', 'o', 'd', 'e', 'C', 'o', 'o', 'r', 'd', 'i', 'n', 'a', 't', 'e', 's'], .encp),
    (['d', 'e', 'c', 'o', 'd', 'e', 'C', 'o', 'o', 'r', 'd', 'i', 'n', 'a', 't', 'e', 's'], .decp),
    (['e', 'n', 'c', 'o', 'd', 'e', 'L', 'e', 'v', 'e', 'l', 's'], .encl),
    (['d', 'e', 'c', 'o', 'd', 'e', 'L', 'e', 'v', 'e', 'l', 's'], .decl),
    (['e', 'n', 'c', 'o', 'd', 'e'], .encp), (['d', 'e', 'c', 'o', 'd', 'e'], .decp)]

/-- The operation this whole word names. -/
def lineOpOf (w : List Char) : Option LineOp := (lineOps.find? fun p => p.1 == w).map Prod.snd

/-- The first word of a line: an operation, and whether the suffix `.P` follows its name. -/
def readOp (w : List Char) : Option (LineOp × Bool) :=
  match lineOpOf w with
  | some o => some (o, false)
  | none =>
    if ['.', 'P'].isSuffixOf w then (lineOpOf (w.take (w.length - 2))).map fun o => (o, true) else none

/-- Nothing but blanks is left. -/
def atEnd {α : Type} (r : Option (α × List Char)) : Option α :=
  match r with
  | some (x, t) => if skipBlanks t = [] then some x else none
  | none => none

/-- `[, LEVELS operand]` of a pseudo-operation (30 R96). -/
def readLevelsPart {α : Type} (operand : Reader α) (t : List Char) : Option (Option α) :=
  if skipBlanks t = [] then some none
  else
    match (readChar ',' t).bind fun t => readWord ['L', 'E', 'V', 'E', 'L', 'S'] (skipBlanks t) with
    | none => none
    | some t => (atEnd (operand (skipBlanks t))).map some

/-- The operands of an operation, with the operand of `.P` if there was one. A command that takes no precision has no form with `.P`. -/
def readOperands (o : LineOp) (p : Option F64) (t : List Char) : Option Line :=
  match o, p with
  | .encu, none => (atEnd (readNat t)).map .encu
  | .decc, none => (atEnd (readBytes t)).map .decc
  | .zze, none => (atEnd (readInt t)).map .zze
  | .zzd, none => (atEnd (readNat t)).map .zzd
  | .encl, none => (atEnd (readList readNat t)).map .encl
  | .decl, none => (atEnd (readBytes t)).map .decl
  | .encu, some _ | .decc, some _ | .zze, some _ | .zzd, some _ | .encl, some _ | .decl, some _ => none
  | .scale, p => (atEnd (readFloat t)).map (.scale p)
  | .encp, p => (atEnd (readList readPointText t)).map (.encp p)
  | .decp, p => (atEnd (readBytes t)).map (.decp p)
  | .facadeEnc, p =>
    (readList readPointText t).bind fun r => (readLevelsPart (readList readNat) r.2).map (.facadeEnc p r.1)
  | .facadeDec, p => (readBytes t).bind fun r => (readLevelsPart readBytes r.2).map (.facadeDec p r.1)

/-- A line of text, read (30 R95, R96): `MNEMONIC[.P precision] operands`, with an optional comment. -/
def readLine (text : List Char) : Option Line :=
  let t := skipBlanks (stripComment false text)
  let w := t.takeWhile fun c => !isBlank c
  let rest := skipBlanks (t.drop w.length)
  match readOp w with
  | none => none
  | some (o, false) => readOperands o none rest
  | some (o, true) =>
    match readFloat rest with
    | none => none
    | some (p, rest) => readOperands o (some p) (skipBlanks rest)

/-- A line of text assembled into host actions, if its literals fit the ports. -/
def assemble (text : List Char) : Option (List HostAction) :=
  match readLine text with
  | some l => if l.wellFormed then some (lineActions l) else none
  | none => none

/-- The value of a successful command, by kind (30 R94). -/
inductive ReportValue where
  | unsigned (u : Nat)
  | signed (v : Int)
  | bytes (bs : List Byte)
  | levels (ls : List Level)
  | points (ps : List Point)
  deriving DecidableEq, Repr

/-- What is written after `=>`: `OK value`, or `FAIL <fault name> @<ERRPOS>` (30 R95). -/
inductive Report where
  | ok (v : ReportValue)
  | fail (f : FaultKind) (errpos : Nat)
  deriving DecidableEq, Repr

/-- The fault a code of `STATUS` names (60 R200). -/
def faultOfCode (c : BitVec 3) : Option FaultKind :=
  [FaultKind.truncatedChunk, .overflowChunk, .invalidByte, .illegalCommand].find? fun f => faultCode f == c

/-- The value of command `i`, ended without a fault in this state (30 R94). A wire symbol is no command and reports nothing. -/
def reportValue (i : Instr) (s : State) : Option ReportValue :=
  match i with
  | .decc | .zze => some (.unsigned s.rval.toNat)
  | .zzd | .scale _ => some (.signed s.rval.toInt)
  | .encu | .encp _ | .encl => some (.bytes (outBytes s))
  | .decp _ => some (.points (outPoints s))
  | .decl => some (.levels (outLevels s))
  | .wireTerminator _ | .wireContinuation _ => none

/-- The report of command `i` that has just ended: `STATUS` is read before anything else (70 R233 d). -/
def report (i : Instr) (s : State) : Option Report :=
  match faultOfCode s.status with
  | some f => some (.fail f s.errpos)
  | none => (reportValue i s).map .ok

end Sys2Proof.Machine
end

