-- ==== Sys2Proof/Tests/Slice0.lean ====
section
/-! SUPPORT. Tests: the spec's encodings and worked vectors (95_test_vectors.md), ill-formed lines, and a witness for the hypotheses of each statement. Expected
results are the spec's, never the model's. -/

namespace Sys2Proof.Machine.Test

open Sys2Proof Sys2Proof.Machine

set_option Elab.async false

/-- The outcome is a next state with this property. -/
def answers (r : Result) (p : State → Bool) : Bool :=
  match r with
  | .next t => p t
  | .fault _ | .refused _ => false

theorem exists_next {r : Result} {p : State → Bool} (h : answers r p = true) : ∃ t, r = .next t ∧ p t = true := by
  cases r with
  | next t => exact ⟨t, rfl, h⟩
  | fault f => simp [answers] at h
  | refused q => simp [answers] at h

/-- The outcome is this refusal. -/
def refuses (r : Result) (q : Refusal) : Bool :=
  match r with
  | .refused q' => decide (q' = q)
  | .next _ | .fault _ => false

/-- IN holding elements, `IN_LEN` set, the block idle. -/
def idleWith (es : List Elem) : State :=
  { State.reset with inp := es.zipIdx.map fun p => (p.2, p.1), inLen := es.length }

/-- IN holding bytes given as numbers. -/
def idleBytes (ns : List Nat) : State := idleWith (ns.map fun n => .byte (BitVec.ofNat 8 n))

/-- IN holding the levels. -/
def idleLevels (ns : List Nat) : State := idleWith (ns.map fun n => .level (BitVec.ofNat 32 n))

/-- IN holding the points, given as patterns. -/
def idlePoints (ps : List (Nat × Nat)) : State :=
  idleWith (ps.map fun p => .point ⟨BitVec.ofNat 64 p.1, BitVec.ofNat 64 p.2⟩)

/-- The bytes of a result, as numbers. -/
def bytesOut (t : State) : List Nat := (outBytes t).map BitVec.toNat

/-- A `DECC` over these bytes, right after command start. -/
def midDecc (ns : List Nat) : State := commandStart .decc (idleBytes ns)

/-- `midDecc` over seven continuation bytes with six groups accepted, all of value 31 (95 P5). -/
def midDeccFull : State :=
  { midDecc [126, 126, 126, 126, 126, 126, 63] with
    acc := 0x3FFFFFFF#30, shift := 30#5, gcnt := 6#3, cursor := 6 }

/-- An `ENCU` inside `EncodeValue`, with this in `V`. -/
def midEncu (v : BitVec 35) : State := encodeStart v (commandStart .encu State.reset)

/-! ## Decoding, from 30 R80, R89, R90, R92, R93 -/

theorem test_decode_encu : decode .command 0b000_0_0001#8 = .ok .encu := rfl
theorem test_decode_decc : decode .command 0b000_0_0010#8 = .ok .decc := rfl
theorem test_decode_zze : decode .command 0b000_0_0011#8 = .ok .zze := rfl
theorem test_decode_zzd : decode .command 0b000_0_0100#8 = .ok .zzd := rfl
theorem test_decode_scale : decode .command 0b000_0_0101#8 = .ok (.scale false) := rfl
theorem test_decode_scale_psel : decode .command 0b000_1_0101#8 = .ok (.scale true) := rfl
theorem test_decode_encp : decode .command 0b000_0_0110#8 = .ok (.encp false) := rfl
theorem test_decode_encp_psel : decode .command 0b000_1_0110#8 = .ok (.encp true) := rfl
theorem test_decode_decp : decode .command 0b000_0_0111#8 = .ok (.decp false) := rfl
theorem test_decode_decp_psel : decode .command 0b000_1_0111#8 = .ok (.decp true) := rfl
theorem test_decode_encl : decode .command 0b000_0_1000#8 = .ok .encl := rfl
theorem test_decode_decl : decode .command 0b000_0_1001#8 = .ok .decl := rfl
/-- Byte 83 `S` is raw 20: a terminator, group 20 (R81). -/
theorem test_decode_terminator : decode .wire 83#8 = .ok (.wireTerminator 0b10100#5) := rfl
/-- Byte 110 `n` is raw 47: continuation, group 15 (R81). -/
theorem test_decode_continuation : decode .wire 110#8 = .ok (.wireContinuation 0b01111#5) := rfl
theorem test_decode_byte_62 : decode .wire 62#8 = .error .outsideAlphabet := rfl
theorem test_decode_byte_127 : decode .wire 127#8 = .error .outsideAlphabet := rfl
theorem test_decode_reserved : decode .command 0x26#8 = .error .reservedBitsSet := rfl
theorem test_decode_psel_not_taken : decode .command 0x11#8 = .error .precisionSelectNotTaken := rfl
theorem test_decode_opcode_10 : decode .command 0x0A#8 = .error .unknownOpcode := rfl
theorem test_table_word_command : decodeTableWord 8 0x05 = some (.scale false) := rfl
theorem test_table_word_symbol : decodeTableWord 6 0x20 = some (.wireContinuation 0#5) := rfl
theorem test_table_word_symbol_byte : decodeTableWord 8 0x00 = some (.wireTerminator 0#5) := rfl

/-! ## Ill-formed lines: one for each check of `Line.wellFormed` -/

theorem test_wf_encu : Line.wellFormed (.encu (2 ^ 35 - 1)) = true ∧ Line.wellFormed (.encu (2 ^ 35)) = false := by decide
theorem test_wf_zze_low : Line.wellFormed (.zze (-2 ^ 32)) = true ∧ Line.wellFormed (.zze (-2 ^ 32 - 1)) = false := by decide
theorem test_wf_zze_high : Line.wellFormed (.zze (2 ^ 32 - 1)) = true ∧ Line.wellFormed (.zze (2 ^ 32)) = false := by decide
theorem test_wf_zzd : Line.wellFormed (.zzd (2 ^ 33 - 1)) = true ∧ Line.wellFormed (.zzd (2 ^ 33)) = false := by decide
theorem test_wf_encl : Line.wellFormed (.encl [2 ^ 32 - 1]) = true ∧ Line.wellFormed (.encl [0, 2 ^ 32]) = false := by decide
theorem test_wf_precision_zero : Line.wellFormed (.scale (some 0#64) 0#64) = false := by decide
theorem test_wf_precision_negative : Line.wellFormed (.decp (some 0xC0F86A0000000000#64) []) = false := by decide
theorem test_wf_precision_infinite : Line.wellFormed (.encp (some 0x7FF0000000000000#64) []) = false := by decide
theorem test_wf_facade_level : Line.wellFormed (.facadeEnc none [] (some [2 ^ 32])) = false := by decide
theorem test_wf_facade_precision : Line.wellFormed (.facadeDec (some 0#64) [] none) = false := by decide

/-! ## Worked vectors -/

/-- V-ENCU 14: 7700000 is `_p~iF`. -/
theorem test_encu_five_groups :
    answers (exec .encu { State.reset with opa := 7700000#35 }) (fun t => bytesOut t == [0x5F, 0x70, 0x7E, 0x69, 0x46]) = true := by
  decide +kernel
/-- V-ENCU 1: 0 is the one byte 63. -/
theorem test_encu_zero : answers (exec .encu State.reset) (fun t => bytesOut t == [63]) = true := by decide +kernel
/-- 40 R110, worked example: the first pass of 255 emits `31 | 0x20` plus 63 and leaves 7 in `V`; the loop goes on. -/
theorem test_encode_pass :
    answers (step (midEncu 255#35)) (fun t => bytesOut t == [126] && decide (t.v = 7#35) && decide (t.est = .passing) && t.busy) = true := by
  decide +kernel
/-- 93 U9: `OPA` written while BUSY = 1. -/
theorem test_operand_write_while_busy :
    refuses (step { midEncu 255#35 with host := [.writeOpa 1#35] }) .operandWriteWhileBusy = true := by decide
/-- V-DECC 11: the largest value. -/
theorem test_decc_largest :
    answers (exec .decc (idleBytes [0x7E, 0x7E, 0x7E, 0x7E, 0x7E, 0x5E]))
      (fun t => decide (t.rval = 1073741823#35) && decide (t.consumed = 6#3) && decide (t.status = 0#3)) = true := by decide +kernel
/-- V-DECC 19: check 2 comes before check 3. -/
theorem test_decc_overflow_first :
    answers (exec .decc (idleBytes [0x7E, 0x7E, 0x7E, 0x7E, 0x7E, 0x7E, 0x00]))
      (fun t => decide (t.status = 2#3) && decide (t.errpos = 6) && decide (t.rval = 0#35)) = true := by decide +kernel
/-- V-ZZ 15: −(2^32 − 1), with ignored bits 34:33 set. -/
theorem test_zze_ignores_high_bits :
    answers (exec .zze { State.reset with opa := 0x700000001#35 }) (fun t => decide (t.rval = 8589934589#35)) = true := by decide +kernel
/-- V-ZZ 16: 2^33 − 1 is −2^32. -/
theorem test_zzd_extreme :
    answers (exec .zzd { State.reset with opa := 8589934591#35 }) (fun t => decide (t.rval = 0x700000000#35)) = true := by decide +kernel
/-- V-SCALE 7: a tie, negative, away from zero. -/
theorem test_scale_negative_tie :
    answers (exec (.scale false) { State.reset with opf := 0xBEFA36E2EB1C432D#64 }) (fun t => decide (t.rval = 0x7FFFFFFFD#35)) = true := by
  decide +kernel
/-- V-SCALE 11: the binary64 product is rounded, not the exact one. -/
theorem test_scale_rounds_product :
    answers (exec (.scale true) { State.reset with opf := 0x3FC3333333333333#64, precIn := 0x4024000000000000#64 })
      (fun t => decide (t.rval = 2#35)) = true := by decide +kernel
/-- V-SCALE 25: refused, U4. -/
theorem test_scale_out_of_range :
    refuses (exec (.scale false) { State.reset with opf := 0x40D4F8B588CE703B#64 }) .scaledOutOfRange = true := by decide +kernel
/-- V-ENCP 5: deltas (1, 2), (2, −1). -/
theorem test_encp_deltas :
    answers (exec (.encp false) (idlePoints [(0x3EE4F8B588E368F1, 0x3EF4F8B588E368F1), (0x3EFF75104D551D69, 0x3EE4F8B588E368F1)]))
      (fun t => bytesOut t == [0x41, 0x43, 0x43, 0x40]) = true := by decide +kernel
/-- E7a: precision 1e6. -/
theorem test_encp_precision :
    answers (exec (.encp true) { idlePoints [(0x40243F35B771F1B5, 0x40243F35B771F1B5)] with precIn := 0x412E848000000000#64 })
      (fun t => bytesOut t == [0x61, 0x6B, 0x7B, 0x68, 0x52, 0x61, 0x6B, 0x7B, 0x68, 0x52]) = true := by decide +kernel
/-- V-DECP 15: the running sum, one unit in the last place above the nearest. -/
theorem test_decp_running_sum :
    answers (exec (.decp false) (idleBytes [0x41, 0x43, 0x43, 0x40]))
      (fun t => decide (outPoints t = [⟨0x3EE4F8B588E368F1#64, 0x3EF4F8B588E368F1#64⟩, ⟨0x3EFF75104D551D6A#64, 0x3EE4F8B588E368F1#64⟩])) = true := by
  decide +kernel
/-- V-DECP 12: a space between two values; nothing is kept. -/
theorem test_decp_invalid_byte :
    answers (exec (.decp false) (idleBytes [0x5F, 0x70, 0x7E, 0x69, 0x46, 0x20, 0x7E, 0x70, 0x73, 0x7C, 0x55]))
      (fun t => decide (t.status = 3#3) && decide (t.errpos = 5) && decide (t.ocnt = 0)) = true := by decide +kernel
/-- V-ENCL 9: the largest level takes seven bytes. -/
theorem test_encl_largest :
    answers (exec .encl (idleLevels [4294967295])) (fun t => bytesOut t == [0x7E, 0x7E, 0x7E, 0x7E, 0x7E, 0x7E, 0x42]) = true := by
  decide +kernel
/-- E6b. -/
theorem test_decl_levels :
    answers (exec .decl (idleBytes [0x3F, 0x40, 0x41, 0x42, 0x7E, 0x46])) (fun t => decide (outLevels t = [0#32, 1#32, 2#32, 3#32, 255#32])) = true := by
  decide +kernel
/-- V-DECL 15: four levels discarded. -/
theorem test_decl_truncated :
    answers (exec .decl (idleBytes [0x3F, 0x40, 0x41, 0x42, 0x7E]))
      (fun t => decide (t.status = 1#3) && decide (t.errpos = 5) && (outLevels t).isEmpty) = true := by decide +kernel
/-- P5, ChunkStep 1 of `~F`: raw 63 leaves the machine accumulating. -/
theorem test_wire_continuation :
    answers (step (midDecc [0x7E, 0x46]))
      (fun t => decide (t.acc = 31#30) && decide (t.shift = 5#5) && decide (t.gcnt = 1#3) && decide (t.cursor = 1) && decide (t.cst = .accumulate)) = true := by
  decide +kernel
/-- P5, ChunkStep 2 of `~F`: 31 | (7 << 5) = 255, DONE. -/
theorem test_wire_terminator :
    answers (step { midDecc [0x7E, 0x46] with acc := 31#30, shift := 5#5, gcnt := 1#3, cursor := 1 })
      (fun t => decide (t.acc = 255#30) && decide (t.shift = 10#5) && decide (t.gcnt = 2#3) && decide (t.cst = .done)) = true := by
  decide +kernel
/-- V-CMD 6: ENCL with PSEL is illegal. -/
theorem test_illegal_command :
    answers (step { State.reset with host := [.command 0x18#8] }) (fun t => decide (t.status = 4#3) && decide (t.ocnt = 0) && !t.busy) = true := by
  decide +kernel
/-- 95 P2: the facade of one good and one damaged stream. -/
theorem test_facade_dec :
    (match facadeDec none [0x5F#8, 0x70#8, 0x7E#8, 0x69#8, 0x46#8, 0x7E#8, 0x70#8, 0x73#8, 0x7C#8, 0x55#8]
        (some [0x3F#8, 0x40#8, 0x41#8, 0x42#8, 0x7E#8]) State.reset with
      | .next (sn, _) =>
        decide (sn.coordinates = some [⟨0x4043400000000000#64, 0xC05E0CCCCCCCCCCD#64⟩]) && decide (sn.levels = none)
      | .fault _ | .refused _ => false) = true := by decide +kernel
/-- The literals 38.5 and −120.2 (E5). -/
theorem test_literals :
    f64OfDecimal false 385 (-1) = 0x4043400000000000#64 ∧ f64OfDecimal true 1202 (-1) = 0xC05E0CCCCCCCCCCD#64 := by decide +kernel

/-- V-SCALE 11 as text: `SCALE.P 10.0  0.15 ;a`; the two patterns are those of 42 R141. -/
theorem test_line_scale :
    readLine ['S', 'C', 'A', 'L', 'E', '.', 'P', ' ', '1', '0', '.', '0', ' ', ' ', '0', '.', '1', '5', ' ', ';', 'a'] =
      some (.scale (some 0x4024000000000000#64) 0x3FC3333333333333#64) := by decide +kernel
/-- `DECL "?\"`: the backslash is a byte (30 R81, R95). -/
theorem test_line_backslash :
    readLine ['D', 'E', 'C', 'L', ' ', '"', '?', Char.ofNat 92, '"'] = some (.decl [63#8, 92#8]) := by decide +kernel
/-- `ENCU.P 1 3`: a command without precision has no form with `.P` (30 R95). -/
theorem test_line_no_precision : readLine ['E', 'N', 'C', 'U', '.', 'P', ' ', '1', ' ', '3'] = none := by decide +kernel
/-- V-DECC 6 as text in hexadecimal: `DECC x"7E 46"` reports `OK 255`. -/
theorem test_line_report :
    (match assemble ['D', 'E', 'C', 'C', ' ', 'x', '"', '7', 'E', ' ', '4', '6', '"'] with
      | some as => answers (performAll as State.reset) fun t => decide (report .decc t = some (.ok (.unsigned 255)))
      | none => false) = true := by decide +kernel

/-! ## Witnesses: a state and operands that meet the hypotheses of each statement -/

theorem witness_IllegalCommandWords :
    (decodeCommand 0x0F#8).toOption = none ∧
      ({ State.reset with host := [.command 0x0F#8, .wait] } : State).busy = false := by decide
theorem witness_IllegalCommandWords_writeCmd :
    (decodeCommand 0x81#8).toOption = none ∧ ({ State.reset with host := [.writeCmd 0x81#8] } : State).host = .writeCmd 0x81#8 :: [] := by decide
theorem witness_StepRunsDecodedCommand :
    ({ State.reset with host := [.command 0x17#8] } : State).busy = false ∧ decode .command 0x17#8 = .ok (.decp true) := ⟨rfl, rfl⟩
theorem witness_StepRunsDecodedSymbol :
    (midDecc [0x7E, 0x46]).busy = true ∧ isDecodeOp (midDecc [0x7E, 0x46]).op = true ∧ (midDecc [0x7E, 0x46]).cst = .accumulate ∧
      (midDecc [0x7E, 0x46]).cursor < (midDecc [0x7E, 0x46]).len ∧ (midDecc [0x7E, 0x46]).gcnt ≠ 6#3 ∧
      (midDecc [0x7E, 0x46]).host = [] ∧ decode .wire (byteAt (midDecc [0x7E, 0x46]) 0) = .ok (.wireContinuation 31#5) :=
  ⟨rfl, rfl, rfl, by decide, by decide, rfl, rfl⟩
/-- The other two forms of `StepRunsDecodedSymbol`: the host waits, or lets the block make one micro-step; the other conditions are the same. -/
theorem witness_StepRunsDecodedSymbol_hosts :
    ({ midDecc [0x7E, 0x46] with host := [.wait] } : State).host = .wait :: [] ∧
      ({ midDecc [0x7E, 0x46] with host := [.pass, .wait] } : State).host = .pass :: [.wait] ∧
      ({ midDecc [0x7E, 0x46] with host := [.pass, .wait] } : State).busy = true := ⟨rfl, rfl, rfl⟩
theorem witness_CommandStartInitialises :
    ({ State.reset with host := [.writeCmd 0x15#8] } : State).busy = false ∧
      ({ State.reset with host := [.writeCmd 0x15#8] } : State).host = .writeCmd 0x15#8 :: [] ∧
      decode .command 0x15#8 = .ok (.scale true) ∧
      precisionOk (precisionOf ((0x15#8).getLsbD 4) { State.reset with host := [.writeCmd 0x15#8] }) = true :=
  ⟨rfl, rfl, rfl, by decide +kernel⟩
theorem witness_IdleBlockStays : State.reset.busy = false ∧ State.reset.host = [] := ⟨rfl, rfl⟩
theorem witness_ResetClearsResults : ({ midDeccFull with host := [.reset] } : State).host = .reset :: [] := rfl
theorem witness_ProtocolViolationsRefused :
    ({ midDeccFull with host := [.command 1#8] } : State).busy = true ∧
      ({ midDeccFull with host := [.writeCmd 1#8] } : State).busy = true ∧
      ({ midDeccFull with host := [.writeInLen 3] } : State).busy = true ∧
      ({ midDeccFull with host := [.writeIn 0 (.byte 0#8)] } : State).busy = true ∧
      ({ midDeccFull with host := [.writeOpa 1#35] } : State).busy = true ∧
      ({ midDeccFull with host := [.writeOpf 0#64] } : State).busy = true ∧
      ({ midDeccFull with host := [.writePrecIn 0#64] } : State).busy = true := ⟨rfl, rfl, rfl, rfl, rfl, rfl, rfl⟩
theorem witness_OperandsAreLatched :
    ({ State.reset with host := [.writeOpa 1#35] } : State).busy = false ∧
      ({ State.reset with host := [.writeIn 2 (.byte 63#8)] } : State).host = .writeIn 2 (.byte 63#8) :: [] ∧
      (midDecc [63]).busy = true ∧ answers (blockStep { midDecc [63] with opa := 1#35 }) (fun t => t.busy) = true :=
  ⟨rfl, rfl, rfl, by decide +kernel⟩
theorem witness_HostReadsAffectNothing :
    ({ midDeccFull with host := [.read .status] } : State).host = .read .status :: [] ∧
      (let s : State := { State.reset with ocnt := 1, out := [(0, .byte 63#8)] };
        s.busy = false ∧ 0 < s.ocnt ∧ spaceRead s.out 0 = some (.byte 63#8)) := ⟨rfl, rfl, by decide, rfl⟩
/-- `u = 0` and `u = 2^35 − 1`, the ends of the operand's range. -/
theorem witness_EncuEncodesValue :
    ({ State.reset with opa := 0#35 } : State).busy = false ∧ ({ State.reset with opa := 0x7FFFFFFFF#35 } : State).busy = false :=
  ⟨rfl, rfl⟩
/-- An ENCU in the middle of its loop, with more groups to come and at its last group. -/
theorem witness_EncodeValueByPasses :
    (midEncu 255#35).busy = true ∧ (midEncu 255#35).op = 1#4 ∧ (midEncu 255#35).est = .passing ∧ (255#35) >>> 5 ≠ 0#35 ∧
      (7#35) >>> 5 = 0#35 ∧ (encodeValue 255#35 State.reset).ocnt = 2 := by decide
theorem witness_EncuOutputIsCanonical :
    ∃ t, exec .encu { State.reset with opa := 32#35 } = .next t ∧
      (decide (outBytes t <+: outBytes t) && decide (0 < (32#35).toNat)) = true :=
  exists_next (p := fun t => decide (outBytes t <+: outBytes t) && decide (0 < (32#35).toNat)) (by decide +kernel)
/-- No group taken yet, and five taken (the last that may be followed by one more). -/
theorem witness_WireSymbolsAccumulate :
    ((midDecc [63]).gcnt.toNat < 6 ∧ (midDecc [63]).shift.toNat = 5 * (midDecc [63]).gcnt.toNat ∧
      (midDecc [63]).acc.toNat < 2 ^ (5 * (midDecc [63]).gcnt.toNat)) ∧
    (let s : State := { midDeccFull with acc := 0x1FFFFFF#30, shift := 25#5, gcnt := 5#3, cursor := 5 };
      s.busy = true ∧ isDecodeOp s.op = true ∧ s.cst = .accumulate ∧ s.cursor < s.len ∧ s.gcnt.toNat < 6 ∧
        s.shift.toNat = 5 * s.gcnt.toNat ∧ s.acc.toNat < 2 ^ (5 * s.gcnt.toNat)) := by decide
theorem witness_WireSymbolsTrap :
    ((midDecc []).busy = true ∧ isDecodeOp (midDecc []).op = true ∧ (midDecc []).cst = .accumulate ∧ (midDecc []).len ≤ (midDecc []).cursor) ∧
    (midDeccFull.busy = true ∧ isDecodeOp midDeccFull.op = true ∧ midDeccFull.cst = .accumulate ∧ midDeccFull.cursor < midDeccFull.len ∧
      midDeccFull.gcnt = 6#3) ∧
    ¬ (State.reset.busy = true ∧ isDecodeOp State.reset.op = true ∧ State.reset.cst = .accumulate) := by decide
/-- Exhaustion with six groups taken, the seventh byte present, and bytes 62 and 127. -/
theorem witness_ChunkStepFaults :
    (({ midDeccFull with len := 6 } : State).len ≤ midDeccFull.cursor ∧ midDeccFull.busy = true ∧ isDecodeOp midDeccFull.op = true ∧
      midDeccFull.cst = .accumulate) ∧
    (midDeccFull.cursor < midDeccFull.len ∧ midDeccFull.gcnt = 6#3) ∧
    ((midDecc [62]).cursor < (midDecc [62]).len ∧ (midDecc [62]).gcnt ≠ 6#3 ∧ (byteAt (midDecc [62]) 0).toNat < 63) ∧
    126 < (byteAt (midDecc [127]) 0).toNat := by decide
theorem witness_DecodeValueClosedForm :
    (midDecc [0x7E, 0x46]).busy = true ∧ isDecodeOp (midDecc [0x7E, 0x46]).op = true ∧
      decodeOne (bytesFromCursor (midDecc [0x7E, 0x46])) = .ok (255, 2) ∧
      decodeOne (bytesFromCursor (midDecc [0x5F, 0x20])) = .error (.invalidByte, 1) ∧
      decodeOne (bytesFromCursor (midDecc [95, 95, 95, 95, 95, 95])) = .error (.truncatedChunk, 6) ∧
      decodeOne (bytesFromCursor (midDecc [95, 95, 95, 95, 95, 95, 63])) = .error (.overflowChunk, 6) ∧
      decodeOne (bytesFromCursor (midDecc [95])) = .error (.truncatedChunk, 1) := by decide
theorem witness_DeccDecodesOneValue :
    (idleBytes [0x41, 0x00]).busy = false ∧ decodeOne (inputBytes (idleBytes [0x41, 0x00])) = .ok (2, 1) ∧
      decodeOne (inputBytes (idleBytes [])) = .error (.truncatedChunk, 0) := by decide
theorem witness_EveryChunkSequenceAccepted :
    (idleBytes [95, 95, 95, 95, 95, 63]).busy = false ∧
      (∀ c ∈ ([95#8, 95#8, 95#8, 95#8, 95#8] : List Byte), isContinuation c = true) ∧ isTerminator 63#8 = true ∧
      inputBytes (idleBytes [95, 95, 95, 95, 95, 63]) = [95#8, 95#8, 95#8, 95#8, 95#8] ++ 63#8 :: [] := by decide
/-- The largest value that decodes, and the smallest that does not. -/
theorem witness_ChunkCodecRoundTrip :
    (∃ t, exec .encu { State.reset with opa := 1073741823#35 } = .next t ∧
      decide (inputBytes (idleBytes [126, 126, 126, 126, 126, 94, 0]) = outBytes t ++ [0#8]) = true) ∧
    (∃ t, exec .encu { State.reset with opa := 1073741824#35 } = .next t ∧
      decide (inputBytes (idleBytes [95, 95, 95, 95, 95, 95, 64]) = outBytes t ++ []) = true) :=
  ⟨exists_next (p := fun t => decide (inputBytes (idleBytes [126, 126, 126, 126, 126, 94, 0]) = outBytes t ++ [0#8])) (by decide +kernel),
    exists_next (p := fun t => decide (inputBytes (idleBytes [95, 95, 95, 95, 95, 95, 64]) = outBytes t ++ [])) (by decide +kernel)⟩
theorem witness_ZzeZigzags :
    ({ State.reset with opa := 0x100000000#35 } : State).busy = false ∧ ((0x100000000#35).setWidth 33).toInt < 0 := by decide
theorem witness_ZzdUnzigzags :
    ({ State.reset with opa := 3#35 } : State).busy = false ∧ ((3#35).setWidth 33).toNat % 2 = 1 := by decide
theorem witness_ZigzagIsBijective :
    (∃ t, exec .zze { State.reset with opa := 1#35 } = .next t ∧ decide (t.rval = 2#35) = true) ∧
    (∃ t, exec .zzd { State.reset with opa := 2#35 } = .next t ∧ decide (t.rval = 1#35) = true) :=
  ⟨exists_next (p := fun t => decide (t.rval = 2#35)) (by decide +kernel), exists_next (p := fun t => decide (t.rval = 1#35)) (by decide +kernel)⟩
/-- 3/2 units of 2^-1074 lie half way between 1 and 2 units: a tie. -/
theorem witness_RoundsToNearestEven :
    (0 < 2 * unitsPerOne ∧ roundNearest 3 (2 * unitsPerOne) < infinityBits ∧ f64Finite 1#64 = true) ∧
      f64Magnitude 1#64 ≠ f64Magnitude (f64Of false (roundNearest 3 (2 * unitsPerOne))) := by decide +kernel
theorem witness_RoundingOverflowsAtTheLimit :
    roundNearest (2 ^ 1024 - 2 ^ 970) 1 = infinityBits ∧ roundNearest (2 ^ 1024 - 2 ^ 970 - 1) 1 ≠ infinityBits := by decide +kernel
theorem witness_ExactResultsAreExact :
    (9007199254740992 : Int).natAbs ≤ 2 ^ 53 ∧ f64Finite 0x3FF0000000000000#64 = true ∧ f64Units 0x4000000000000000#64 ≠ 0 ∧
      f64Units 0x3FF0000000000000#64 + f64Units 0x3FF0000000000000#64 = f64Units 0x4000000000000000#64 ∧
      f64Units 0x3FF0000000000000#64 * f64Units 0x4000000000000000#64 = f64Units 0x4000000000000000#64 * (unitsPerOne : Nat) ∧
      f64Units 0x4000000000000000#64 * (unitsPerOne : Nat) = f64Units 0x4000000000000000#64 * f64Units 0x3FF0000000000000#64 := by
  decide +kernel
/-- 1.5 × 2^-1074 from 3 × 2^-1074 times 0.5 (a tie), and an overflow. -/
theorem witness_FmulRoundsToNearestEven :
    f64Finite 3#64 = true ∧ f64Finite 0x3FE0000000000000#64 = true ∧
      (f64Units 3#64 * f64Units 0x3FE0000000000000#64).natAbs < (2 ^ 1024 - 2 ^ 970) * (unitsPerOne * unitsPerOne) ∧
      (2 ^ 1024 - 2 ^ 970) * (unitsPerOne * unitsPerOne) ≤ (f64Units 0x7FE0000000000000#64 * f64Units 0xC000000000000000#64).natAbs := by
  decide +kernel
theorem witness_FdivRoundsToNearestEven :
    f64Finite 0x3FF0000000000000#64 = true ∧ f64Finite 0xC008000000000000#64 = true ∧ f64Units 0xC008000000000000#64 ≠ 0 ∧
      (f64Units 0x3FF0000000000000#64).natAbs < (2 ^ 1024 - 2 ^ 970) * (f64Units 0xC008000000000000#64).natAbs ∧
      (2 ^ 1024 - 2 ^ 970) * (f64Units 1#64).natAbs ≤ (f64Units 0x7FE0000000000000#64).natAbs := by decide +kernel
theorem witness_FaddRoundsToNearestEven :
    f64Finite 0x3FF0000000000000#64 = true ∧ f64Finite 0xBFF0000000000000#64 = true ∧
      f64Units 0x3FF0000000000000#64 + f64Units 0xBFF0000000000000#64 = 0 ∧ f64Negative 0x3FF0000000000000#64 ≠ f64Negative 0xBFF0000000000000#64 ∧
      f64Units 0x3FF0000000000000#64 + f64Units 1#64 ≠ 0 ∧
      (2 ^ 1024 - 2 ^ 970) * unitsPerOne ≤ (f64Units 0x7FEFFFFFFFFFFFFF#64 + f64Units 0x7FEFFFFFFFFFFFFF#64).natAbs := by decide +kernel
/-- 2^53 + 1, the first integer that is rounded, and one beyond the finite range. -/
theorem witness_I2fRoundsToNearestEven :
    (2 ^ 53 + 1 : Int).natAbs < (2 ^ 1024 - 2 ^ 970) * (1 : Int).natAbs ∧ (2 ^ 1024 - 2 ^ 970) * (1 : Int).natAbs ≤ (2 ^ 1024 : Int).natAbs := by
  decide +kernel
theorem witness_RhazRoundsHalfAwayFromZero :
    (f64Finite 0x8000000000000000#64 = true ∧ 0 ≤ f64Units 0x8000000000000000#64) ∧
      (f64Finite 0xBFE0000000000000#64 = true ∧ f64Units 0xBFE0000000000000#64 < 0) ∧
      f64Units 0x3FF0000000000000#64 = 1 * (unitsPerOne : Nat) ∧
      2 ^ 52 * unitsPerOne ≤ (f64Units 0x4330000000000000#64).natAbs := by decide +kernel
/-- V-SCALE 23 and 24: the ends of the i32 range. -/
theorem witness_ScaleScales :
    (let s : State := { State.reset with opf := 0x40D4F8B588B97785#64 };
      s.busy = false ∧ precisionOk (precisionOf false s) = true ∧ f64Finite s.opf = true ∧
        f64Finite (fmul s.opf (precisionOf false s)) = true ∧ rhaz (fmul s.opf (precisionOf false s)) = 2 ^ 31 - 1) ∧
    (let s : State := { State.reset with opf := 0xC0D4F8B588E368F1#64 };
      s.busy = false ∧ precisionOk (precisionOf true s) = true ∧ f64Finite s.opf = true ∧
        f64Finite (fmul s.opf (precisionOf true s)) = true ∧ rhaz (fmul s.opf (precisionOf true s)) = -2 ^ 31) := by decide +kernel
/-- V-SCALE 26, 28, 30, 25: one state for each refusal. -/
theorem witness_ScaleDomainRefusals :
    precisionOk (precisionOf true { State.reset with precIn := 0#64 }) = false ∧
    (precisionOk (precisionOf false State.reset) = true ∧ f64Finite 0x7FF8000000000000#64 = false) ∧
    (precisionOk 0x7FE1CCF385EBC8A0#64 = true ∧ f64Finite 0x4202A05F20000000#64 = true ∧
      f64Finite (fmul 0x4202A05F20000000#64 0x7FE1CCF385EBC8A0#64) = false) ∧
    (f64Finite 0x40D4F8B588CE703B#64 = true ∧ f64Finite (fmul 0x40D4F8B588CE703B#64 0x40F86A0000000000#64) = true ∧
      2 ^ 31 - 1 < rhaz (fmul 0x40D4F8B588CE703B#64 0x40F86A0000000000#64)) ∧
    (f64Finite 0xC0E4F8B588CE703B#64 = true ∧ f64Finite (fmul 0xC0E4F8B588CE703B#64 0x40F86A0000000000#64) = true ∧
      rhaz (fmul 0xC0E4F8B588CE703B#64 0x40F86A0000000000#64) < -2 ^ 31) := by decide +kernel
theorem witness_DeltaNeverWraps : fitsI32 (2 ^ 31 - 1) = true ∧ fitsI32 (-2 ^ 31) = true := by decide
theorem witness_ZeroDeltaLeavesAccumulator :
    accumulatorOk 0x4043400000000000#64 = true ∧ precisionOk 0x40F86A0000000000#64 = true ∧
      accumulate 0x4043400000000000#64 220000 0x40F86A0000000000#64 = .ok 0x404459999999999A#64 := by decide +kernel
theorem witness_EncpEncodesPoints :
    (idlePoints [(0x3EE4F8B588E368F1, 0x3EF4F8B588E368F1)]).busy = false ∧ precisionOk (precisionOf false State.reset) = true ∧
      precisionOk (precisionOf true { State.reset with precIn := 0x8000000000000000#64 }) = false ∧
      scaledPairs 0x40F86A0000000000#64 (inputPoints (idlePoints [(0x3EE4F8B588E368F1, 0x3EF4F8B588E368F1)])) = .ok [(1, 2)] ∧
      scaledPairs 0x40F86A0000000000#64 (inputPoints (idlePoints [(0x7FF0000000000000, 0)])) = .error .coordinateNotFinite := by
  decide +kernel
theorem witness_DecpDecodesPoints :
    (idleBytes [65, 65]).busy = false ∧ precisionOk (precisionOf true State.reset) = true ∧
      precisionOk (precisionOf true { State.reset with precIn := 0x7FF0000000000000#64 }) = false ∧
      decodePoints 0x40F86A0000000000#64 2 0 0#64 0#64 (inputBytes (idleBytes [65, 65])) = .ok [⟨0x3EE4F8B588E368F1#64, 0x3EE4F8B588E368F1#64⟩] ∧
      decodePoints 0x40F86A0000000000#64 1 0 0#64 0#64 (inputBytes (idleBytes [63])) = .error (.fault .truncatedChunk 1) ∧
      decodePoints 1#64 2 0 0#64 0#64 (inputBytes (idleBytes [65, 65])) = .error (.outside .accumulatorNotFinite) := by decide +kernel
theorem witness_EnclEncodesLevels : (idleLevels [0, 4294967295]).busy = false := rfl
theorem witness_DeclDecodesLevels :
    (idleBytes [63, 126, 70]).busy = false ∧ decodeAll (inputBytes (idleBytes [63, 126, 70])) = .ok [0, 255] ∧
      decodeAll (inputBytes (idleBytes [63, 126])) = .error (.truncatedChunk, 2) := by decide
theorem witness_LevelsRoundTrip :
    (∃ t, exec .encl (idleLevels [1073741823]) = .next t ∧
      (decide (inputBytes (idleBytes [126, 126, 126, 126, 126, 94]) = outBytes t) &&
        (inputLevels (idleLevels [1073741823])).all fun l => decide (l.toNat < 2 ^ 30)) = true) ∧
    (∃ t, exec .encl (idleLevels [1073741824]) = .next t ∧
      (decide (inputBytes (idleBytes [95, 95, 95, 95, 95, 95, 64]) = outBytes t) &&
        (inputLevels (idleLevels [1073741824])).any fun l => decide (2 ^ 30 ≤ l.toNat)) = true) :=
  ⟨exists_next (p := fun t => decide (inputBytes (idleBytes [126, 126, 126, 126, 126, 94]) = outBytes t) &&
      (inputLevels (idleLevels [1073741823])).all fun l => decide (l.toNat < 2 ^ 30)) (by decide +kernel),
    exists_next (p := fun t => decide (inputBytes (idleBytes [95, 95, 95, 95, 95, 95, 64]) = outBytes t) &&
      (inputLevels (idleLevels [1073741824])).any fun l => decide (2 ^ 30 ≤ l.toNat)) (by decide +kernel)⟩
/-- Deltas (1, 2); and, at precision 2^29, the point (1.0, 0.0), whose delta 2^29 is the first out of range. -/
theorem witness_CoordinatesRoundTrip :
    (∃ t, exec (.encp false) (idlePoints [(0x3EE4F8B588E368F1, 0x3EF4F8B588E368F1)]) = .next t ∧
      (decide (inputBytes (idleBytes [65, 67]) = outBytes t) &&
        (deltasFrom (0, 0) [(1, 2)]).all fun d => decide (-2 ^ 29 ≤ d) && decide (d ≤ 2 ^ 29 - 1)) = true) ∧
    (∃ t, exec (.encp true) { idlePoints [(0x3FF0000000000000, 0)] with precIn := 0x41C0000000000000#64 } = .next t ∧
      (decide (inputBytes (idleBytes [95, 95, 95, 95, 95, 95, 64, 63]) = outBytes t) &&
        decide (scaledPairs 0x41C0000000000000#64 (inputPoints (idlePoints [(0x3FF0000000000000, 0)])) = .ok [(2 ^ 29, 0)]) &&
        (deltasFrom (0, 0) [(2 ^ 29, 0)]).any fun d => decide (2 ^ 29 - 1 < d)) = true) :=
  ⟨exists_next (p := fun t => decide (inputBytes (idleBytes [65, 67]) = outBytes t) &&
      (deltasFrom (0, 0) [(1, 2)]).all fun d => decide (-2 ^ 29 ≤ d) && decide (d ≤ 2 ^ 29 - 1)) (by decide +kernel),
    exists_next (p := fun t => decide (inputBytes (idleBytes [95, 95, 95, 95, 95, 95, 64, 63]) = outBytes t) &&
      decide (scaledPairs 0x41C0000000000000#64 (inputPoints (idlePoints [(0x3FF0000000000000, 0)])) = .ok [(2 ^ 29, 0)]) &&
      (deltasFrom (0, 0) [(2 ^ 29, 0)]).any fun d => decide (2 ^ 29 - 1 < d)) (by decide +kernel)⟩
theorem witness_EmptyInputSucceeds :
    State.reset.busy = false ∧ State.reset.inLen = 0 ∧ precisionOk (precisionOf true State.reset) = true := by decide +kernel
theorem witness_LoneLatitudeIsTruncated :
    (idleBytes [65, 65, 126, 70]).busy = false ∧ precisionOk (precisionOf false State.reset) = true ∧
      decodeAll (inputBytes (idleBytes [65, 65, 126, 70])) = .ok [2, 2, 255] ∧ inputBytes (idleBytes [63]) = [63#8] := by decide +kernel
theorem witness_EncodingNeverFaults :
    (∃ t, exec (.scale false) State.reset = .next t ∧ (!t.busy) = true) ∧ State.reset.busy = false ∧
      precisionOk (precisionOf false State.reset) = true ∧ scaleInt State.reset.opf (precisionOf false State.reset) = .ok 0 ∧
      scaledPairs (precisionOf false State.reset) (inputPoints State.reset) = .ok [] :=
  ⟨exists_next (p := fun t => !t.busy) (by decide +kernel), by decide +kernel⟩
/-- A micro-step that reads a byte, and one that emits a level and goes on. -/
theorem witness_MicroStepsOnlyAdvance :
    (∃ t, blockStep (midDecc [126, 70]) = .next t ∧ decide (t.cursor = 1) = true) ∧
    (∃ t, blockStep { commandStart .decl (idleBytes [64, 65]) with acc := 1#30, shift := 5#5, gcnt := 1#3, cursor := 1, cst := .done } = .next t ∧
      decide (t.ocnt = 1) = true) :=
  ⟨exists_next (p := fun t => decide (t.cursor = 1)) (by decide +kernel), exists_next (p := fun t => decide (t.ocnt = 1)) (by decide +kernel)⟩
theorem witness_FailureIsAtomic :
    Instr.code .decc = .command ∧ ∃ t, exec .decc State.reset = .next t ∧ decide (t.status ≠ 0#3) = true :=
  ⟨rfl, exists_next (p := fun t => decide (t.status ≠ 0#3)) (by decide +kernel)⟩
/-- For `EveryCommandEnds`, `MicroStepsReachTransaction`, `CommandsKeepInputs`, `CommandsFrameOutput`: a command that answers a next state, from a state with no host action. -/
theorem witness_commands :
    Instr.code (.decp false) = .command ∧ (idleBytes [65, 65]).host = [] ∧
      ∃ t, exec (.decp false) (idleBytes [65, 65]) = .next t ∧ decide (t.ocnt = 1) = true :=
  ⟨rfl, rfl, exists_next (p := fun t => decide (t.ocnt = 1)) (by decide +kernel)⟩
/-- Two states that differ in what an earlier command left, with the operands of `DECL` the same. -/
theorem witness_NoStateSurvivesACommand :
    SameOperands .decl (idleBytes [64]) { idleBytes [64] with acc := 7#30, status := 2#3, opa := 5#35 } := rfl
theorem witness_StepKeepsInvariant : Inv State.reset ∧ ∃ t, step State.reset = .next t ∧ decide (t = State.reset) = true :=
  ⟨⟨by decide, by decide, by decide, by decide, by decide⟩, exists_next (p := fun t => decide (t = State.reset)) (by decide +kernel)⟩
/-- The invariant also holds in the middle of a command. -/
theorem witness_StepKeepsInvariant_busy : Inv midDeccFull ∧ midDeccFull.busy = true :=
  ⟨⟨by decide, by decide, by decide +kernel, by decide, by decide⟩, rfl⟩
theorem witness_LinesIssueCommands :
    State.reset.busy = false ∧ (Line.encu (2 ^ 35 - 1)).wellFormed = true ∧ (Line.zze (-2 ^ 32)).wellFormed = true ∧
      (Line.zzd (2 ^ 33 - 1)).wellFormed = true ∧ (Line.encl [0, 2 ^ 32 - 1]).wellFormed = true := by decide
theorem witness_FacadeStreamsAreIndependent :
    State.reset.busy = false ∧
      answers (performAll (lineActions (.decp none [63#8, 63#8])) State.reset) (fun u => decide (u.status = 0#3)) = true ∧
      answers (performAll (lineActions (.decp none [126#8])) State.reset) (fun u => decide (u.status = 1#3)) = true ∧
      (match facadeDec none [63#8, 63#8] (some [126#8]) State.reset with
        | .next (sn, _) => sn.coordinates.isSome && sn.levels.isNone
        | .fault _ | .refused _ => false) = true := by decide +kernel
theorem witness_FacadeEncodesEagerly :
    State.reset.busy = false ∧ precisionOk ((none : Option F64).getD 0x40F86A0000000000#64) = true ∧
      scaledPairs 0x40F86A0000000000#64 [⟨0x3EE4F8B588E368F1#64, 0x3EF4F8B588E368F1#64⟩] = .ok [(1, 2)] := by decide +kernel

end Sys2Proof.Machine.Test
end

section
/-! SUPPORT. Binary64 patterns as numbers (00 R9): bits 62:0 of a pattern, the magnitude they stand for, and its order. -/

namespace Sys2Proof.Machine

/-! ## The fields of a pattern, by its bits 62:0 -/

/-- Bits 62:0 of a pattern. -/
def f64Bits (x : F64) : Nat := x.toNat % 2 ^ 63

/-- The magnitude that bits 62:0 stand for, in units of 2^-1074. Infinity's bits count as the binade after the largest finite one,
so that the patterns are the points of one unbounded scale. -/
def bitsMagnitude (b : Nat) : Nat :=
  if b / 2 ^ 52 = 0 then b % 2 ^ 52 else (2 ^ 52 + b % 2 ^ 52) * 2 ^ (b / 2 ^ 52 - 1)

theorem bitsMagnitude_zero : bitsMagnitude 0 = 0 := rfl

theorem unitsPerOne_pos : 0 < unitsPerOne := pow_pos (by decide) _

theorem f64Exponent_eq (x : F64) : f64Exponent x = f64Bits x / 2 ^ 52 := by
  simp only [f64Exponent, f64Bits, BitVec.extractLsb'_toNat, Nat.shiftRight_eq_div_pow]
  omega

theorem f64Fraction_eq (x : F64) : f64Fraction x = f64Bits x % 2 ^ 52 := by
  simp only [f64Fraction, f64Bits, BitVec.extractLsb'_toNat, Nat.shiftRight_zero]
  omega

theorem f64Magnitude_eq (x : F64) : f64Magnitude x = bitsMagnitude (f64Bits x) := by
  simp only [f64Magnitude, bitsMagnitude, f64Exponent_eq, f64Fraction_eq]

theorem f64Finite_iff (x : F64) : f64Finite x = true ↔ f64Bits x < infinityBits := by
  simp only [f64Finite, f64Exponent_eq, infinityBits, decide_eq_true_eq]
  omega

theorem f64Negative_iff (x : F64) : f64Negative x = true ↔ 2 ^ 63 ≤ x.toNat := by
  have := x.isLt
  simp only [f64Negative, BitVec.getLsbD, Nat.testBit_eq_decide_div_mod_eq, decide_eq_true_eq]
  omega

theorem lt_two_pow_63_of_le {b : Nat} (hb : b ≤ infinityBits) : b < 2 ^ 63 := hb.trans_lt (by decide)

section
variable (neg : Bool) {b : Nat} (hb : b ≤ infinityBits)
include hb

theorem f64Of_toNat : (f64Of neg b).toNat = if neg then 2 ^ 63 + b else b := by
  have := lt_two_pow_63_of_le hb
  rw [f64Of, BitVec.toNat_ofNat, Nat.mod_eq_of_lt]
  split <;> omega

theorem f64Bits_f64Of : f64Bits (f64Of neg b) = b := by
  have := lt_two_pow_63_of_le hb
  rw [f64Bits, f64Of_toNat neg hb]
  split <;> omega

theorem f64Negative_f64Of : f64Negative (f64Of neg b) = neg := by
  have := lt_two_pow_63_of_le hb
  rw [Bool.eq_iff_iff, f64Negative_iff, f64Of_toNat neg hb]
  cases neg
  · simpa using this
  · simp

end

/-- A pattern is its sign and its bits 62:0. -/
theorem f64Of_f64Bits (x : F64) : f64Of (f64Negative x) (f64Bits x) = x := by
  have hx := x.isLt
  apply BitVec.eq_of_toNat_eq
  simp only [f64Of, BitVec.toNat_ofNat, f64Negative_iff, f64Bits]
  split <;> omega

/-! ## Significands and places

A finite pattern is a significand `m` at a place `j`, that is the value `m × 2^j`; `m` has 53 bits, or `j` is 0. -/

/-- `m` is the significand of a pattern at place `j`. -/
def IsSignificand (j m : Nat) : Prop := (j = 0 ∨ 2 ^ 52 ≤ m) ∧ m ≤ 2 ^ 53

theorem bitsMagnitude_place {j m : Nat} (h : IsSignificand j m) : bitsMagnitude (j * 2 ^ 52 + m) = m * 2 ^ j := by
  obtain ⟨hm, hm'⟩ := h
  unfold bitsMagnitude
  rcases Nat.lt_or_ge m (2 ^ 52) with hlt | hge
  · obtain rfl : j = 0 := by omega
    rw [if_pos (by omega)]
    omega
  · rw [if_neg (by omega)]
    rcases hm'.lt_or_eq with hlt | rfl
    · have he : (j * 2 ^ 52 + m) / 2 ^ 52 - 1 = j := by omega
      have hf : 2 ^ 52 + (j * 2 ^ 52 + m) % 2 ^ 52 = m := by omega
      rw [he, hf]
    · have he : (j * 2 ^ 52 + 2 ^ 53) / 2 ^ 52 - 1 = j + 1 := by omega
      have hf : 2 ^ 52 + (j * 2 ^ 52 + 2 ^ 53) % 2 ^ 52 = 2 ^ 52 := by omega
      rw [he, hf, Nat.pow_succ]
      omega

/-- Every pattern has a significand below `2^53`. -/
theorem exists_place (b : Nat) : ∃ j m, IsSignificand j m ∧ m < 2 ^ 53 ∧ b = j * 2 ^ 52 + m := by
  unfold IsSignificand
  rcases Nat.eq_zero_or_pos (b / 2 ^ 52) with h | h
  · exact ⟨0, b, by omega, by omega, by omega⟩
  · exact ⟨b / 2 ^ 52 - 1, 2 ^ 52 + b % 2 ^ 52, by omega, by omega, by omega⟩

theorem bitsMagnitude_strictMono : StrictMono bitsMagnitude := by
  refine strictMono_nat_of_lt_succ fun b => ?_
  obtain ⟨j, m, hm, hlt, rfl⟩ := exists_place b
  have hm' : IsSignificand j (m + 1) := ⟨hm.1.imp_right (by omega), hlt⟩
  rw [Nat.add_assoc, bitsMagnitude_place hm, bitsMagnitude_place hm']
  exact Nat.mul_lt_mul_of_pos_right m.lt_succ_self (Nat.two_pow_pos j)

/-- Seen from place `j`, a pattern's magnitude is a multiple of `2^j`, or it lies below all significands of that place. -/
theorem bitsMagnitude_multiple_or_lt (j b : Nat) :
    (∃ k, bitsMagnitude b = k * 2 ^ j) ∨ (j ≠ 0 ∧ bitsMagnitude b < 2 ^ 52 * 2 ^ j) := by
  obtain ⟨i, m, hm, hlt, rfl⟩ := exists_place b
  rw [bitsMagnitude_place hm]
  rcases Nat.lt_or_ge i j with hij | hij
  · refine .inr ⟨by omega, ?_⟩
    calc m * 2 ^ i < 2 ^ 53 * 2 ^ i := Nat.mul_lt_mul_of_pos_right hlt (Nat.two_pow_pos i)
      _ = 2 ^ 52 * 2 ^ (i + 1) := by ring
      _ ≤ 2 ^ 52 * 2 ^ j := Nat.mul_le_mul_left _ (Nat.pow_le_pow_right (by decide) hij)
  · exact .inl ⟨m * 2 ^ (i - j), by rw [Nat.mul_assoc, Nat.pow_sub_mul_pow 2 hij]⟩

/-- Twice a magnitude is one: the same significand at the next place, or twice a subnormal's. -/
theorem exists_bitsMagnitude_double (b : Nat) : ∃ c, bitsMagnitude c = 2 * bitsMagnitude b := by
  obtain ⟨j, m, hm, hlt, rfl⟩ := exists_place b
  rw [bitsMagnitude_place hm]
  rcases Nat.lt_or_ge m (2 ^ 52) with h | h
  · obtain rfl : j = 0 := hm.1.resolve_right (by omega)
    refine ⟨0 * 2 ^ 52 + 2 * m, ?_⟩
    rw [bitsMagnitude_place ⟨.inl rfl, by omega⟩, Nat.mul_assoc]
  · refine ⟨(j + 1) * 2 ^ 52 + m, ?_⟩
    rw [bitsMagnitude_place ⟨.inr h, hm.2⟩, Nat.pow_succ]
    ring

theorem exists_bitsMagnitude_eq {m : Nat} (hm : m ≤ 2 ^ 53) (j : Nat) : ∃ b, bitsMagnitude b = m * 2 ^ j := by
  induction j with
  | zero => exact ⟨0 * 2 ^ 52 + m, bitsMagnitude_place ⟨.inl rfl, hm⟩⟩
  | succ j ih =>
    obtain ⟨b, hb⟩ := ih
    obtain ⟨c, hc⟩ := exists_bitsMagnitude_double b
    exact ⟨c, by rw [hc, hb, Nat.pow_succ]; ring⟩

/-! ## Rounding to the nearest pattern -/

/-- How far `v × den` lies from `n`. -/
def gap (n den v : Nat) : Nat := ((v * den : Nat) - (n : Nat) : Int).natAbs

theorem gap_zero (n den : Nat) : gap n den 0 = n := by simp [gap]

/-- `b` is a pattern nearest the magnitude `n / den` (in units), an even one where another is equally near. -/
def IsNearest (n den b : Nat) : Prop :=
  ∀ c, gap n den (bitsMagnitude b) ≤ gap n den (bitsMagnitude c) ∧
    (gap n den (bitsMagnitude b) = gap n den (bitsMagnitude c) → c ≠ b → b % 2 = 0)

/-- `roundNearest` before it stops at infinity. -/
def roundBits (num den : Nat) : Nat :=
  let j := roundPlace (num * unitsPerOne / den)
  j * 2 ^ 52 + divNearestEven (num * unitsPerOne) (den * 2 ^ j)

theorem roundNearest_eq (num den : Nat) : roundNearest num den = min (roundBits num den) infinityBits := rfl

/-- The nearest integer to `n / d`, a tie to the even one. -/
theorem divNearestEven_nearest (n : Nat) {d : Nat} (hd : 0 < d) (k : Nat) :
    gap n d (divNearestEven n d) ≤ gap n d k ∧
      (gap n d (divNearestEven n d) = gap n d k → k ≠ divNearestEven n d → divNearestEven n d % 2 = 0) := by
  have hn := Nat.div_add_mod' n d
  have hr := Nat.mod_lt n hd
  have hlow : k ≤ n / d → k * d ≤ n / d * d := fun h => Nat.mul_le_mul_right d h
  have hlow' : k < n / d → (k + 1) * d ≤ n / d * d := fun h => Nat.mul_le_mul_right d h
  have hhigh : n / d < k → (n / d + 1) * d ≤ k * d := fun h => Nat.mul_le_mul_right d h
  have hhigh' : n / d + 1 < k → (n / d + 2) * d ≤ k * d := fun h => Nat.mul_le_mul_right d h
  rw [Nat.add_mul, Nat.one_mul] at hhigh hlow'
  rw [Nat.add_mul] at hhigh'
  unfold gap divNearestEven
  generalize n / d = q at *
  generalize n % d = r at *
  split
  · rw [Nat.add_mul, Nat.one_mul]
    omega
  · omega

theorem divNearestEven_cases (n d : Nat) : divNearestEven n d = n / d ∨ divNearestEven n d = n / d + 1 := by
  unfold divNearestEven
  split
  · exact .inr rfl
  · exact .inl rfl

/-- The place of `t` units keeps 53 bits, and all of them where it is not 0. -/
theorem roundPlace_spec (t : Nat) :
    (roundPlace t = 0 ∨ 2 ^ 52 ≤ t / 2 ^ roundPlace t) ∧ t / 2 ^ roundPlace t < 2 ^ 53 := by
  rw [roundPlace]
  split
  · next h => exact ⟨.inl rfl, by rwa [Nat.pow_zero, Nat.div_one]⟩
  · next h =>
    have ht : t ≠ 0 := by omega
    have hlog : 53 ≤ t.log2 := (Nat.le_log2 ht).mpr (by omega)
    have hhigh : 2 ^ (t.log2 - 52) * 2 ^ 53 = 2 ^ (t.log2 + 1) := by
      rw [← Nat.pow_add]; congr 1; omega
    have hlow : 2 ^ 52 * 2 ^ (t.log2 - 52) = 2 ^ t.log2 := by
      rw [← Nat.pow_add]; congr 1; omega
    refine ⟨.inr ?_, ?_⟩
    · rw [Nat.le_div_iff_mul_le (Nat.two_pow_pos _), hlow]
      exact Nat.log2_self_le ht
    · rw [Nat.div_lt_iff_lt_mul (Nat.two_pow_pos _), Nat.mul_comm, hhigh]
      exact Nat.lt_log2_self

theorem gap_mul (n den k p : Nat) : gap n den (k * p) = gap n (den * p) k := by
  rw [gap, gap, Nat.mul_assoc, Nat.mul_comm p]

theorem gap_lt_of_lt_of_le {n den v w : Nat} (hden : 0 < den) (hvw : v < w) (hw : w * den ≤ n) : gap n den w < gap n den v := by
  have := Nat.mul_lt_mul_of_pos_right hvw hden
  unfold gap
  omega

/-- The rounding is right on the whole scale: at the place `j` of the result the significand is the nearest one, and every pattern of a lower place lies
below `2^52 × 2^j`, which is itself no more than `n / den`. -/
theorem roundBits_nearest (num : Nat) {den : Nat} (hden : 0 < den) : IsNearest (num * unitsPerOne) den (roundBits num den) := by
  rw [roundBits]
  generalize num * unitsPerOne = n
  obtain ⟨hlow, hhigh⟩ := roundPlace_spec (n / den)
  generalize roundPlace (n / den) = j at *
  rw [Nat.div_div_eq_div_mul] at hlow hhigh
  have hnear := divNearestEven_nearest n (Nat.mul_pos hden (Nat.two_pow_pos j))
  have hdiv := divNearestEven_cases n (den * 2 ^ j)
  have hsig : IsSignificand j (divNearestEven n (den * 2 ^ j)) := ⟨by omega, by omega⟩
  intro c
  have hne : c ≠ j * 2 ^ 52 + divNearestEven n (den * 2 ^ j) →
      bitsMagnitude c ≠ divNearestEven n (den * 2 ^ j) * 2 ^ j := by
    rw [← bitsMagnitude_place hsig]
    exact bitsMagnitude_strictMono.injective.ne
  rw [bitsMagnitude_place hsig, gap_mul]
  rcases bitsMagnitude_multiple_or_lt j c with ⟨k, hk⟩ | ⟨hj, hlt⟩
  · rw [hk, gap_mul]
    rw [hk] at hne
    refine ⟨(hnear k).1, fun heq hc => ?_⟩
    have := (hnear k).2 heq fun h => hne hc (by rw [h])
    omega
  · have hfloor : 2 ^ 52 * 2 ^ j * den ≤ n := by
      have := Nat.mul_le_of_le_div _ _ _ (hlow.resolve_left hj)
      rwa [Nat.mul_assoc, Nat.mul_comm _ den]
    have hfar := gap_lt_of_lt_of_le hden hlt hfloor
    rw [gap_mul] at hfar
    have := (hnear (2 ^ 52)).1
    exact ⟨by omega, by omega⟩

/-! ## Infinity, and exact values -/

/-- `2^1024 − 2^970` lies half way between the largest finite value and the next point of the scale. -/
theorem limit_is_midpoint :
    bitsMagnitude (infinityBits - 1) + bitsMagnitude (infinityBits - 1 + 1) = 2 * ((2 ^ 1024 - 2 ^ 970) * unitsPerOne) := by decide +kernel

/-- Half way from an odd pattern to the next and beyond, the rounding passes the odd one. -/
theorem succ_le_roundBits_iff (num : Nat) {den b mid : Nat} (hden : 0 < den) (hodd : b % 2 = 1)
    (hmid : bitsMagnitude b + bitsMagnitude (b + 1) = 2 * mid) : b + 1 ≤ roundBits num den ↔ mid * den ≤ num * unitsPerOne := by
  have hnear := roundBits_nearest num hden
  generalize num * unitsPerOne = n at *
  generalize roundBits num den = r at *
  have hlt : ∀ {c d}, c < d → bitsMagnitude c * den < bitsMagnitude d * den := fun h =>
    Nat.mul_lt_mul_of_pos_right (bitsMagnitude_strictMono h) hden
  have hstep := hlt b.lt_add_one
  have hmid : bitsMagnitude b * den + bitsMagnitude (b + 1) * den = 2 * (mid * den) := by
    rw [← Nat.add_mul, hmid, Nat.mul_assoc]
  unfold IsNearest gap at hnear
  constructor
  · intro h
    have hgap := (hnear b).1
    have := Nat.mul_le_mul_right den (bitsMagnitude_strictMono.monotone h)
    omega
  · intro h
    by_contra hr
    obtain ⟨hgap, htie⟩ := hnear (b + 1)
    rcases Nat.lt_or_ge r b with hb | hb
    · have := hlt hb
      omega
    · obtain rfl : r = b := by omega
      omega

theorem infinityBits_le_roundBits_iff (num : Nat) {den : Nat} (hden : 0 < den) :
    infinityBits ≤ roundBits num den ↔ (2 ^ 1024 - 2 ^ 970) * den ≤ num := by
  have hodd : (infinityBits - 1) % 2 = 1 := by decide
  have hsucc : infinityBits - 1 + 1 = infinityBits := by decide
  have hiff := succ_le_roundBits_iff num hden hodd limit_is_midpoint
  rw [hsucc] at hiff
  refine hiff.trans ?_
  rw [Nat.mul_right_comm, Nat.mul_le_mul_right_iff unitsPerOne_pos]

theorem roundNearest_le (num den : Nat) : roundNearest num den ≤ infinityBits := Nat.min_le_right _ _

theorem roundNearest_eq_infinityBits_iff (num : Nat) {den : Nat} (hden : 0 < den) :
    roundNearest num den = infinityBits ↔ (2 ^ 1024 - 2 ^ 970) * den ≤ num := by
  rw [roundNearest_eq, min_eq_right_iff, infinityBits_le_roundBits_iff num hden]

theorem roundNearest_nearest (num : Nat) {den : Nat} (hden : 0 < den) (h : roundNearest num den < infinityBits) :
    IsNearest (num * unitsPerOne) den (roundNearest num den) := by
  have heq : roundNearest num den = roundBits num den := by rw [roundNearest_eq] at h ⊢; omega
  exact heq ▸ roundBits_nearest num hden

/-- A magnitude that a pattern has is rounded to that pattern. -/
theorem roundBits_exact {num den b : Nat} (hden : 0 < den) (h : num * unitsPerOne = bitsMagnitude b * den) : roundBits num den = b := by
  have hgap := (roundBits_nearest num hden b).1
  rw [h] at hgap
  have : bitsMagnitude (roundBits num den) * den = bitsMagnitude b * den := by unfold gap at hgap; omega
  exact bitsMagnitude_strictMono.injective (Nat.eq_of_mul_eq_mul_right hden this)

/-- The same for `roundNearest` and a finite pattern. -/
theorem roundNearest_exact {num den : Nat} {z : F64} (hden : 0 < den) (hz : f64Finite z = true)
    (h : num * unitsPerOne = f64Magnitude z * den) : roundNearest num den = f64Bits z := by
  rw [roundNearest_eq, roundBits_exact hden (f64Magnitude_eq z ▸ h)]
  exact Nat.min_eq_left ((f64Finite_iff z).mp hz).le

/-- Settles O25: the distances of finite patterns are those of their bits on the scale. -/
theorem roundsToNearestEven : Obligations.RoundsToNearestEven := by
  intro num den hden hfin y _
  have hnear := roundNearest_nearest num hden hfin (f64Bits y)
  simp only [f64Magnitude_eq, f64Bits_f64Of false hfin.le]
  exact ⟨hnear.1, fun heq hne => hnear.2 heq fun h => hne (congrArg _ h)⟩

/-- Settles O26: the limit is half way to infinity, which is the even one. -/
theorem roundingOverflowsAtTheLimit : Obligations.RoundingOverflowsAtTheLimit :=
  fun num _ hden => roundNearest_eq_infinityBits_iff num hden

end Sys2Proof.Machine
end

section
/-! SUPPORT. The signed layer: what a sign and a rounded magnitude give (00 R9), and the four primitives. -/

namespace Sys2Proof.Machine

theorem natAbs_f64Units (x : F64) : (f64Units x).natAbs = f64Magnitude x := by
  unfold f64Units
  split <;> omega

/-- The sign bit of a value other than zero is its sign. -/
theorem f64Negative_eq {x : F64} (h : f64Units x ≠ 0) : f64Negative x = decide (f64Units x < 0) := by
  cases hn : f64Negative x with
  | false => simp [f64Units, hn]
  | true =>
    simp only [f64Units, hn, if_true] at h ⊢
    exact (decide_eq_true (by omega)).symm

/-- The exclusive-or of two signs is the sign of a product other than zero. -/
theorem f64Negative_bne {a b : F64} (h : f64Units a * f64Units b ≠ 0) :
    (f64Negative a != f64Negative b) = decide (f64Units a * f64Units b < 0) := by
  obtain ⟨ha, hb⟩ := mul_ne_zero_iff.mp h
  rw [f64Negative_eq ha, f64Negative_eq hb, Bool.eq_iff_iff, decide_eq_true_eq, mul_neg_iff]
  simp only [bne_iff_ne, ne_eq, decide_eq_decide]
  omega

/-- `neg` is the sign of `num / den`; a zero may have either. -/
def IsSign (neg : Bool) (num den : Int) : Prop := num * den ≠ 0 → neg = decide (num * den < 0)

/-- `p` on `q`'s side of zero, with a magnitude nearest that of `q`, is a value nearest `q`: a value on the other side is no nearer than zero. -/
theorem nearest_of_nearest_natAbs {p q r : Int} (hside : 0 ≤ p * q)
    (hzero : ((p.natAbs : Int) - q.natAbs).natAbs ≤ q.natAbs)
    (hle : ((p.natAbs : Int) - q.natAbs).natAbs ≤ ((r.natAbs : Int) - q.natAbs).natAbs) :
    (p - q).natAbs ≤ (r - q).natAbs ∧ ((p - q).natAbs = (r - q).natAbs → r ≠ p →
      ((p.natAbs : Int) - q.natAbs).natAbs = ((r.natAbs : Int) - q.natAbs).natAbs ∧ r.natAbs ≠ p.natAbs) := by
  have hdist : (p - q).natAbs = ((p.natAbs : Int) - q.natAbs).natAbs := by
    rcases mul_nonneg_iff.mp hside with ⟨hp, hq⟩ | ⟨hp, hq⟩ <;> omega
  omega

theorem getLsbD_zero_of_even {x : F64} (h : f64Bits x % 2 = 0) : x.getLsbD 0 = false := by
  rw [BitVec.getLsbD, Nat.testBit_zero, decide_eq_false_iff_not]
  unfold f64Bits at h
  omega

theorem natAbs_mul_unitsPerOne (n : Int) : n.natAbs * unitsPerOne = (n * unitsPerOne).natAbs := by
  rw [Int.natAbs_mul, Int.natAbs_natCast]

/-- The distance of `y` on the scale of magnitudes. -/
theorem gap_f64Magnitude (num den : Int) (y : F64) :
    gap (num.natAbs * unitsPerOne) den.natAbs (f64Magnitude y) =
      (((f64Units y * den).natAbs : Int) - (num * unitsPerOne).natAbs).natAbs := by
  rw [gap, Int.natAbs_mul, Int.natAbs_mul, natAbs_f64Units, Int.natAbs_natCast]

section
variable {neg : Bool} {num den : Int} (hden : den ≠ 0) (hsign : IsSign neg num den)
include hsign

/-- A pattern with the sign of `num / den` lies on its side of zero. -/
theorem f64Units_mul_nonneg {x : F64} (hx : f64Negative x = neg) : 0 ≤ f64Units x * den * (num * unitsPerOne) := by
  have hre : f64Units x * den * (num * unitsPerOne) = f64Units x * (num * den) * unitsPerOne := by ring
  rw [hre]
  refine mul_nonneg ?_ (Int.natCast_nonneg _)
  by_cases h0 : num * den = 0
  · rw [h0, mul_zero]
  · have hneg := hx.trans (hsign h0)
    unfold f64Units
    by_cases h : num * den < 0
    · simp only [hneg, h, decide_true, if_true]
      exact mul_nonneg_of_nonpos_of_nonpos (by omega) h.le
    · simp only [hneg, h, decide_false]
      exact mul_nonneg (by simp) (by omega)

include hden

/-- On that side, a nearest magnitude is a nearest value: the other side holds nothing nearer than zero. -/
theorem nearest_of_isNearest {x : F64} (hx : f64Negative x = neg)
    (hnear : IsNearest (num.natAbs * unitsPerOne) den.natAbs (f64Bits x)) (y : F64) :
    (f64Units x * den - num * unitsPerOne).natAbs ≤ (f64Units y * den - num * unitsPerOne).natAbs ∧
      ((f64Units x * den - num * unitsPerOne).natAbs = (f64Units y * den - num * unitsPerOne).natAbs →
        f64Units y ≠ f64Units x → f64Bits x % 2 = 0) := by
  have hzero := (hnear 0).1
  obtain ⟨hle, heven⟩ := hnear (f64Bits y)
  rw [bitsMagnitude_zero, gap_zero] at hzero
  simp only [← f64Magnitude_eq, gap_f64Magnitude] at hle hzero heven
  rw [natAbs_mul_unitsPerOne] at hzero
  obtain ⟨hdist, htie⟩ := nearest_of_nearest_natAbs (f64Units_mul_nonneg hsign hx) hzero hle
  refine ⟨hdist, fun heq hne => ?_⟩
  obtain ⟨hgap, habs⟩ := htie heq fun h => hne (mul_right_cancel₀ hden h)
  refine heven hgap fun hb => habs ?_
  rw [Int.natAbs_mul, Int.natAbs_mul, natAbs_f64Units, natAbs_f64Units, f64Magnitude_eq, f64Magnitude_eq, hb]

/-- A sign and a rounded magnitude are `rne` of `num / den`. -/
theorem isRounded_f64Of : IsRounded (f64Of neg (roundNearest num.natAbs den.natAbs)) num den := by
  have hpos : 0 < den.natAbs := Int.natAbs_pos.mpr hden
  have hle := roundNearest_le num.natAbs den.natAbs
  have hbits := f64Bits_f64Of neg hle
  have hinf := roundNearest_eq_infinityBits_iff num.natAbs hpos
  constructor
  · intro h
    rw [hinf.mpr h]
    cases neg <;> decide
  · intro h
    have hlt : roundNearest num.natAbs den.natAbs < infinityBits :=
      hle.lt_of_ne fun he => absurd (hinf.mp he) (Nat.not_le.mpr h)
    have hnear := roundNearest_nearest num.natAbs hpos hlt
    rw [← hbits] at hnear
    refine ⟨(f64Finite_iff _).mpr (hbits.symm ▸ hlt), fun y _ => ?_⟩
    obtain ⟨hdist, heven⟩ := nearest_of_isNearest hden hsign (f64Negative_f64Of neg hle) hnear y
    exact ⟨hdist, fun heq hne => getLsbD_zero_of_even (heven heq hne)⟩

/-- A sign and a rounded magnitude give a finite `z` other than zero where `num / den` is exactly its value. -/
theorem f64Of_roundNearest_exact {z : F64} (hz : f64Finite z = true) (hz0 : f64Units z ≠ 0)
    (h : num * unitsPerOne = f64Units z * den) : f64Of neg (roundNearest num.natAbs den.natAbs) = z := by
  have hbits : roundNearest num.natAbs den.natAbs = f64Bits z := by
    refine roundNearest_exact (Int.natAbs_pos.mpr hden) hz ?_
    rw [← natAbs_f64Units, ← Int.natAbs_mul, ← h, Int.natAbs_mul, Int.natAbs_natCast]
  have hneg : neg = f64Negative z := by
    have hunits : (0 : Int) < unitsPerOne := Int.natCast_pos.mpr unitsPerOne_pos
    have hsame : 0 < num * den * f64Units z := by
      have hsq : num * den * f64Units z * unitsPerOne = (f64Units z * den) * (f64Units z * den) := by
        linear_combination den * f64Units z * h
      exact pos_of_mul_pos_left (hsq ▸ mul_self_pos.mpr (mul_ne_zero hz0 hden)) hunits.le
    rw [hsign (left_ne_zero_of_mul hsame.ne'), f64Negative_eq hz0, decide_eq_decide]
    exact neg_iff_neg_of_mul_pos hsame
  rw [hbits, hneg, f64Of_f64Bits]

end

/-! ## The four primitives

Each is a sign and a rounded magnitude, so the two lemmas above say what it gives. -/

theorem isSign_of_pos {neg : Bool} {num den : Int} (hden : 0 < den) (h : num ≠ 0 → neg = decide (num < 0)) : IsSign neg num den := by
  intro h0
  rw [h (left_ne_zero_of_mul h0), decide_eq_decide]
  exact ⟨fun hn => mul_neg_of_neg_of_pos hn hden, fun hn => neg_of_mul_neg_left hn hden.le⟩

theorem unitsPerOne_cast_pos : (0 : Int) < unitsPerOne := Int.natCast_pos.mpr unitsPerOne_pos

theorem unitsPerOne_sq_pos : (0 : Int) < unitsPerOne * unitsPerOne := mul_pos unitsPerOne_cast_pos unitsPerOne_cast_pos

section
variable (a b : F64)

theorem fmul_eq : fmul a b = f64Of (f64Negative a != f64Negative b)
    (roundNearest (f64Units a * f64Units b).natAbs ((unitsPerOne : Int) * unitsPerOne).natAbs) := by
  rw [fmul, Int.natAbs_mul, Int.natAbs_mul, natAbs_f64Units, natAbs_f64Units, Int.natAbs_natCast]

theorem isSign_fmul : IsSign (f64Negative a != f64Negative b) (f64Units a * f64Units b) (unitsPerOne * unitsPerOne) :=
  isSign_of_pos unitsPerOne_sq_pos f64Negative_bne

theorem fdiv_eq : fdiv a b = f64Of (f64Negative a != f64Negative b) (roundNearest (f64Units a).natAbs (f64Units b).natAbs) := by
  rw [fdiv, natAbs_f64Units, natAbs_f64Units]

theorem isSign_fdiv : IsSign (f64Negative a != f64Negative b) (f64Units a) (f64Units b) := f64Negative_bne

/-- The sign of `fadd`: a zero sum is negative for two negative operands only. -/
def faddSign : Bool :=
  if f64Units a + f64Units b = 0 then f64Negative a && f64Negative b else decide (f64Units a + f64Units b < 0)

theorem fadd_eq : fadd a b = f64Of (faddSign a b) (roundNearest (f64Units a + f64Units b).natAbs (unitsPerOne : Int).natAbs) := by
  rw [Int.natAbs_natCast]
  rfl

theorem faddSign_of_ne_zero {a b : F64} (h : f64Units a + f64Units b ≠ 0) : faddSign a b = decide (f64Units a + f64Units b < 0) :=
  if_neg h

theorem isSign_fadd : IsSign (faddSign a b) (f64Units a + f64Units b) unitsPerOne :=
  isSign_of_pos unitsPerOne_cast_pos faddSign_of_ne_zero

end

theorem i2f_eq (n : Int) : i2f n = f64Of (decide (n < 0)) (roundNearest n.natAbs (1 : Int).natAbs) := rfl

theorem isSign_i2f (n : Int) : IsSign (decide (n < 0)) n 1 := isSign_of_pos one_pos fun _ => rfl

theorem roundNearest_zero {den : Nat} (hden : 0 < den) : roundNearest 0 den = 0 :=
  roundNearest_exact (z := 0#64) hden (by decide) (by rw [Nat.zero_mul, f64Magnitude_eq]; exact (Nat.zero_mul den).symm)

theorem f64Of_roundNearest_zero {den : Int} (hden : den ≠ 0) : f64Of false (roundNearest (0 : Int).natAbs den.natAbs) = 0#64 := by
  rw [Int.natAbs_zero, roundNearest_zero (Int.natAbs_pos.mpr hden)]
  rfl

/-- An exact zero sum is `+0.0` but for two negative operands. -/
theorem fadd_eq_zero {a b : F64} (h : f64Units a + f64Units b = 0) (hsign : (f64Negative a && f64Negative b) = false) :
    fadd a b = 0#64 := by
  rw [fadd_eq, faddSign, if_pos h, hsign, h, f64Of_roundNearest_zero unitsPerOne_cast_pos.ne']

theorem two_pow_53_lt_infinity : 2 ^ 53 * unitsPerOne < bitsMagnitude infinityBits := by decide +kernel

/-- An integer of at most 53 bits is a pattern's magnitude, so its rounding is exact. -/
theorem i2f_exact {n : Int} (hn : n.natAbs ≤ 2 ^ 53) : f64Finite (i2f n) = true ∧ f64Units (i2f n) = n * unitsPerOne := by
  obtain ⟨b, hb⟩ : ∃ b, bitsMagnitude b = n.natAbs * unitsPerOne := exists_bitsMagnitude_eq hn 1074
  have hfin : b < infinityBits := by
    rw [← bitsMagnitude_strictMono.lt_iff_lt, hb]
    exact (Nat.mul_le_mul_right unitsPerOne hn).trans_lt two_pow_53_lt_infinity
  have hround : roundNearest n.natAbs 1 = b := by
    rw [roundNearest_eq, roundBits_exact one_pos (by rw [hb, Nat.mul_one])]
    exact Nat.min_eq_left hfin.le
  rw [i2f, hround]
  refine ⟨(f64Finite_iff _).mpr ((f64Bits_f64Of _ hfin.le).symm ▸ hfin), ?_⟩
  rw [f64Units, f64Negative_f64Of _ hfin.le, f64Magnitude_eq, f64Bits_f64Of _ hfin.le, hb, Int.natCast_mul, Int.natCast_natAbs]
  by_cases h : n < 0
  · rw [if_pos (decide_eq_true h), abs_of_neg h, neg_mul, neg_neg]
  · rw [if_neg (by simpa using h), abs_of_nonneg (not_lt.mp h)]

/-- Settles O27: an exact value of a primitive is the pattern that has it. -/
theorem exactResultsAreExact : Obligations.ExactResultsAreExact := by
  refine ⟨fun n hn => i2f_exact hn, fun a b z _ _ hz hz0 => ⟨fun h => ?_, fun h => ?_, fun hb h => ?_⟩⟩
  · rw [fadd_eq]
    exact f64Of_roundNearest_exact unitsPerOne_cast_pos.ne' (isSign_fadd a b) hz hz0 (by rw [h])
  · rw [fmul_eq]
    exact f64Of_roundNearest_exact unitsPerOne_sq_pos.ne' (isSign_fmul a b) hz hz0 (by rw [h, mul_assoc])
  · rw [fdiv_eq]
    exact f64Of_roundNearest_exact hb (isSign_fdiv a b) hz hz0 h

/-- Settles O28: `fmul` is a sign and a rounded magnitude. -/
theorem fmulRoundsToNearestEven : Obligations.FmulRoundsToNearestEven := by
  intro a b _ _
  rw [fmul_eq]
  exact ⟨f64Negative_f64Of _ (roundNearest_le _ _), isRounded_f64Of unitsPerOne_sq_pos.ne' (isSign_fmul a b)⟩

/-- Settles O29: `fdiv` is a sign and a rounded magnitude. -/
theorem fdivRoundsToNearestEven : Obligations.FdivRoundsToNearestEven := by
  intro a b _ _ hb
  rw [fdiv_eq]
  exact ⟨f64Negative_f64Of _ (roundNearest_le _ _), isRounded_f64Of hb (isSign_fdiv a b)⟩

/-- Settles O30: a sum other than zero by its rounding, the zero sums by the sign rule of `fadd`. -/
theorem faddRoundsToNearestEven : Obligations.FaddRoundsToNearestEven := by
  intro a b _ _
  refine ⟨?_, fun h => ?_, fun h hne => fadd_eq_zero h ?_, fadd_eq_zero rfl rfl⟩
  · rw [fadd_eq]
    exact isRounded_f64Of unitsPerOne_cast_pos.ne' (isSign_fadd a b)
  · rw [fadd_eq, f64Negative_f64Of _ (roundNearest_le _ _), faddSign_of_ne_zero h]
  · revert hne
    cases f64Negative a <;> cases f64Negative b <;> decide

/-- Settles O31: `i2f` is a sign and a rounded magnitude. -/
theorem i2fRoundsToNearestEven : Obligations.I2fRoundsToNearestEven := by
  intro n
  rw [i2f_eq]
  refine ⟨isRounded_f64Of one_ne_zero (isSign_i2f n), fun _ => f64Negative_f64Of _ (roundNearest_le _ _), ?_⟩
  rintro rfl
  exact f64Of_roundNearest_zero one_ne_zero

end Sys2Proof.Machine
end

section
/-! SUPPORT. The block's micro-step in two parts (log 11): the operation it chooses from the registers and the input element at `CURSOR`, and
what that operation does to the state. Every claim about micro-steps is a claim about these operations. -/

namespace Sys2Proof.Machine

/-- What a micro-step does, its operands read. -/
inductive MicroOp where
  /-- The command ends without a fault (10 R33). -/
  | finish (rval : BitVec 35) (consumed : BitVec 3)
  /-- A fault at `CURSOR` ends the command (60 R206). -/
  | fault (f : FaultKind)
  /-- `EncodeValue(u)` begins (40 R110). -/
  | load (u : BitVec 35)
  /-- A point is scaled, and `EncodeValue` of its latitude delta begins (43 R161). -/
  | loadPoint (a b : BitVec 32) (u : BitVec 35)
  /-- One pass of `EncodeValue`'s loop (40 R110). -/
  | pass
  /-- `EncodeValue` of the longitude delta begins (43 R161). -/
  | loadLon (u : BitVec 35)
  /-- A point of `ENCP` ends (43 R161). -/
  | endPoint
  /-- A level of `ENCL` ends (44 R180). -/
  | endLevel
  /-- A `ChunkStep` accepts a symbol (40 R113). -/
  | accept (c : Bool) (g : BitVec 5)
  /-- A latitude of `DECP` ends (43 R164). -/
  | latValue (a : F64)
  /-- A longitude of `DECP` ends, and its point is emitted (43 R164). -/
  | lonValue (a : F64)
  /-- A level of `DECL` ends (44 R181). -/
  | levelValue

/-- What an operation does to the state. -/
def MicroOp.perform (s : State) : MicroOp → State
  | .finish r c => finishOk r c s
  | .fault f => raiseFault f s.cursor s
  | .load u => encodeStart u s
  | .loadPoint a b u => encodeStart u { s with sLat := a, sLon := b, phase := .lat }
  | .pass => encodePass s
  | .loadLon u => encodeStart u { s with phase := .lon }
  | .endPoint => { s with prevLat := s.sLat, prevLon := s.sLon, cursor := s.cursor + 1, phase := .lat, est := .idle }
  | .endLevel => { s with cursor := s.cursor + 1, est := .idle }
  | .accept c g => accepted c g s
  | .latValue a => chunkStart { s with latAcc := a, phase := .lon }
  | .lonValue a => nextValue (emit (.point ⟨s.latAcc, a⟩) { s with lonAcc := a, phase := .lat })
  | .levelValue => nextValue (emit (.level (s.acc.setWidth 32)) s)

/-! ## The operation chosen -/

/-- The operation of a `ChunkStep` (40 R113). -/
def chunkOp (s : State) : Except Refusal MicroOp :=
  if s.len ≤ s.cursor then .ok (.fault .truncatedChunk)
  else if s.gcnt = 6#3 then .ok (.fault .overflowChunk)
  else if (decodeSymbol (byteAt s s.cursor)).toOption = none then .ok (.fault .invalidByte)
  else if ChunkEnabled s then
    .ok (.accept ((rawOf (byteAt s s.cursor)).getLsbD 5) ((rawOf (byteAt s s.cursor)).extractLsb' 0 5))
  else .error .chunkStepNotEnabled

/-- The operation of `ENCU`'s micro-step (40 R110). -/
def encuOp (s : State) : MicroOp :=
  match s.est with
  | .idle => .load (opaUnsigned35 s)
  | .passing => .pass
  | .done => .finish 0#35 0#3

/-- The operation of `DECC`'s micro-step (40 R116). -/
def deccOp (s : State) : Except Refusal MicroOp :=
  match s.cst with
  | .accumulate => chunkOp s
  | .done => .ok (.finish (s.acc.setWidth 35) (BitVec.ofNat 3 s.cursor))

/-- The operation that begins a point, or why the point is outside the domain (43 R161, R162). -/
def pointOp (s : State) : Except Refusal MicroOp := do
  let a ← scaleInt (pointAt s s.cursor).lat s.prec
  let b ← scaleInt (pointAt s s.cursor).lon s.prec
  return .loadPoint (BitVec.ofInt 32 a) (BitVec.ofInt 32 b) (BitVec.ofNat 35 (zigZag (delta a s.prevLat)))

/-- The operation of `ENCP`'s micro-step (43 R160, R161). -/
def encpOp (s : State) : Except Refusal MicroOp :=
  match s.est, s.phase with
  | .idle, _ => if s.cursor < s.len then pointOp s else .ok (.finish 0#35 0#3)
  | .passing, _ => .ok .pass
  | .done, .lat => .ok (.loadLon (BitVec.ofNat 35 (zigZag (delta s.sLon.toInt s.prevLon))))
  | .done, .lon => .ok .endPoint

/-- The operation of `ENCL`'s micro-step (44 R180). -/
def enclOp (s : State) : MicroOp :=
  match s.est with
  | .idle => if s.cursor < s.len then .load ((levelAt s s.cursor).setWidth 35) else .finish 0#35 0#3
  | .passing => .pass
  | .done => .endLevel

/-- The operation of `DECP`'s micro-step (43 R163, R164). -/
def decpOp (s : State) : Except Refusal MicroOp :=
  match s.cst, s.phase with
  | .accumulate, _ => if s.gcnt = 0#3 ∧ s.phase = .lat ∧ s.len ≤ s.cursor then .ok (.finish 0#35 0#3) else chunkOp s
  | .done, .lat => (accumulate s.latAcc (unZigZag s.acc.toNat) s.prec).map .latValue
  | .done, .lon => (accumulate s.lonAcc (unZigZag s.acc.toNat) s.prec).map .lonValue

/-- The operation of `DECL`'s micro-step (44 R181). -/
def declOp (s : State) : Except Refusal MicroOp :=
  match s.cst with
  | .accumulate => if s.gcnt = 0#3 ∧ s.len ≤ s.cursor then .ok (.finish 0#35 0#3) else chunkOp s
  | .done => .ok .levelValue

/-- The operation of the running command's next micro-step, or why it has none. -/
def microOp (s : State) : Except Refusal MicroOp :=
  match s.op.toNat with
  | 1 => .ok (encuOp s)
  | 2 => deccOp s
  | 3 => .ok (.finish (rvalUnsigned (zigZag (opaSigned33 s))) 0#3)
  | 4 => .ok (.finish (rvalSigned (unZigZag (opaUnsigned33 s))) 0#3)
  | 5 => (scaleInt s.opfLatch s.prec).map fun n => .finish (rvalSigned n) 0#3
  | 6 => encpOp s
  | 7 => decpOp s
  | 8 => .ok (enclOp s)
  | 9 => declOp s
  | _ => .error .noRunningCommand

/-- The answer of a micro-step that chose an operation or was refused. -/
def answer (s : State) : Except Refusal MicroOp → Result
  | .ok m => .next (m.perform s)
  | .error r => .refused r

@[simp] theorem answer_ok (s : State) (m : MicroOp) : answer s (.ok m) = .next (m.perform s) := rfl
@[simp] theorem answer_error (s : State) (r : Refusal) : answer s (.error r) = .refused r := rfl

theorem answer_next {s t : State} {o : Except Refusal MicroOp} (h : answer s o = .next t) : ∃ m, o = .ok m ∧ t = m.perform s := by
  cases o with
  | error r => cases h
  | ok m => cases h; exact ⟨m, rfl, rfl⟩

/-! ## The model's micro-steps are the chosen operations performed -/

/-- Executing a decoded byte is accepting the symbol with its flag and group (30 R80). -/
theorem execSymbol_decoded {b : Byte} {i : Instr} (s : State) (h : decodeSymbol b = .ok i) :
    execSymbol i s = acceptSymbol ((rawOf b).getLsbD 5) ((rawOf b).extractLsb' 0 5) s := by
  rcases decodeSymbol_cases b with ⟨-, hd⟩ | ⟨-, ⟨hd, hc⟩ | ⟨hd, hc⟩⟩ <;> rw [hd] at h <;> cases h
  · rw [hc]; rfl
  · rw [hc]; rfl

theorem chunkStep_eq (s : State) : chunkStep s = answer s (chunkOp s) := by
  unfold chunkStep chunkOp
  by_cases hlen : s.len ≤ s.cursor
  · simp only [if_pos hlen]; rfl
  by_cases hg : s.gcnt = 6#3
  · simp only [if_neg hlen, if_pos hg]; rfl
  simp only [if_neg hlen, if_neg hg, readByte_of_lt (not_le.mp hlen)]
  cases hd : decodeSymbol (byteAt s s.cursor) with
  | error e => rfl
  | ok i =>
    have hsome : (Except.ok i : Except DecodeError Instr).toOption ≠ none := Option.some_ne_none i
    rw [if_neg hsome]
    refine (execSymbol_decoded s hd).trans ?_
    rcases acceptSymbol_cases ((rawOf (byteAt s s.cursor)).getLsbD 5) ((rawOf (byteAt s s.cursor)).extractLsb' 0 5) s with
      ⟨he, ha⟩ | ⟨-, h, -⟩ | ⟨-, -, h, -⟩ | ⟨he, -, -, ha⟩
    · rw [ha, if_neg he]; rfl
    · exact absurd h hlen
    · exact absurd h hg
    · rw [ha, if_pos he]; rfl

theorem encuStep_eq (s : State) : encuStep s = .next ((encuOp s).perform s) := by
  unfold encuStep encuOp
  cases s.est <;> rfl

theorem deccStep_eq (s : State) : deccStep s = answer s (deccOp s) := by
  unfold deccStep deccOp
  cases s.cst
  · exact chunkStep_eq s
  · rfl

theorem scaleStep_eq (s : State) :
    scaleStep s = answer s ((scaleInt s.opfLatch s.prec).map fun n => .finish (rvalSigned n) 0#3) := by
  unfold scaleStep
  cases scaleInt s.opfLatch s.prec <;> rfl

theorem encodePoint_eq {s : State} (h : s.cursor < s.len) : encodePoint s = answer s (pointOp s) := by
  unfold encodePoint pointOp
  rw [readPoint_of_lt h]
  dsimp only
  cases scaleInt (pointAt s s.cursor).lat s.prec <;> cases scaleInt (pointAt s s.cursor).lon s.prec <;> rfl

theorem encpStep_eq (s : State) : encpStep s = answer s (encpOp s) := by
  unfold encpStep encpOp
  cases s.est with
  | idle =>
    by_cases h : s.cursor < s.len
    · simp only [if_pos h, encodePoint_eq h]
    · simp only [if_neg h]; rfl
  | passing => rfl
  | done => unfold endDelta; cases s.phase <;> rfl

theorem enclStep_eq (s : State) : enclStep s = .next ((enclOp s).perform s) := by
  unfold enclStep enclOp
  cases s.est with
  | idle =>
    by_cases h : s.cursor < s.len
    · simp only [if_pos h, readLevel_of_lt h]; rfl
    · simp only [if_neg h]; rfl
  | passing => rfl
  | done => rfl

theorem decpStep_eq (s : State) : decpStep s = answer s (decpOp s) := by
  unfold decpStep decpOp
  cases hc : s.cst with
  | accumulate =>
    dsimp only
    split
    · rfl
    · exact chunkStep_eq s
  | done =>
    cases s.phase with
    | lat => dsimp only; cases accumulate s.latAcc (unZigZag s.acc.toNat) s.prec <;> rfl
    | lon =>
      dsimp only
      cases accumulate s.lonAcc (unZigZag s.acc.toNat) s.prec with
      | error r => rfl
      | ok a => simp only [Except.map, answer_ok, MicroOp.perform, hc]

theorem declStep_eq (s : State) : declStep s = answer s (declOp s) := by
  unfold declStep declOp
  cases s.cst with
  | accumulate =>
    dsimp only
    split
    · rfl
    · exact chunkStep_eq s
  | done => rfl

/-- A micro-step is the operation chosen, performed. -/
theorem blockStep_eq (s : State) : blockStep s = answer s (microOp s) := by
  unfold blockStep microOp
  generalize s.op.toNat = n
  split
  · exact encuStep_eq s
  · exact deccStep_eq s
  · rfl
  · rfl
  · exact scaleStep_eq s
  · exact encpStep_eq s
  · exact decpStep_eq s
  · exact enclStep_eq s
  · exact declStep_eq s
  · simp [*]

theorem blockStep_next {s t : State} (h : blockStep s = .next t) : ∃ m, microOp s = .ok m ∧ t = m.perform s :=
  answer_next (blockStep_eq s ▸ h)

/-! ## When an operation is chosen -/

/-- What holds of the registers where a running command chooses the operation. -/
def MicroOp.Enabled (s : State) : MicroOp → Prop
  | .finish _ c => c = 0#3 ∨ (s.op = 2#4 ∧ s.cst = .done ∧ c = BitVec.ofNat 3 s.cursor)
  | .fault _ => True
  | .load _ => s.est = .idle ∧ (s.op = 1#4 ∨ s.op = 8#4 ∧ s.cursor < s.len)
  | .loadPoint _ _ _ => s.est = .idle ∧ s.op = 6#4 ∧ s.cursor < s.len
  | .pass => s.est = .passing ∧ (s.op = 1#4 ∨ s.op = 6#4 ∨ s.op = 8#4)
  | .loadLon _ => s.est = .done ∧ s.op = 6#4 ∧ s.phase = .lat
  | .endPoint => s.est = .done ∧ s.op = 6#4 ∧ s.phase = .lon
  | .endLevel => s.est = .done ∧ s.op = 8#4
  | .accept _ _ => ChunkEnabled s ∧ s.cursor < s.len ∧ s.gcnt ≠ 6#3
  | .latValue a => s.op = 7#4 ∧ s.cst = .done ∧ s.phase = .lat ∧ accumulate s.latAcc (unZigZag s.acc.toNat) s.prec = .ok a
  | .lonValue a => s.op = 7#4 ∧ s.cst = .done ∧ s.phase = .lon ∧ accumulate s.lonAcc (unZigZag s.acc.toNat) s.prec = .ok a
  | .levelValue => s.op = 9#4 ∧ s.cst = .done

theorem chunkOp_enabled {s : State} {m : MicroOp} (h : chunkOp s = .ok m) : m.Enabled s := by
  unfold chunkOp at h
  split at h
  · cases h; trivial
  · split at h
    · cases h; trivial
    · split at h
      · cases h; trivial
      · split at h
        · cases h; exact ⟨by assumption, by omega, by assumption⟩
        · cases h

theorem encuOp_enabled {s : State} (hop : s.op = 1#4) : (encuOp s).Enabled s := by
  unfold encuOp
  cases he : s.est
  · exact ⟨he, .inl hop⟩
  · exact ⟨he, .inl hop⟩
  · exact .inl rfl

theorem deccOp_enabled {s : State} {m : MicroOp} (hop : s.op = 2#4) (h : deccOp s = .ok m) : m.Enabled s := by
  unfold deccOp at h
  split at h
  · exact chunkOp_enabled h
  · next hc => cases h; exact .inr ⟨hop, hc, rfl⟩

theorem except_map_ok {α β : Type} {f : α → β} {x : Except Refusal α} {b : β} (h : x.map f = .ok b) : ∃ a, x = .ok a ∧ f a = b := by
  cases x with
  | error r => cases h
  | ok a => cases h; exact ⟨a, rfl, rfl⟩

theorem pointOp_loads {s : State} {m : MicroOp} (h : pointOp s = .ok m) : ∃ a b u, m = .loadPoint a b u := by
  unfold pointOp at h
  cases ha : scaleInt (pointAt s s.cursor).lat s.prec with
  | error r => rw [ha] at h; cases h
  | ok a =>
    cases hb : scaleInt (pointAt s s.cursor).lon s.prec with
    | error r => rw [ha, hb] at h; cases h
    | ok b => rw [ha, hb] at h; cases h; exact ⟨_, _, _, rfl⟩

theorem encpOp_enabled {s : State} {m : MicroOp} (hop : s.op = 6#4) (h : encpOp s = .ok m) : m.Enabled s := by
  unfold encpOp at h
  split at h
  · next he =>
    split at h
    · obtain ⟨a, b, u, rfl⟩ := pointOp_loads h
      exact ⟨he, hop, by assumption⟩
    · cases h; exact .inl rfl
  · next he => cases h; exact ⟨he, .inr (.inl hop)⟩
  · next he hp => cases h; exact ⟨he, hop, hp⟩
  · next he hp => cases h; exact ⟨he, hop, hp⟩

theorem enclOp_enabled {s : State} (hop : s.op = 8#4) : (enclOp s).Enabled s := by
  unfold enclOp
  cases he : s.est with
  | idle =>
    dsimp only
    split
    · exact ⟨he, .inr ⟨hop, by assumption⟩⟩
    · exact .inl rfl
  | passing => exact ⟨he, .inr (.inr hop)⟩
  | done => exact ⟨he, hop⟩

theorem decpOp_enabled {s : State} {m : MicroOp} (hop : s.op = 7#4) (h : decpOp s = .ok m) : m.Enabled s := by
  unfold decpOp at h
  split at h
  · split at h
    · cases h; exact .inl rfl
    · exact chunkOp_enabled h
  · next hc hp => obtain ⟨a, ha, rfl⟩ := except_map_ok h; exact ⟨hop, hc, hp, ha⟩
  · next hc hp => obtain ⟨a, ha, rfl⟩ := except_map_ok h; exact ⟨hop, hc, hp, ha⟩

theorem declOp_enabled {s : State} {m : MicroOp} (hop : s.op = 9#4) (h : declOp s = .ok m) : m.Enabled s := by
  unfold declOp at h
  split at h
  · split at h
    · cases h; exact .inl rfl
    · exact chunkOp_enabled h
  · next hc => cases h; exact ⟨hop, hc⟩

/-- The operation chosen is enabled. -/
theorem microOp_enabled {s : State} {m : MicroOp} (h : microOp s = .ok m) : m.Enabled s := by
  unfold microOp at h
  split at h
  · next hop => cases h; exact encuOp_enabled (BitVec.eq_of_toNat_eq hop)
  · next hop => exact deccOp_enabled (BitVec.eq_of_toNat_eq hop) h
  · cases h; exact .inl rfl
  · cases h; exact .inl rfl
  · obtain ⟨n, -, rfl⟩ := except_map_ok h; exact .inl rfl
  · next hop => exact encpOp_enabled (BitVec.eq_of_toNat_eq hop) h
  · next hop => exact decpOp_enabled (BitVec.eq_of_toNat_eq hop) h
  · next hop => cases h; exact enclOp_enabled (BitVec.eq_of_toNat_eq hop)
  · next hop => exact declOp_enabled (BitVec.eq_of_toNat_eq hop) h
  · cases h

end Sys2Proof.Machine
end

section
/-! SUPPORT. The frame of a micro-step: the registers that no operation writes, what becomes of `CURSOR` and OUT, and the statement that is about
that alone. -/

namespace Sys2Proof.Machine

/-- The command and its latched operands, the input space, the host's registers and the host's side are the same in two states. -/
structure SameSetting (s t : State) : Prop where
  cmd : t.cmd = s.cmd
  op : t.op = s.op
  prec : t.prec = s.prec
  opaLatch : t.opaLatch = s.opaLatch
  opfLatch : t.opfLatch = s.opfLatch
  len : t.len = s.len
  inp : t.inp = s.inp
  epoch : t.epoch = s.epoch
  opa : t.opa = s.opa
  opf : t.opf = s.opf
  precIn : t.precIn = s.precIn
  inLen : t.inLen = s.inLen
  host : t.host = s.host

theorem faultCode_ne_zero (f : FaultKind) : faultCode f ≠ 0#3 := by cases f <;> decide

theorem nextValue_of_lt {s : State} (h : s.cursor < s.len) : nextValue s = chunkStart s := if_pos h

theorem nextValue_of_le {s : State} (h : s.len ≤ s.cursor) : nextValue s = finishOk 0#35 0#3 s := if_neg h.not_gt

/-- The test at a value boundary starts a value or ends the command (43 R163, 44 R181). -/
theorem nextValue_cases (s : State) : nextValue s = chunkStart s ∨ nextValue s = finishOk 0#35 0#3 s :=
  (Nat.lt_or_ge s.cursor s.len).imp nextValue_of_lt nextValue_of_le

theorem nextValue_sameSetting (s : State) : SameSetting s (nextValue s) := by
  rcases nextValue_cases s with h | h <;> rw [h] <;> constructor <;> rfl

@[simp] theorem nextValue_cursor (s : State) : (nextValue s).cursor = s.cursor := by
  rcases nextValue_cases s with h | h <;> rw [h] <;> rfl

@[simp] theorem nextValue_out (s : State) : (nextValue s).out = s.out := by
  rcases nextValue_cases s with h | h <;> rw [h] <;> rfl

@[simp] theorem nextValue_ocnt (s : State) : (nextValue s).ocnt = s.ocnt := by
  rcases nextValue_cases s with h | h <;> rw [h] <;> rfl

namespace MicroOp

variable (s : State) (m : MicroOp)

theorem perform_sameSetting : SameSetting s (m.perform s) := by
  cases m with
  | lonValue a => exact { nextValue_sameSetting (emit (.point ⟨s.latAcc, a⟩) { s with lonAcc := a, phase := .lat }) with }
  | levelValue => exact { nextValue_sameSetting (emit (.level (s.acc.setWidth 32)) s) with }
  | _ => constructor <;> rfl

theorem perform_cursor : (m.perform s).cursor = s.cursor ∨ (m.perform s).cursor = s.cursor + 1 := by
  cases m with
  | endPoint | endLevel | accept => exact .inr rfl
  | lonValue | levelValue => exact .inl (nextValue_cursor _)
  | _ => exact .inl rfl

/-- OUT is left alone, or it is written at `OCNT` and `OCNT` advances; at a fault `OCNT` falls to 0. -/
theorem perform_out :
    ((m.perform s).out = s.out ∧ ((m.perform s).ocnt = s.ocnt ∨ ∃ f, m = .fault f)) ∨
      ∃ e, (m.perform s).out = spaceWrite s.out s.ocnt e ∧ (m.perform s).ocnt = s.ocnt + 1 := by
  cases m with
  | pass => exact .inr ⟨_, rfl, rfl⟩
  | lonValue | levelValue => exact .inr ⟨_, nextValue_out _, nextValue_ocnt _⟩
  | fault f => exact .inl ⟨rfl, .inr ⟨f, rfl⟩⟩
  | _ => exact .inl ⟨rfl, .inl rfl⟩

theorem perform_keeps_emitted {k : Nat} (hk : k < s.ocnt) : spaceRead (m.perform s).out k = spaceRead s.out k := by
  rcases perform_out s m with ⟨h, -⟩ | ⟨e, h, -⟩
  · rw [h]
  · rw [h, spaceRead_spaceWrite_other _ _ hk.ne]

theorem perform_ocnt :
    s.ocnt ≤ (m.perform s).ocnt ∨
      ((m.perform s).ocnt = 0 ∧ (m.perform s).busy = false ∧ (m.perform s).status ≠ 0#3) := by
  rcases perform_out s m with ⟨-, h | ⟨f, rfl⟩⟩ | ⟨e, -, h⟩
  · exact .inl h.ge
  · exact .inr ⟨rfl, rfl, faultCode_ne_zero f⟩
  · exact .inl (by omega)

end MicroOp

theorem blockStep_sameSetting {s t : State} (h : blockStep s = .next t) : SameSetting s t := by
  obtain ⟨m, -, rfl⟩ := blockStep_next h
  exact m.perform_sameSetting s

/-- Settles O53: each clause is one of the operations' frame lemmas. -/
theorem microStepsOnlyAdvance : Obligations.MicroStepsOnlyAdvance := by
  intro s t h
  obtain ⟨m, -, rfl⟩ := blockStep_next h
  obtain ⟨hcmd, hop, hprec, hopa, hopf, hlen, hinp, -⟩ := m.perform_sameSetting s
  exact ⟨m.perform_cursor s, hop, hprec, hlen, hopa, hopf, hcmd, hinp, fun k => m.perform_keeps_emitted s, m.perform_ocnt s⟩

/-! ## The host's operand registers play no part in a micro-step -/

/-- Other values in the host's three operand registers. -/
def setOperands (v : BitVec 35) (x p : F64) (s : State) : State := { s with opa := v, opf := x, precIn := p }

section setOperands

variable (v : BitVec 35) (x p : F64) (s : State)

/-- The choice of an operation reads the latches only. -/
theorem microOp_setOperands : microOp (setOperands v x p s) = microOp s := rfl

theorem nextValue_setOperands : nextValue (setOperands v x p s) = setOperands v x p (nextValue s) := by
  rcases Nat.lt_or_ge s.cursor s.len with h | h
  · rw [nextValue_of_lt h, nextValue_of_lt (s := setOperands v x p s) h]; rfl
  · rw [nextValue_of_le h, nextValue_of_le (s := setOperands v x p s) h]; rfl

theorem MicroOp.perform_setOperands (m : MicroOp) : m.perform (setOperands v x p s) = setOperands v x p (m.perform s) := by
  cases m with
  | lonValue a => exact nextValue_setOperands v x p (emit (.point ⟨s.latAcc, a⟩) { s with lonAcc := a, phase := .lat })
  | levelValue => exact nextValue_setOperands v x p (emit (.level (s.acc.setWidth 32)) s)
  | _ => rfl

theorem blockStep_setOperands : blockStep (setOperands v x p s) = answer (setOperands v x p s) (microOp s) :=
  blockStep_eq (setOperands v x p s)

end setOperands

/-- Whatever the three operand registers hold, a micro-step answers the same and leaves them alone. -/
theorem blockStep_setOperands_cases (s : State) (v : BitVec 35) (x p : F64) :
    match blockStep s with
    | .next t => blockStep (setOperands v x p s) = .next (setOperands v x p t)
    | .fault f => blockStep (setOperands v x p s) = .fault f
    | .refused r => blockStep (setOperands v x p s) = .refused r := by
  rw [blockStep_setOperands, blockStep_eq]
  cases microOp s with
  | error r => rfl
  | ok m => exact congrArg _ (m.perform_setOperands v x p s)

end Sys2Proof.Machine
end

section
/-! SUPPORT. A command as a run of the block's micro-steps: its meaning runs `blockStep` (log 11), and the run ends within `stepBound` (70 R238). -/

namespace Sys2Proof.Machine

/-! ## The meaning of a command runs the block's micro-steps -/

theorem runSteps_congr {body : State → Result} {c : BitVec 4} (hbody : ∀ s, s.op = c → body s = blockStep s) (n : Nat) {s : State}
    (hs : s.op = c) : runSteps body n s = runSteps blockStep n s := by
  induction n generalizing s with
  | zero => rfl
  | succ n ih =>
    simp only [runSteps, hbody s hs]
    cases ht : blockStep s with
    | next t => simp only [ih ((blockStep_sameSetting ht).op.trans hs)]
    | fault f => rfl
    | refused r => rfl

theorem runCommand_congr {i : Instr} {body : State → Result} (hbody : ∀ s, s.op = cmdOpc (encode i) → body s = blockStep s)
    (s : State) : runCommand i body s = runCommand i blockStep s := by
  unfold runCommand
  rw [runSteps_congr hbody _ (commandStart_op i s)]

/-- A command's meaning is command start and then the block's own micro-steps. -/
theorem exec_eq_runCommand {i : Instr} (hi : i.code = .command) (s : State) : exec i s = runCommand i blockStep s := by
  cases i with
  | wireTerminator g | wireContinuation g => cases hi
  | scale p | encp p | decp p =>
    refine runCommand_congr (fun t ht => ?_) s
    unfold blockStep
    rw [ht]
    cases p <;> rfl
  | _ =>
    refine runCommand_congr (fun t ht => ?_) s
    unfold blockStep
    rw [ht]
    rfl

theorem runSteps_succ {s : State} (hb : s.busy = true) {m : MicroOp} (hm : microOp s = .ok m) (n : Nat) :
    runSteps blockStep (n + 1) s = runSteps blockStep n (m.perform s) := by
  simp only [runSteps, hb, if_true, blockStep_eq, hm, answer_ok]

theorem runSteps_refused {s : State} (hb : s.busy = true) {r : Refusal} (hm : microOp s = .error r) (n : Nat) :
    runSteps blockStep (n + 1) s = .refused r := by
  simp only [runSteps, hb, if_true, blockStep_eq, hm, answer_error]

/-! ## The run ends -/

/-- How many passes of `EncodeValue`'s loop the value `v` takes (40 R110). -/
def passesLeft (v : BitVec 35) : Nat := Nat.log 32 v.toNat + 1

theorem passesLeft_le (v : BitVec 35) : passesLeft v ≤ 7 := by
  have h : Nat.log 32 v.toNat < 7 := Nat.log_lt_of_lt_pow' (by decide) v.isLt
  exact h

theorem passesLeft_shift {v : BitVec 35} (h : v >>> 5 ≠ 0#35) : passesLeft (v >>> 5) < passesLeft v := by
  have hv : (v >>> 5).toNat = v.toNat / 32 := by rw [BitVec.toNat_ushiftRight, Nat.shiftRight_eq_div_pow]
  have hne : v.toNat / 32 ≠ 0 := fun h0 => h (BitVec.eq_of_toNat_eq (hv.trans h0))
  have hpos : 0 < Nat.log 32 v.toNat := Nat.log_pos (by decide) (by omega)
  simp only [passesLeft, hv, Nat.log_div_base]
  omega

/-- The micro-steps that are left of the value being encoded. -/
def encodeLeft (s : State) : Nat :=
  match s.est with
  | .idle => 0
  | .passing => passesLeft s.v + 1
  | .done => 1

/-- A bound on the micro-steps that are left of the running command, by `OP`, counted as `stepBound` counts them. -/
def stepsLeft (s : State) : Nat :=
  match s.op.toNat with
  | 1 => if s.est = .idle then 9 else encodeLeft s
  | 2 | 7 | 9 => 2 * (s.len - s.cursor) + 1 + if s.cst = .done then 1 else 0
  | 6 =>
    if s.est = .idle then 17 * (s.len - s.cursor) + 1
    else 17 * (s.len - s.cursor - 1) + 1 + encodeLeft s + if s.phase = .lat then 8 else 0
  | 8 => if s.est = .idle then 9 * (s.len - s.cursor) + 1 else 9 * (s.len - s.cursor - 1) + 1 + encodeLeft s
  | _ => 1

theorem encodeLeft_pos {s : State} (h : s.est ≠ .idle) : 0 < encodeLeft s := by
  unfold encodeLeft
  cases he : s.est
  · exact absurd he h
  · exact Nat.succ_pos _
  · exact one_pos

theorem stepsLeft_pos (s : State) : 0 < stepsLeft s := by
  unfold stepsLeft
  split
  · split
    · decide
    · exact encodeLeft_pos (by assumption)
  · omega
  · omega
  · omega
  · split <;> omega
  · split <;> omega
  · exact one_pos

theorem stepsLeft_commandStart {i : Instr} (hi : i.code = .command) (s : State) :
    stepsLeft (commandStart i s) ≤ stepBound i s.inLen := by
  cases i with
  | wireTerminator g | wireContinuation g => cases hi
  | scale p | encp p | decp p => cases p <;> exact le_rfl
  | _ => exact le_rfl

theorem isDecodeOp_cases {c : BitVec 4} (h : isDecodeOp c = true) : c = 2#4 ∨ c = 7#4 ∨ c = 9#4 := by
  simpa [isDecodeOp, or_assoc] using h

theorem stepsLeft_decode {s : State} (h : isDecodeOp s.op = true) :
    stepsLeft s = 2 * (s.len - s.cursor) + 1 + if s.cst = .done then 1 else 0 := by
  unfold stepsLeft
  rcases isDecodeOp_cases h with h | h | h <;> rw [h] <;> rfl

theorem stepsLeft_encu {s : State} (h : s.op = 1#4) : stepsLeft s = if s.est = .idle then 9 else encodeLeft s := by
  unfold stepsLeft
  rw [h]; rfl

theorem stepsLeft_encp {s : State} (h : s.op = 6#4) :
    stepsLeft s = if s.est = .idle then 17 * (s.len - s.cursor) + 1
      else 17 * (s.len - s.cursor - 1) + 1 + encodeLeft s + if s.phase = .lat then 8 else 0 := by
  unfold stepsLeft
  rw [h]; rfl

theorem stepsLeft_encl {s : State} (h : s.op = 8#4) :
    stepsLeft s = if s.est = .idle then 9 * (s.len - s.cursor) + 1 else 9 * (s.len - s.cursor - 1) + 1 + encodeLeft s := by
  unfold stepsLeft
  rw [h]; rfl

theorem encodeLeft_encodeStart (u : BitVec 35) (s : State) : encodeLeft (encodeStart u s) ≤ 8 :=
  Nat.succ_le_succ (passesLeft_le u)

theorem encodeLeft_encodePass {s : State} (h : s.est = .passing) : encodeLeft (encodePass s) < encodeLeft s := by
  by_cases hv : s.v >>> 5 = 0#35
  · simp [encodeLeft, h, hv, passesLeft]
  · simpa [encodeLeft, h, hv] using passesLeft_shift hv

theorem stepsLeft_nextValue {s t : State} (hop : isDecodeOp s.op = true) (hc : s.cst = .done) (ho : t.op = s.op)
    (hl : t.len = s.len) (hcur : t.cursor = s.cursor) (hb : (nextValue t).busy = true) : stepsLeft (nextValue t) < stepsLeft s := by
  rcases nextValue_cases t with ht | ht
  · rw [ht, stepsLeft_decode hop, stepsLeft_decode (s := chunkStart t) (ho ▸ hop), if_pos hc]
    simp only [chunkStart_len, chunkStart_cursor, chunkStart_cst, hl, hcur, reduceCtorEq, if_false]
    omega
  · rw [ht] at hb; cases hb

/-- Every operation that does not end the command leaves fewer micro-steps. -/
theorem MicroOp.stepsLeft_perform {s : State} {m : MicroOp} (hm : m.Enabled s) (hb : (m.perform s).busy = true) :
    stepsLeft (m.perform s) < stepsLeft s := by
  cases m with
  | finish r c => cases hb
  | fault f => cases hb
  | load u =>
    have hu := encodeLeft_encodeStart u s
    obtain ⟨he, hop | ⟨hop, hlt⟩⟩ := hm
    · rw [stepsLeft_encu hop, stepsLeft_encu (s := (load u).perform s) hop, if_pos he]
      exact hu.trans_lt (by decide)
    · rw [stepsLeft_encl hop, stepsLeft_encl (s := (load u).perform s) hop, if_pos he]
      simp only [perform, encodeStart_est, encodeStart_len, encodeStart_cursor, reduceCtorEq, if_false]
      omega
  | loadPoint a b u =>
    have hu := encodeLeft_encodeStart u { s with sLat := a, sLon := b, phase := .lat }
    obtain ⟨he, hop, hlt⟩ := hm
    rw [stepsLeft_encp hop, stepsLeft_encp (s := (loadPoint a b u).perform s) hop, if_pos he]
    simp only [perform, encodeStart_est, encodeStart_len, encodeStart_cursor, encodeStart_phase, reduceCtorEq, if_false, if_true]
    omega
  | pass =>
    obtain ⟨he, hop⟩ := hm
    have hlt := encodeLeft_encodePass he
    have hne : s.est ≠ .idle := by rw [he]; decide
    have hne' : (pass.perform s).est ≠ .idle := by rw [perform, encodePass_est]; split <;> decide
    rcases hop with hop | hop | hop
    · rw [stepsLeft_encu hop, stepsLeft_encu (s := pass.perform s) hop, if_neg hne, if_neg hne']
      exact hlt
    · rw [stepsLeft_encp hop, stepsLeft_encp (s := pass.perform s) hop, if_neg hne, if_neg hne']
      exact Nat.add_lt_add_right (Nat.add_lt_add_left hlt _) _
    · rw [stepsLeft_encl hop, stepsLeft_encl (s := pass.perform s) hop, if_neg hne, if_neg hne']
      exact Nat.add_lt_add_left hlt _
  | loadLon u =>
    have hu := encodeLeft_encodeStart u { s with phase := .lon }
    obtain ⟨he, hop, hp⟩ := hm
    rw [stepsLeft_encp hop, stepsLeft_encp (s := (loadLon u).perform s) hop]
    simp only [perform, he, hp, encodeStart_est, encodeStart_len, encodeStart_cursor, encodeStart_phase, reduceCtorEq,
      if_false, if_true, encodeLeft] at hu ⊢
    omega
  | endPoint =>
    obtain ⟨he, hop, hp⟩ := hm
    rw [stepsLeft_encp hop, stepsLeft_encp (s := endPoint.perform s) hop]
    simp only [perform, he, hp, reduceCtorEq, if_false, if_true, encodeLeft]
    omega
  | endLevel =>
    obtain ⟨he, hop⟩ := hm
    rw [stepsLeft_encl hop, stepsLeft_encl (s := endLevel.perform s) hop]
    simp only [perform, he, reduceCtorEq, if_false, if_true, encodeLeft]
    omega
  | accept c g =>
    obtain ⟨⟨-, hop, hc⟩, hlt, -⟩ := hm
    rw [stepsLeft_decode hop, stepsLeft_decode (s := (accept c g).perform s) hop]
    cases c <;> simp only [perform, accepted, hc, reduceCtorEq, if_false, if_true] <;> omega
  | latValue a =>
    obtain ⟨hop, hc, -⟩ := hm
    have hdec : isDecodeOp s.op = true := by rw [hop]; rfl
    rw [stepsLeft_decode hdec, stepsLeft_decode (s := (latValue a).perform s) hdec, if_pos hc]
    exact Nat.lt_succ_self _
  | lonValue a =>
    obtain ⟨hop, hc, -⟩ := hm
    have hdec : isDecodeOp s.op = true := by rw [hop]; rfl
    exact stepsLeft_nextValue hdec hc rfl rfl rfl hb
  | levelValue =>
    obtain ⟨hop, hc⟩ := hm
    have hdec : isDecodeOp s.op = true := by rw [hop]; rfl
    exact stepsLeft_nextValue hdec hc rfl rfl rfl hb

/-- A run of at least as many micro-steps as are left ends the command, and goes on for no longer. -/
theorem runSteps_ends {n : Nat} {s t : State} (hn : stepsLeft s ≤ n) (h : runSteps blockStep n s = .next t) :
    t.busy = false ∧ ∀ k, n ≤ k → runSteps blockStep k s = .next t := by
  induction n generalizing s with
  | zero => exact absurd hn (stepsLeft_pos s).not_ge
  | succ n ih =>
    cases hb : s.busy with
    | false =>
      rw [runSteps_idle _ _ hb] at h
      cases h
      exact ⟨hb, fun k _ => runSteps_idle _ k hb⟩
    | true =>
      cases hm : microOp s with
      | error r => rw [runSteps_refused hb hm] at h; cases h
      | ok m =>
        rw [runSteps_succ hb hm] at h
        have hend : t.busy = false ∧ ∀ k, n ≤ k → runSteps blockStep k (m.perform s) = .next t := by
          cases hbm : (m.perform s).busy with
          | false =>
            rw [runSteps_idle _ _ hbm] at h
            cases h
            exact ⟨hbm, fun k _ => runSteps_idle _ k hbm⟩
          | true =>
            have hlt := MicroOp.stepsLeft_perform (microOp_enabled hm) hbm
            exact ih (by omega) h
        refine ⟨hend.1, fun k hk => ?_⟩
        obtain ⟨k, rfl⟩ : ∃ j, k = j + 1 := ⟨k - 1, by omega⟩
        rw [runSteps_succ hb hm]
        exact hend.2 k (by omega)

/-- Where a command's meaning answers a next state, it is the end of the run of micro-steps from command start, which goes on for no longer. -/
theorem exec_next {i : Instr} (hi : i.code = .command) {s t : State} (h : exec i s = .next t) :
    s.busy = false ∧ precisionOk (selectedPrecision i.psel s) = true ∧ t.busy = false ∧
      ∀ n, stepBound i s.inLen ≤ n → runSteps blockStep n (commandStart i s) = .next t := by
  rw [exec_eq_runCommand hi] at h
  obtain ⟨hb, hp, hrun⟩ := runCommand_next h
  exact ⟨hb, hp, runSteps_ends (stepsLeft_commandStart hi s) hrun⟩

end Sys2Proof.Machine
end

section
/-! SUPPORT. What a step does: the block's micro-step while it is busy and the host waits, else the host's move; and the statements about steps and
runs. -/

namespace Sys2Proof.Machine

/-- The outcome of what a step finds to do. -/
def Fetched.outcome : Fetched → Result
  | .run i s => exec i s
  | .other r => r

theorem step_eq (s : State) : step s = (fetch s).outcome := rfl

/-! ## The block's turn -/

theorem exec_decoded {b : Byte} {i : Instr} (s : State) (h : decodeSymbol b = .ok i) : exec i s = execSymbol i s := by
  rcases decodeSymbol_cases b with ⟨-, hd⟩ | ⟨-, ⟨hd, -⟩ | ⟨hd, -⟩⟩ <;> rw [hd] at h <;> cases h <;> rfl

theorem chunkStep_decoded {s : State} {i : Instr} (hlt : s.cursor < s.len) (hg : s.gcnt ≠ 6#3)
    (h : decodeSymbol (byteAt s s.cursor) = .ok i) : chunkStep s = execSymbol i s := by
  rw [chunkStep, if_neg hlt.not_ge, if_neg hg, readByte_of_lt hlt]
  simp only [h]

/-- Inside a value, a decode command's micro-step is a `ChunkStep`. -/
theorem blockStep_accumulating {s : State} (hop : isDecodeOp s.op = true) (hc : s.cst = .accumulate) (hlt : s.cursor < s.len) :
    blockStep s = chunkStep s := by
  unfold blockStep
  rcases isDecodeOp_cases hop with h | h | h <;> rw [h]
  · change deccStep s = _
    simp only [deccStep, hc]
  · change decpStep s = _
    simp only [decpStep, hc, hlt.not_ge, and_false, if_false]
  · change declStep s = _
    simp only [declStep, hc, hlt.not_ge, and_false, if_false]

theorem fetchSymbol_some {s : State} {i : Instr} (h : fetchSymbol s = some i) :
    isDecodeOp s.op = true ∧ s.cst = .accumulate ∧ s.cursor < s.len ∧ s.gcnt ≠ 6#3 ∧ decodeSymbol (byteAt s s.cursor) = .ok i := by
  unfold fetchSymbol at h
  split at h
  · next hc =>
    simp only [Bool.and_eq_true, decide_eq_true_eq] at hc
    obtain ⟨⟨⟨hop, hcst⟩, hlt⟩, hg⟩ := hc
    rw [readByte_of_lt hlt] at h
    refine ⟨hop, hcst, hlt, hg, ?_⟩
    dsimp only at h
    cases hd : decodeSymbol (byteAt s s.cursor) with
    | error e => rw [hd] at h; cases h
    | ok j => rw [hd] at h; cases h; rfl
  · cases h

/-- Fetching a wire symbol and executing it is the running command's micro-step. -/
theorem fetchBusy_outcome (s : State) : (fetchBusy s).outcome = blockStep s := by
  unfold fetchBusy
  cases h : fetchSymbol s with
  | none => rfl
  | some i =>
    obtain ⟨hop, hc, hlt, hg, hd⟩ := fetchSymbol_some h
    rw [blockStep_accumulating hop hc hlt, chunkStep_decoded hlt hg hd]
    exact exec_decoded s hd

/-! ## The step, by the host's next action -/

theorem step_no_host {s : State} (hh : s.host = []) : step s = if s.busy then blockStep s else .next s := by
  rw [step_eq, fetch, hh]
  cases s.busy
  · rfl
  · exact fetchBusy_outcome s

theorem step_wait {s : State} {rest : List HostAction} (hh : s.host = .wait :: rest) :
    step s = if s.busy then blockStep s else .next { s with host := rest } := by
  rw [step_eq, fetch, hh]
  cases s.busy
  · rfl
  · exact fetchBusy_outcome s

/-- Every other action is taken off the list and done. -/
theorem step_action {s : State} {a : HostAction} {rest : List HostAction} (hh : s.host = a :: rest) (ha : a ≠ .wait) :
    step s = (hostMove a { s with host := rest }).outcome := by
  rw [step_eq, fetch, hh]
  cases a with
  | wait => exact absurd rfl ha
  | _ => rfl

/-- Settles O7: with nothing pending, an idle block's step is the state itself. -/
theorem idleBlockStays : Obligations.IdleBlockStays := by
  intro s hb hh
  rw [step_no_host hh, hb]
  rfl

/-- Settles O4: the awaited write of `CMD` is the idle host's move, and it runs what the word decodes to. -/
theorem stepRunsDecodedCommand : Obligations.StepRunsDecodedCommand := by
  intro s w rest i hb hh hd
  have hd' : decodeCommand w = .ok i := hd
  rw [step_action hh (by rintro ⟨⟩), hostMove, if_neg (by simp [hb]), hd']
  rfl

/-- Settles O10: an idle write is one move of the host, and the choice of a micro-step reads the latches only. -/
theorem operandsAreLatched : Obligations.OperandsAreLatched := by
  refine ⟨fun s rest hb => ?_, fun s v x p _ => blockStep_setOperands_cases s v x p⟩
  have hidle : ¬ s.busy = true := by rw [hb]; decide
  refine ⟨fun v hh => ?_, fun x hh => ?_, fun p hh => ?_, fun n hh => ?_,
    fun i e hh => ⟨spaceWrite s.inp i e, ?_, fun k => spaceRead_spaceWrite s.inp i k e⟩⟩
  all_goals
    rw [step_action hh (by rintro ⟨⟩), hostMove]
    exact congrArg Fetched.outcome (if_neg hidle)

/-! ## Runs without a host -/

theorem run_succ_of_next (M : Host.Core) (n : Nat) {s t : M.State} (h : M.step s = .next t) : M.run (n + 1) s = M.run n t := by
  simp only [Host.Core.run, h]

theorem run_succ_of_refused (M : Host.Core) (n : Nat) {s : M.State} {r : M.Refusal} (h : M.step s = .refused r) :
    M.run (n + 1) s = .refused r := by
  simp only [Host.Core.run, h]

/-- With no action of the host pending, the machine's run is the running command's. -/
theorem run_eq_runSteps (n : Nat) {s : State} (hh : s.host = []) : Host.Core.run core n s = runSteps blockStep n s := by
  induction n generalizing s with
  | zero => rfl
  | succ n ih =>
    have hstep := step_no_host hh
    cases hb : s.busy with
    | false =>
      rw [hb] at hstep
      rw [runSteps_idle _ _ hb]
      exact (run_succ_of_next core n hstep).trans ((ih hh).trans (runSteps_idle _ _ hb))
    | true =>
      rw [hb, if_pos rfl, blockStep_eq] at hstep
      cases hm : microOp s with
      | ok m =>
        rw [hm] at hstep
        rw [runSteps_succ hb hm]
        exact (run_succ_of_next core n hstep).trans (ih ((m.perform_sameSetting s).host.trans hh))
      | error r =>
        rw [hm] at hstep
        rw [runSteps_refused hb hm]
        exact run_succ_of_refused core n hstep

theorem decodeCommand_encode {i : Instr} (hi : i.code = .command) : decodeCommand (encode i) = .ok i := by
  cases i with
  | wireTerminator g | wireContinuation g => cases hi
  | scale p | encp p | decp p => cases p <;> rfl
  | _ => rfl

/-- A write of `CMD` with a command's word, while the command may start, is command start. -/
theorem step_writeCmd {i : Instr} (hi : i.code = .command) {s : State} {rest : List HostAction} (hh : s.host = .writeCmd (encode i) :: rest)
    (hb : s.busy = false) (hp : precisionOk (selectedPrecision i.psel s) = true) :
    step s = .next (commandStart i { s with host := rest }) := by
  have hstart : startable i { s with host := rest } = none := (startable_none_iff i _).mpr ⟨hb, hp⟩
  rw [step_action hh (by rintro ⟨⟩), hostMove, if_neg (by simp [hb]), decodeCommand_encode hi]
  simp only [Fetched.outcome, startCommand, hstart]

/-- Settles O48: the step that writes `CMD` is command start, and the steps after it are the transaction's micro-steps, which end within
`stepBound`. -/
theorem microStepsReachTransaction : Obligations.MicroStepsReachTransaction := by
  intro i s t hi hh hexec n hn
  obtain ⟨hb, hp, -, hrun⟩ := exec_next hi hexec
  obtain ⟨k, rfl⟩ : ∃ k, n = k + 1 := ⟨n - 1, by omega⟩
  have hs : ({ s with host := [] } : State) = s := by rw [← hh]
  have hstep : step { s with host := [.writeCmd (encode i)] } = .next (commandStart i s) :=
    (step_writeCmd hi (s := { s with host := [.writeCmd (encode i)] }) rfl hb hp).trans (by rw [hs])
  refine (run_succ_of_next core k hstep).trans ((run_eq_runSteps k (s := commandStart i s) hh).trans ?_)
  exact hrun k (by omega)

end Sys2Proof.Machine
end

section
/-! SUPPORT. An accumulator of `DECP` never becomes `−0.0` (42 R144): a sum is `−0.0` only if both operands are. -/

namespace Sys2Proof.Machine

theorem infinityBits_ne_zero : infinityBits ≠ 0 := by decide

theorem gap_one_lt_gap_zero {n den : Nat} (hden : 0 < den) (hn : 1 ≤ n) : gap (n * den) den 1 < gap (n * den) den 0 :=
  gap_lt_of_lt_of_le hden one_pos (Nat.mul_le_mul_right den hn)

/-- Only zero rounds to zero: the least subnormal is nearer than zero to every whole number of units. -/
theorem eq_zero_of_roundNearest_eq_zero {n : Nat} (h : roundNearest n unitsPerOne = 0) : n = 0 := by
  by_contra hn
  have hbits : roundBits n unitsPerOne = 0 := by
    rw [roundNearest_eq, Nat.min_eq_zero_iff] at h
    exact h.resolve_right infinityBits_ne_zero
  have hnear := (roundBits_nearest n unitsPerOne_pos 1).1
  rw [hbits, bitsMagnitude_zero, show bitsMagnitude 1 = 1 from rfl] at hnear
  exact (gap_one_lt_gap_zero unitsPerOne_pos (Nat.one_le_iff_ne_zero.mpr hn)).not_ge hnear

theorem eq_negZero_of_units_eq_zero {x : F64} (hneg : f64Negative x = true) (hx : f64Units x = 0) : x = 0x8000000000000000#64 := by
  have hmag : bitsMagnitude (f64Bits x) = bitsMagnitude 0 := by
    rw [← f64Magnitude_eq, ← natAbs_f64Units, hx]
    rfl
  have hbits : f64Bits x = 0 := bitsMagnitude_strictMono.injective hmag
  rw [← f64Of_f64Bits x, hneg, hbits]
  rfl

theorem f64Units_nonpos {x : F64} (hneg : f64Negative x = true) : f64Units x ≤ 0 := by
  rw [f64Units, if_pos hneg]
  exact Int.neg_nonpos_of_nonneg (Int.natCast_nonneg _)

/-- A sum whose first operand is not `−0.0` is not `−0.0`. -/
theorem fadd_ne_negZero {a b : F64} (ha : a ≠ 0x8000000000000000#64) : fadd a b ≠ 0x8000000000000000#64 := by
  intro h
  rw [fadd_eq, Int.natAbs_natCast] at h
  have hround : roundNearest (f64Units a + f64Units b).natAbs unitsPerOne = 0 := by
    rw [← f64Bits_f64Of (faddSign a b) (roundNearest_le _ _), h]
    rfl
  have hsign : faddSign a b = true := by
    rw [← f64Negative_f64Of (faddSign a b) (roundNearest_le _ _), h]
    rfl
  have hsum : f64Units a + f64Units b = 0 := Int.natAbs_eq_zero.mp (eq_zero_of_roundNearest_eq_zero hround)
  rw [faddSign, if_pos hsum, Bool.and_eq_true] at hsign
  have hb := f64Units_nonpos hsign.2
  have ha0 := f64Units_nonpos hsign.1
  exact ha (eq_negZero_of_units_eq_zero hsign.1 (by omega))

theorem accumulatorOk_zero : accumulatorOk 0#64 = true := by decide

theorem accumulatorOk_accumulate {acc p r : F64} {d : Int} (hacc : accumulatorOk acc = true) (h : accumulate acc d p = .ok r) :
    accumulatorOk r = true := by
  obtain ⟨-, -, hfin, rfl⟩ := accumulate_ok h
  simp only [accumulatorOk, Bool.and_eq_true, decide_eq_true_eq] at hacc ⊢
  exact ⟨hfin, fadd_ne_negZero hacc.2⟩

end Sys2Proof.Machine
end

section
/-! SUPPORT. The invariant of the machine: every operation of a micro-step keeps it, so a whole command does, and every move of the host. -/

namespace Sys2Proof.Machine

/-! ## The invariant at the end and at the start of a command -/

/-- Of an idle block the invariant asks for the spaces and the result registers only. -/
theorem inv_of_idle {s : State} (hb : s.busy = false) (hsp : SpacesWf s) (hres : ResultsWf s) : Inv s := by
  have hnot : ¬ s.busy = true := by rw [hb]; decide
  exact ⟨hsp, hres, fun h => absurd h hnot, fun h => absurd h hnot, fun h => absurd h hnot, fun h => absurd h hnot⟩

theorem faultCode_le (f : FaultKind) : (faultCode f).toNat ≤ 4 := by cases f <;> decide

theorem finishOk_resultsWf (r : BitVec 35) {c : BitVec 3} (hc : c.toNat ≤ 6) (s : State) : ResultsWf (finishOk r c s) :=
  ⟨Nat.zero_le 4, fun _ => rfl, fun h => absurd rfl h, hc⟩

theorem raiseFault_resultsWf (f : FaultKind) (i : Nat) (s : State) : ResultsWf (raiseFault f i s) :=
  ⟨faultCode_le f, fun h => absurd h (faultCode_ne_zero f), fun _ => ⟨rfl, rfl, fun _ => rfl⟩, Nat.zero_le 6⟩

/-- A busy block has the result registers of the command before. -/
theorem resultsWf_of_busy {s t : State} (h : ResultsWf s) (hb : t.busy = true) (hstatus : t.status = s.status)
    (herrpos : t.errpos = s.errpos) (hrval : t.rval = s.rval) (hconsumed : t.consumed = s.consumed) : ResultsWf t := by
  obtain ⟨hcode, hok, hfault, hmax⟩ := h
  rw [← hstatus] at hcode hok hfault
  rw [← herrpos] at hok
  rw [← hrval, ← hconsumed] at hfault
  rw [← hconsumed] at hmax
  exact ⟨hcode, hok, fun hne => ⟨(hfault hne).1, (hfault hne).2.1, fun hidle => absurd (hb.symm.trans hidle) (by decide)⟩, hmax⟩

theorem nextValue_resultsWf {s : State} (hb : s.busy = true) (h : ResultsWf s) : ResultsWf (nextValue s) := by
  rcases nextValue_cases s with hs | hs <;> rw [hs]
  · exact resultsWf_of_busy h hb rfl rfl rfl rfl
  · exact finishOk_resultsWf 0#35 (c := 0#3) (Nat.zero_le 6) s

theorem cmdOpc_encode_bounds {i : Instr} (hi : i.code = .command) :
    1 ≤ (cmdOpc (encode i)).toNat ∧ (cmdOpc (encode i)).toNat ≤ 9 := by
  cases i with
  | wireTerminator g | wireContinuation g => cases hi
  | scale p | encp p | decp p => cases p <;> decide
  | _ => decide

theorem commandStart_inv {i : Instr} (hi : i.code = .command) {s : State} (hp : precisionOk (selectedPrecision i.psel s) = true)
    (h : Inv s) : Inv (commandStart i s) := by
  obtain ⟨hsp, hres, -⟩ := h
  obtain ⟨hlow, hhigh⟩ := cmdOpc_encode_bounds hi
  refine ⟨hsp, resultsWf_of_busy hres rfl rfl rfl rfl rfl, fun _ => ⟨hlow, hhigh, hp, Nat.zero_le _⟩, fun _ _ => ?_, fun _ _ => ?_,
    fun _ _ => ⟨accumulatorOk_zero, accumulatorOk_zero⟩⟩
  · exact ⟨Nat.zero_le 6, rfl, one_pos, le_rfl, by rintro ⟨⟩, fun _ => rfl⟩
  · exact ⟨fun hne => absurd rfl hne, fun _ _ => rfl⟩

/-! ## What the operations keep -/

theorem chunkStart_chunkWf {s : State} (hop : s.op ≠ 2#4) : ChunkWf (chunkStart s) :=
  fun _ _ => ⟨Nat.zero_le 6, rfl, one_pos, Nat.zero_le _, by rintro ⟨⟩, fun h => absurd h hop⟩

theorem nextValue_chunkWf {s : State} (hop : s.op ≠ 2#4) : ChunkWf (nextValue s) := by
  rcases nextValue_cases s with h | h <;> rw [h]
  · exact chunkStart_chunkWf hop
  · rintro ⟨⟩

/-- A group put above the groups there are, below `2^30` (40 R113). -/
theorem or_group_lt {acc : BitVec 30} {g : BitVec 5} {k : Nat} (hacc : acc.toNat < 2 ^ (5 * k)) :
    (acc ||| (g.setWidth 30 <<< (5 * k))).toNat < 2 ^ (5 * (k + 1)) := by
  have hg : g.toNat < 2 ^ 5 := g.isLt
  have hpow : 2 ^ (5 * (k + 1)) = 2 ^ 5 * 2 ^ (5 * k) := by rw [← Nat.pow_add]; congr 1; omega
  rw [BitVec.toNat_or, BitVec.toNat_shiftLeft, BitVec.toNat_setWidth, Nat.shiftLeft_eq]
  refine Nat.or_lt_two_pow (hacc.trans_le (Nat.pow_le_pow_right (by decide) (by omega))) ((Nat.mod_le _ _).trans_lt ?_)
  rw [hpow]
  exact Nat.mul_lt_mul_of_pos_right ((Nat.mod_le _ _).trans_lt hg) (Nat.two_pow_pos _)

theorem accepted_chunkWf {s : State} (c : Bool) (g : BitVec 5) (hb : s.busy = true) (hg : s.gcnt ≠ 6#3) (h : ChunkWf s) :
    ChunkWf (accepted c g s) := by
  intro _ hop
  obtain ⟨hmax, hshift, hacc, hcursor, -, hdecc⟩ := h hb hop
  have hne : s.gcnt.toNat ≠ 6 := fun heq => hg (BitVec.eq_of_toNat_eq heq)
  have hk : s.gcnt.toNat ≤ 5 := by omega
  have hcount : (accepted c g s).gcnt.toNat = s.gcnt.toNat + 1 := by
    simp only [accepted, BitVec.toNat_add, BitVec.toNat_ofNat]
    omega
  have hshift' : (accepted c g s).shift.toNat = s.shift.toNat + 5 := by
    simp only [accepted, BitVec.toNat_add, BitVec.toNat_ofNat]
    omega
  rw [hcount, hshift']
  refine ⟨by omega, by omega, ?_, Nat.succ_le_succ hcursor, fun _ => by omega, fun h2 => congrArg (· + 1) (hdecc h2)⟩
  simp only [accepted, hshift]
  exact or_group_lt hacc

theorem encoderWf_of_decode {s : State} (h : isDecodeOp s.op = true) : EncoderWf s := by
  rintro - (hop | hop) <;> rw [hop] at h <;> exact absurd h (by decide)

@[simp] theorem nextValue_latAcc (s : State) : (nextValue s).latAcc = s.latAcc := by
  rcases nextValue_cases s with h | h <;> rw [h] <;> rfl

@[simp] theorem nextValue_lonAcc (s : State) : (nextValue s).lonAcc = s.lonAcc := by
  rcases nextValue_cases s with h | h <;> rw [h] <;> rfl

namespace MicroOp

variable {s : State} {m : MicroOp}

@[simp] theorem perform_op (m : MicroOp) (s : State) : (m.perform s).op = s.op := (m.perform_sameSetting s).op

theorem perform_spacesWf (m : MicroOp) (h : SpacesWf s) : SpacesWf (m.perform s) := by
  obtain ⟨hin, hout⟩ := h
  refine ⟨by rwa [(m.perform_sameSetting s).inp], ?_⟩
  rcases m.perform_out s with ⟨ho, -⟩ | ⟨e, ho, -⟩ <;> rw [ho]
  · exact hout
  · exact spaceWrite_wf _ _ _ hout

/-- Only the end of a command writes the result registers (10 R33); `CONSUMED` of a `DECC` is its count of groups. -/
theorem perform_resultsWf (hm : m.Enabled s) (hb : s.busy = true) (hchunk : ChunkWf s) (h : ResultsWf s) :
    ResultsWf (m.perform s) := by
  cases m with
  | finish r c =>
    refine finishOk_resultsWf r ?_ s
    rcases hm with rfl | ⟨hop, -, rfl⟩
    · exact Nat.zero_le 6
    · obtain ⟨hmax, -, -, -, -, hcursor⟩ := hchunk hb (by rw [hop]; rfl)
      rw [hcursor hop, BitVec.ofNat_toNat, BitVec.setWidth_eq]
      exact hmax
  | fault f => exact raiseFault_resultsWf f _ s
  | lonValue | levelValue => exact nextValue_resultsWf hb (resultsWf_of_busy h hb rfl rfl rfl rfl)
  | _ => exact resultsWf_of_busy h hb rfl rfl rfl rfl

theorem perform_cursor_le (hm : m.Enabled s) (hb : s.busy = true) (henc : EncoderWf s) (h : s.cursor ≤ s.len) :
    (m.perform s).cursor ≤ s.len := by
  have hlt : s.est = .done → (s.op = 6#4 ∨ s.op = 8#4) → s.cursor < s.len := fun he hop =>
    (henc hb hop).1 (by rw [he]; decide)
  cases m with
  | endPoint => exact hlt hm.1 (.inl hm.2.1)
  | endLevel => exact hlt hm.1 (.inr hm.2)
  | accept c g => exact hm.2.1
  | lonValue | levelValue => exact (nextValue_cursor _).trans_le h
  | _ => exact h

theorem perform_commandWf (hm : m.Enabled s) (hb : s.busy = true) (henc : EncoderWf s) (h : CommandWf s) :
    CommandWf (m.perform s) := by
  intro _
  obtain ⟨hlow, hhigh, hp, hcur⟩ := h hb
  have hs := m.perform_sameSetting s
  rw [hs.op, hs.prec, hs.len]
  exact ⟨hlow, hhigh, hp, perform_cursor_le hm hb henc hcur⟩

/-- The chunk machine moves by `ChunkStep` and `ChunkStart` only. -/
theorem perform_chunkWf (hm : m.Enabled s) (hb : s.busy = true) (h : ChunkWf s) : ChunkWf (m.perform s) := by
  cases m with
  | finish => rintro ⟨⟩
  | fault => rintro ⟨⟩
  | accept c g => exact accepted_chunkWf c g hb hm.2.2 h
  | latValue a => exact chunkStart_chunkWf (s := { s with latAcc := a, phase := .lon }) (by rw [hm.1]; decide)
  | lonValue a =>
    refine nextValue_chunkWf (s := emit (.point ⟨s.latAcc, a⟩) { s with lonAcc := a, phase := .lat }) ?_
    rw [emit_op, hm.1]
    decide
  | levelValue => exact nextValue_chunkWf (s := emit _ s) (by rw [emit_op, hm.1]; decide)
  | endPoint => exact fun _ hop => absurd hop (by rw [perform_op, hm.2.1]; decide)
  | endLevel => exact fun _ hop => absurd hop (by rw [perform_op, hm.2]; decide)
  | _ => exact h

/-- The position in a value changes in an encode command only, and only where an element is left (43 R161, 44 R180). -/
theorem perform_encoderWf (hm : m.Enabled s) (hb : s.busy = true) (h : EncoderWf s) : EncoderWf (m.perform s) := by
  cases m with
  | finish => rintro ⟨⟩
  | fault => rintro ⟨⟩
  | load u =>
    rintro _ hop
    obtain ⟨-, hop1 | ⟨-, hlt⟩⟩ := hm
    · exact absurd hop (by rw [perform, encodeStart_op, hop1]; decide)
    · exact ⟨fun _ => hlt, by rintro - ⟨⟩⟩
  | loadPoint a b u => exact fun _ _ => ⟨fun _ => hm.2.2, by rintro - ⟨⟩⟩
  | pass =>
    intro _ hop
    refine ⟨fun _ => (h hb hop).1 (by rw [hm.1]; decide), fun _ he => ?_⟩
    rw [perform, encodePass_est] at he
    split at he <;> cases he
  | loadLon u => exact fun _ hop => ⟨fun _ => (h hb hop).1 (by rw [hm.1]; decide), by rintro - ⟨⟩⟩
  | endPoint => exact fun _ _ => ⟨fun hne => absurd rfl hne, fun _ _ => rfl⟩
  | endLevel => exact fun _ _ => ⟨fun hne => absurd rfl hne, fun h6 => absurd (hm.2.symm.trans h6) (by decide)⟩
  | accept c g => exact encoderWf_of_decode hm.1.2.1
  | latValue | lonValue | levelValue => exact encoderWf_of_decode (by rw [perform_op, hm.1]; rfl)

theorem perform_accumulatorsWf (hm : m.Enabled s) (hb : s.busy = true) (h : AccumulatorsWf s) : AccumulatorsWf (m.perform s) := by
  cases m with
  | finish => rintro ⟨⟩
  | fault => rintro ⟨⟩
  | latValue a =>
    obtain ⟨hop, -, -, ha⟩ := hm
    obtain ⟨hlat, hlon⟩ := h hb hop
    exact fun _ _ => ⟨accumulatorOk_accumulate hlat ha, hlon⟩
  | lonValue a =>
    obtain ⟨hop, -, -, ha⟩ := hm
    obtain ⟨hlat, hlon⟩ := h hb hop
    intro _ _
    rw [perform, nextValue_latAcc, nextValue_lonAcc]
    exact ⟨hlat, accumulatorOk_accumulate hlon ha⟩
  | levelValue => exact fun _ hop => absurd hop (by rw [perform_op, hm.1]; decide)
  | _ => exact h

theorem perform_inv (hm : m.Enabled s) (hb : s.busy = true) (h : Inv s) : Inv (m.perform s) := by
  obtain ⟨hsp, hres, hcmd, hchunk, henc, hacc⟩ := h
  exact ⟨m.perform_spacesWf hsp, perform_resultsWf hm hb hchunk hres, perform_commandWf hm hb henc hcmd, perform_chunkWf hm hb hchunk,
    perform_encoderWf hm hb henc, perform_accumulatorsWf hm hb hacc⟩

end MicroOp

theorem blockStep_inv {s t : State} (h : Inv s) (hb : s.busy = true) (ht : blockStep s = .next t) : Inv t := by
  obtain ⟨m, hm, rfl⟩ := blockStep_next ht
  exact MicroOp.perform_inv (microOp_enabled hm) hb h

/-! ## The steps -/

theorem exec_inv {i : Instr} (hi : i.code = .command) {s t : State} (h : Inv s) (ht : exec i s = .next t) : Inv t := by
  obtain ⟨-, hp, -, hrun⟩ := exec_next hi ht
  exact runSteps_keeps (fun _ _ hs hb => blockStep_inv hs hb) (commandStart_inv hi hp h) (hrun _ le_rfl)

theorem illegalCommand_inv (w : BitVec 8) {s : State} (h : Inv s) : Inv (illegalCommand w s) :=
  inv_of_idle rfl h.1 (raiseFault_resultsWf .illegalCommand 0 { s with cmd := w, op := cmdOpc w })

theorem startCommand_inv {i : Instr} (hi : i.code = .command) {s t : State} (h : Inv s) (ht : startCommand i s = .next t) : Inv t := by
  unfold startCommand at ht
  split at ht
  · cases ht
  · next hn =>
    cases ht
    exact commandStart_inv hi ((startable_none_iff i s).mp hn).2 h

theorem powerOnReset_inv (s : State) : Inv (powerOnReset s) :=
  inv_of_idle rfl ⟨rfl, rfl⟩ ⟨Nat.zero_le 4, fun _ => rfl, fun h => absurd rfl h, Nat.zero_le 6⟩

theorem withoutPsel_code {b : Bool} {i j : Instr} (hj : j.code = .command) (h : withoutPsel b j = .ok i) : i.code = .command := by
  cases b <;> cases h
  exact hj

/-- A word that decodes as a command word names a command. -/
theorem code_of_decodeCommand {w : BitVec 8} {i : Instr} (h : decodeCommand w = .ok i) : i.code = .command := by
  unfold decodeCommand at h
  split at h
  · cases h
  · split at h
    case h_1 | h_2 | h_3 | h_4 | h_8 | h_9 => exact withoutPsel_code rfl h
    case h_5 | h_6 | h_7 => cases h; rfl
    case h_10 => cases h

theorem idle_write {b : Bool} {r : Refusal} {u t : State}
    (h : (if b then Fetched.other (.refused r) else .other (.next u)).outcome = .next t) : t = u := by
  cases b <;> cases h
  rfl

theorem hostMove_inv {a : HostAction} {s t : State} (h : Inv s) (ht : (hostMove a s).outcome = .next t) : Inv t := by
  cases a with
  | command w =>
    simp only [hostMove] at ht
    split at ht
    · cases ht
    · split at ht
      · next hd => exact exec_inv (code_of_decodeCommand hd) h ht
      · cases ht; exact illegalCommand_inv w h
  | writeCmd w =>
    simp only [hostMove] at ht
    split at ht
    · cases ht
    · split at ht
      · next hd => exact startCommand_inv (code_of_decodeCommand hd) h ht
      · cases ht; exact illegalCommand_inv w h
  | writeOpa v => rw [idle_write ht]; exact h
  | writeOpf x => rw [idle_write ht]; exact h
  | writePrecIn x => rw [idle_write ht]; exact h
  | writeInLen n => rw [idle_write ht]; exact h
  | writeIn i e =>
    rw [idle_write ht]
    obtain ⟨⟨hin, hout⟩, hrest⟩ := h
    exact ⟨⟨spaceWrite_wf _ i e hin, hout⟩, hrest⟩
  | wait => cases ht; exact h
  | pass =>
    simp only [hostMove] at ht
    split at ht
    · next hb => exact blockStep_inv h hb (fetchBusy_outcome s ▸ ht)
    · cases ht; exact h
  | read r => cases ht; exact h
  | reset => cases ht; exact powerOnReset_inv s

/-- The block's turn, or a wait that is over. -/
theorem turn_inv {s u t : State} (h : Inv s) (hu : Inv u) (ht : (if s.busy then blockStep s else .next u) = .next t) : Inv t := by
  split at ht
  · next hb => exact blockStep_inv h hb ht
  · cases ht; exact hu

/-- Settles O55: every micro-step and every move of the host keeps the invariant, which says nothing of the host's list. -/
theorem stepKeepsInvariant : Obligations.StepKeepsInvariant := by
  intro s t h ht
  cases hh : s.host with
  | nil => exact turn_inv h h (step_no_host hh ▸ ht)
  | cons a rest =>
    have hrest : Inv { s with host := rest } := h
    by_cases ha : a = .wait
    · subst ha
      exact turn_inv h hrest (step_wait hh ▸ ht)
    · exact hostMove_inv hrest (step_action hh ha ▸ ht)

end Sys2Proof.Machine
end

section
/-! SUPPORT. Noninterference (10 R20): two states that agree on what a running command computes with stay so by every micro-step, whatever else
they hold. -/

namespace Sys2Proof.Machine

/-- The operands of the command with this opcode, latched or in IN, are the same in two states (30 R94). -/
def SameInputs (opc : Nat) (s t : State) : Prop :=
  match opc with
  | 1 => s.opaLatch = t.opaLatch
  | 3 | 4 => s.opaLatch.setWidth 33 = t.opaLatch.setWidth 33
  | 5 => s.opfLatch = t.opfLatch
  | 2 | 7 | 9 => s.len = t.len ∧ ∀ k, k < s.len → byteAt s k = byteAt t k
  | 6 => s.len = t.len ∧ ∀ k, k < s.len → pointAt s k = pointAt t k
  | 8 => s.len = t.len ∧ ∀ k, k < s.len → levelAt s k = levelAt t k
  | _ => True

/-- Two states in the same place of the same command on the same operands. They may differ in `V`, `s_lat` and `s_lon` until those are written, in
the result registers until the command ends, and in all that the command does not read. -/
structure Agree (s t : State) : Prop where
  busy : s.busy = t.busy
  op : s.op = t.op
  prec : s.prec = t.prec
  inputs : SameInputs s.op.toNat s t
  cursor : s.cursor = t.cursor
  acc : s.acc = t.acc
  shift : s.shift = t.shift
  gcnt : s.gcnt = t.gcnt
  cst : s.cst = t.cst
  phase : s.phase = t.phase
  prevLat : s.prevLat = t.prevLat
  prevLon : s.prevLon = t.prevLon
  latAcc : s.latAcc = t.latAcc
  lonAcc : s.lonAcc = t.lonAcc
  est : s.est = t.est
  value : s.est ≠ .idle → s.v = t.v
  scaled : s.op = 6#4 → s.est ≠ .idle → s.sLat = t.sLat ∧ s.sLon = t.sLon
  ocnt : s.ocnt = t.ocnt
  out : ∀ k, k < s.ocnt → spaceRead s.out k = spaceRead t.out k
  results : s.busy = false → s.status = t.status ∧ s.errpos = t.errpos ∧ s.rval = t.rval ∧ s.consumed = t.consumed

/-! ## The same operation is chosen -/

namespace Agree

variable {s t : State}

theorem inputs_of_op (h : Agree s t) {c : BitVec 4} (hop : s.op = c) : SameInputs c.toNat s t := hop ▸ h.inputs

theorem bytes (h : Agree s t) (hop : isDecodeOp s.op = true) : s.len = t.len ∧ ∀ k, k < s.len → byteAt s k = byteAt t k := by
  rcases isDecodeOp_cases hop with hop | hop | hop <;> exact h.inputs_of_op hop

theorem chunkOp_eq (h : Agree s t) (hop : isDecodeOp s.op = true) : chunkOp s = chunkOp t := by
  obtain ⟨hlen, hbytes⟩ := h.bytes hop
  rcases Nat.lt_or_ge s.cursor s.len with hlt | hge
  · have hbyte := hbytes _ hlt
    rw [h.cursor] at hbyte
    simp only [chunkOp, ChunkEnabled, hlen, h.cursor, h.gcnt, hbyte, h.busy, h.op, h.cst]
  · rw [chunkOp, chunkOp, if_pos hge, if_pos (hlen ▸ h.cursor ▸ hge)]

theorem encuOp_eq (h : Agree s t) (hop : s.op = 1#4) : encuOp s = encuOp t := by
  have hopa : s.opaLatch = t.opaLatch := h.inputs_of_op hop
  simp only [encuOp, opaUnsigned35, h.est, hopa]

theorem encpOp_eq (h : Agree s t) (hop : s.op = 6#4) : encpOp s = encpOp t := by
  obtain ⟨hlen, hpoints⟩ : s.len = t.len ∧ ∀ k, k < s.len → pointAt s k = pointAt t k := h.inputs_of_op hop
  unfold encpOp
  rw [← h.est, ← h.phase, ← h.cursor, ← hlen]
  split
  · split
    · next hlt =>
      simp only [pointOp, ← h.cursor, hpoints _ hlt, h.prec, h.prevLat]
    · rfl
  · rfl
  · next he _ => rw [(h.scaled hop (by rw [he]; decide)).2, h.prevLon]
  · rfl

theorem enclOp_eq (h : Agree s t) (hop : s.op = 8#4) : enclOp s = enclOp t := by
  obtain ⟨hlen, hlevels⟩ : s.len = t.len ∧ ∀ k, k < s.len → levelAt s k = levelAt t k := h.inputs_of_op hop
  unfold enclOp
  rw [← h.est, ← h.cursor, ← hlen]
  split
  · split
    · next hlt => rw [hlevels _ hlt]
    · rfl
  · rfl
  · rfl

theorem deccOp_eq (h : Agree s t) (hop : isDecodeOp s.op = true) : deccOp s = deccOp t := by
  simp only [deccOp, h.chunkOp_eq hop, h.cst, h.acc, h.cursor]

theorem decpOp_eq (h : Agree s t) (hop : isDecodeOp s.op = true) : decpOp s = decpOp t := by
  simp only [decpOp, h.chunkOp_eq hop, h.cst, h.phase, h.gcnt, h.cursor, (h.bytes hop).1, h.acc, h.prec, h.latAcc, h.lonAcc]

theorem declOp_eq (h : Agree s t) (hop : isDecodeOp s.op = true) : declOp s = declOp t := by
  simp only [declOp, h.chunkOp_eq hop, h.cst, h.gcnt, h.cursor, (h.bytes hop).1]

theorem microOp_eq (h : Agree s t) : microOp s = microOp t := by
  unfold microOp
  rw [← h.op]
  generalize hn : s.op.toNat = n
  have hop : ∀ c : BitVec 4, n = c.toNat → s.op = c := fun c hc => BitVec.eq_of_toNat_eq (hn.trans hc)
  split
  · rw [h.encuOp_eq (hop 1#4 rfl)]
  · exact h.deccOp_eq (by rw [hop 2#4 rfl]; rfl)
  · have hopa : s.opaLatch.setWidth 33 = t.opaLatch.setWidth 33 := h.inputs_of_op (hop 3#4 rfl)
    rw [opaSigned33, opaSigned33, hopa]
  · have hopa : s.opaLatch.setWidth 33 = t.opaLatch.setWidth 33 := h.inputs_of_op (hop 4#4 rfl)
    rw [opaUnsigned33, opaUnsigned33, hopa]
  · have hopf : s.opfLatch = t.opfLatch := h.inputs_of_op (hop 5#4 rfl)
    rw [hopf, h.prec]
  · exact h.encpOp_eq (hop 6#4 rfl)
  · exact h.decpOp_eq (by rw [hop 7#4 rfl]; rfl)
  · rw [h.enclOp_eq (hop 8#4 rfl)]
  · exact h.declOp_eq (by rw [hop 9#4 rfl]; rfl)
  · rfl

/-! ## The operations keep the agreement -/

theorem emit (h : Agree s t) {e e' : Elem} (he : e = e') : Agree (emit e s) (emit e' t) :=
  { h with
    ocnt := congrArg (· + 1) h.ocnt
    out := fun k hk => by
      rw [emit_out, emit_out, he, h.ocnt, spaceRead_spaceWrite, spaceRead_spaceWrite]
      split
      · rfl
      · next hne =>
        have hle : k ≤ s.ocnt := Nat.lt_succ_iff.mp hk
        exact h.out k (hle.lt_of_ne (h.ocnt ▸ hne)) }

theorem chunkStart (h : Agree s t) : Agree (chunkStart s) (chunkStart t) :=
  { h with acc := rfl, shift := rfl, gcnt := rfl, cst := rfl }

theorem finishOk (h : Agree s t) (r : BitVec 35) (c : BitVec 3) : Agree (finishOk r c s) (finishOk r c t) :=
  { h with busy := rfl, results := fun _ => ⟨rfl, rfl, rfl, rfl⟩ }

theorem nextValue (h : Agree s t) (hlen : s.len = t.len) : Agree (nextValue s) (nextValue t) := by
  rcases Nat.lt_or_ge s.cursor s.len with hlt | hge
  · rw [nextValue_of_lt hlt, nextValue_of_lt (hlen ▸ h.cursor ▸ hlt)]
    exact h.chunkStart
  · rw [nextValue_of_le hge, nextValue_of_le (hlen ▸ h.cursor ▸ hge)]
    exact h.finishOk _ _

theorem perform (h : Agree s t) {m : MicroOp} (hm : m.Enabled s) : Agree (m.perform s) (m.perform t) := by
  cases m with
  | finish r c => exact h.finishOk r c
  | fault f =>
    exact { h with
      busy := rfl
      ocnt := rfl
      out := fun k hk => absurd hk (Nat.not_lt_zero k)
      results := fun _ => ⟨rfl, h.cursor, rfl, rfl⟩ }
  | load u =>
    have hop : s.op ≠ 6#4 := by obtain ⟨-, hop | ⟨hop, -⟩⟩ := hm <;> rw [hop] <;> decide
    exact { h with est := rfl, value := fun _ => rfl, scaled := fun h6 => absurd h6 hop }
  | loadPoint a b u => exact { h with phase := rfl, est := rfl, value := fun _ => rfl, scaled := fun _ _ => ⟨rfl, rfl⟩ }
  | pass =>
    have hne : s.est ≠ .idle := by rw [hm.1]; decide
    have hv := h.value hne
    have hshift : Agree { s with v := s.v >>> 5, est := if s.v >>> 5 = 0#35 then .done else .passing }
        { t with v := t.v >>> 5, est := if t.v >>> 5 = 0#35 then .done else .passing } :=
      { h with
        est := by rw [hv]
        value := fun _ => by rw [hv]
        scaled := fun h6 _ => h.scaled h6 hne }
    exact hshift.emit (by rw [hv])
  | loadLon u =>
    have hne : s.est ≠ .idle := by rw [hm.1]; decide
    exact { h with phase := rfl, est := rfl, value := fun _ => rfl, scaled := fun h6 _ => h.scaled h6 hne }
  | endPoint =>
    obtain ⟨hlat, hlon⟩ := h.scaled hm.2.1 (by rw [hm.1]; decide)
    exact { h with
      cursor := congrArg (· + 1) h.cursor
      phase := rfl
      prevLat := hlat
      prevLon := hlon
      est := rfl
      value := fun hne => absurd rfl hne
      scaled := fun _ hne => absurd rfl hne }
  | endLevel =>
    exact { h with
      cursor := congrArg (· + 1) h.cursor
      est := rfl
      value := fun hne => absurd rfl hne
      scaled := fun _ hne => absurd rfl hne }
  | accept c g =>
    exact { h with
      cursor := congrArg (· + 1) h.cursor
      acc := by simp only [MicroOp.perform, accepted, h.acc, h.shift]
      shift := congrArg (· + 5#5) h.shift
      gcnt := congrArg (· + 1#3) h.gcnt
      cst := by simp only [MicroOp.perform, accepted, h.cst] }
  | latValue a =>
    have hset : Agree { s with latAcc := a, phase := .lon } { t with latAcc := a, phase := .lon } :=
      { h with latAcc := rfl, phase := rfl }
    exact hset.chunkStart
  | lonValue a =>
    have hset : Agree { s with lonAcc := a, phase := .lat } { t with lonAcc := a, phase := .lat } :=
      { h with lonAcc := rfl, phase := rfl }
    have hlen := (h.bytes (by rw [hm.1]; rfl)).1
    exact (hset.emit (by rw [h.latAcc])).nextValue hlen
  | levelValue =>
    have hlen := (h.bytes (by rw [hm.1]; rfl)).1
    exact (h.emit (by rw [h.acc])).nextValue hlen

/-- Runs from states that agree are refused alike, or end in states that agree. -/
theorem runSteps (h : Agree s t) (n : Nat) :
    (∃ r, runSteps blockStep n s = .refused r ∧ runSteps blockStep n t = .refused r) ∨
      ∃ s' t', runSteps blockStep n s = .next s' ∧ runSteps blockStep n t = .next t' ∧ Agree s' t' := by
  induction n generalizing s t with
  | zero => exact .inr ⟨s, t, rfl, rfl, h⟩
  | succ n ih =>
    cases hb : s.busy with
    | false => exact .inr ⟨s, t, runSteps_idle _ _ hb, runSteps_idle _ _ (h.busy ▸ hb), h⟩
    | true =>
      have hb' : t.busy = true := h.busy ▸ hb
      cases hm : microOp s with
      | error r => exact .inl ⟨r, runSteps_refused hb hm n, runSteps_refused hb' (h.microOp_eq ▸ hm) n⟩
      | ok m =>
        rw [runSteps_succ hb hm, runSteps_succ hb' (h.microOp_eq ▸ hm)]
        exact ih (h.perform (microOp_enabled hm))

theorem sameResult (h : Agree s t) (hb : s.busy = false) : SameResult (.next s) (.next t) := by
  obtain ⟨hstatus, herrpos, hrval, hconsumed⟩ := h.results hb
  refine ⟨hstatus, herrpos, hrval, hconsumed, h.ocnt, ?_⟩
  rw [outElements, outElements, ← h.ocnt]
  exact List.map_congr_left fun k hk => h.out k (List.mem_range.mp hk)

end Agree

/-! ## Command start -/

/-- Lists read from IN are equal just where their lengths and their elements are. -/
theorem map_range_eq {α : Type} {f g : Nat → α} {n k : Nat} (h : (List.range n).map f = (List.range k).map g) :
    n = k ∧ ∀ j, j < n → f j = g j := by
  have hnk : n = k := by simpa using congrArg List.length h
  subst hnk
  exact ⟨rfl, fun j hj => List.map_inj_left.mp h j (List.mem_range.mpr hj)⟩

theorem sameOperands_selectedPrecision {i : Instr} {s t : State} (h : SameOperands i s t) :
    selectedPrecision i.psel s = selectedPrecision i.psel t := by
  cases i with
  | scale p | encp p | decp p => exact h.2
  | _ => rfl

theorem sameOperands_stepBound {i : Instr} {s t : State} (h : SameOperands i s t) :
    stepBound i s.inLen = stepBound i t.inLen := by
  cases i with
  | decc | encl | decl => rw [(map_range_eq h).1]
  | encp p | decp p => rw [(map_range_eq h.1).1]
  | _ => rfl

theorem sameOperands_sameInputs {i : Instr} {s t : State} (h : SameOperands i s t) :
    SameInputs (cmdOpc (encode i)).toNat (commandStart i s) (commandStart i t) := by
  cases i with
  | encu | zze | zzd => exact h
  | scale p => cases p <;> exact h.1
  | encp p | decp p => cases p <;> exact map_range_eq h.1
  | decc | encl | decl => exact map_range_eq h
  | wireTerminator g | wireContinuation g => exact h.elim

theorem commandStart_agree {i : Instr} {s t : State} (h : SameOperands i s t) : Agree (commandStart i s) (commandStart i t) where
  busy := rfl
  op := rfl
  prec := sameOperands_selectedPrecision h
  inputs := sameOperands_sameInputs h
  cursor := rfl
  acc := rfl
  shift := rfl
  gcnt := rfl
  cst := rfl
  phase := rfl
  prevLat := rfl
  prevLon := rfl
  latAcc := rfl
  lonAcc := rfl
  est := rfl
  value := fun hne => absurd rfl hne
  scaled := fun _ hne => absurd rfl hne
  ocnt := rfl
  out := fun k hk => absurd hk (Nat.not_lt_zero k)
  results := by rintro ⟨⟩

/-- Settles O50: command start makes the two states agree, and the runs from there give the same result. -/
theorem noStateSurvivesACommand : Obligations.NoStateSurvivesACommand := by
  intro i s t hs ht h
  have hi : i.code = .command := by
    cases i with
    | wireTerminator g | wireContinuation g => exact h.elim
    | _ => rfl
  have hstart : startable i t = startable i s := by
    rw [startable, startable, hs, ht, sameOperands_selectedPrecision h]
  rw [exec_eq_runCommand hi, exec_eq_runCommand hi, runCommand, runCommand, hstart]
  split
  · exact rfl
  · rw [← sameOperands_stepBound h]
    rcases (commandStart_agree h).runSteps (stepBound i s.inLen) with ⟨r, hr, hr'⟩ | ⟨u, v, hu, hv, huv⟩
    · rw [hr, hr']
      exact rfl
    · rw [hu, hv]
      exact huv.sameResult (runSteps_ends (stepsLeft_commandStart hi s) hu).1

end Sys2Proof.Machine
end

section
/-! SUPPORT. No fault of the model: a micro-step reads IN below `LEN` only (20 R53), so no command and no step stops at the guard of such a read. -/

namespace Sys2Proof.Machine

/-- A micro-step performs an operation or is refused. -/
theorem blockStep_ne_fault (s : State) (f : Fault) : blockStep s ≠ .fault f := by
  rw [blockStep_eq]
  cases microOp s <;> rintro ⟨⟩

theorem runSteps_ne_fault {body : State → Result} (hbody : ∀ s f, body s ≠ .fault f) (n : Nat) (s : State) (f : Fault) :
    runSteps body n s ≠ .fault f := by
  induction n generalizing s with
  | zero => rintro ⟨⟩
  | succ n ih =>
    unfold runSteps
    split
    · split
      · exact ih _
      · next g hg => exact absurd hg (hbody s g)
      · rintro ⟨⟩
    · rintro ⟨⟩

theorem exec_ne_fault {i : Instr} (hi : i.code = .command) (s : State) (f : Fault) : exec i s ≠ .fault f := by
  rw [exec_eq_runCommand hi]
  rcases runCommand_cases i blockStep s with ⟨r, -, h⟩ | ⟨-, h⟩ <;> rw [h]
  · rintro ⟨⟩
  · exact runSteps_ne_fault blockStep_ne_fault _ _ f

theorem startCommand_ne_fault (i : Instr) (s : State) (f : Fault) : startCommand i s ≠ .fault f := by
  unfold startCommand
  split <;> rintro ⟨⟩

theorem idle_write_ne_fault (b : Bool) (r : Refusal) (u : State) (f : Fault) :
    (if b then Fetched.other (.refused r) else .other (.next u)).outcome ≠ .fault f := by
  cases b <;> rintro ⟨⟩

theorem hostMove_ne_fault (a : HostAction) (s : State) (f : Fault) : (hostMove a s).outcome ≠ .fault f := by
  cases a with
  | command w =>
    simp only [hostMove]
    split
    · rintro ⟨⟩
    · split
      · next hd => exact exec_ne_fault (code_of_decodeCommand hd) s f
      · rintro ⟨⟩
  | writeCmd w =>
    simp only [hostMove]
    split
    · rintro ⟨⟩
    · split
      · exact startCommand_ne_fault _ s f
      · rintro ⟨⟩
  | writeOpa | writeOpf | writePrecIn | writeInLen | writeIn => exact idle_write_ne_fault s.busy _ _ f
  | pass =>
    simp only [hostMove]
    split
    · rw [fetchBusy_outcome]; exact blockStep_ne_fault s f
    · rintro ⟨⟩
  | wait | read | reset => rintro ⟨⟩

/-- The block's turn, or a wait that is over. -/
theorem turn_ne_fault (s u : State) (f : Fault) : (if s.busy then blockStep s else .next u) ≠ .fault f := by
  split
  · exact blockStep_ne_fault s f
  · rintro ⟨⟩

/-- Settles O49: a step is the block's turn or a move of the host, and neither reads IN at or above `LEN`. -/
theorem noReadOutsideInput : Obligations.NoReadOutsideInput := by
  intro s f
  cases hh : s.host with
  | nil => rw [step_no_host hh]; exact turn_ne_fault s s f
  | cons a rest =>
    by_cases ha : a = .wait
    · subst ha
      rw [step_wait hh]
      exact turn_ne_fault s _ f
    · rw [step_action hh ha]
      exact hostMove_ne_fault a _ f

end Sys2Proof.Machine
end

section
/-! SUPPORT. The frame of a command: what no micro-step of the running command writes is at the end as command start left it. -/

namespace Sys2Proof.Machine

theorem SameSetting.trans {s t u : State} (h : SameSetting s t) (h' : SameSetting t u) : SameSetting s u where
  cmd := h'.cmd.trans h.cmd
  op := h'.op.trans h.op
  prec := h'.prec.trans h.prec
  opaLatch := h'.opaLatch.trans h.opaLatch
  opfLatch := h'.opfLatch.trans h.opfLatch
  len := h'.len.trans h.len
  inp := h'.inp.trans h.inp
  epoch := h'.epoch.trans h.epoch
  opa := h'.opa.trans h.opa
  opf := h'.opf.trans h.opf
  precIn := h'.precIn.trans h.precIn
  inLen := h'.inLen.trans h.inLen
  host := h'.host.trans h.host

theorem SameSetting.refl (s : State) : SameSetting s s := by constructor <;> rfl

theorem exec_sameSetting {i : Instr} (hi : i.code = .command) {s t : State} (h : exec i s = .next t) :
    SameSetting (commandStart i s) t := by
  obtain ⟨-, -, -, hrun⟩ := exec_next hi h
  exact runSteps_keeps (fun _ _ hs _ ht => hs.trans (blockStep_sameSetting ht)) (SameSetting.refl _) (hrun _ le_rfl)

/-- Settles O51: command start leaves the inputs alone, and so does every micro-step. -/
theorem commandsKeepInputs : Obligations.CommandsKeepInputs := by
  intro i s t hi h
  have hs := exec_sameSetting hi h
  exact ⟨hs.opa, hs.opf, hs.precIn, hs.inLen, hs.inp, hs.host, hs.epoch⟩

/-! ## The registers that only some commands write -/

/-- The commands that encode: ENCU, ENCP, ENCL (20 R52). -/
abbrev EncodeOp (c : BitVec 4) : Prop := c = 1#4 ∨ c = 6#4 ∨ c = 8#4

theorem not_encodeOp_of_decode {c : BitVec 4} (h : isDecodeOp c = true) : ¬ EncodeOp c := by
  rcases isDecodeOp_cases h with rfl | rfl | rfl <;> decide

/-- OUT and the datapath registers that the command in `OP` does not write are the same in two states (10 R21, R27 to R30; 20 R54). -/
structure SameUnwritten (s t : State) : Prop where
  out : ¬ EncodeOp s.op → s.op ≠ 7#4 → s.op ≠ 9#4 → t.out = s.out
  value : ¬ EncodeOp s.op → t.v = s.v ∧ t.est = s.est
  phase : s.op ≠ 6#4 → s.op ≠ 7#4 → t.phase = s.phase
  pairs : s.op ≠ 6#4 → t.prevLat = s.prevLat ∧ t.prevLon = s.prevLon ∧ t.sLat = s.sLat ∧ t.sLon = s.sLon
  accumulators : s.op ≠ 7#4 → t.latAcc = s.latAcc ∧ t.lonAcc = s.lonAcc
  chunk : isDecodeOp s.op = false → t.acc = s.acc ∧ t.shift = s.shift ∧ t.gcnt = s.gcnt ∧ t.cst = s.cst

theorem SameUnwritten.refl (s : State) : SameUnwritten s s where
  out _ _ _ := rfl
  value _ := ⟨rfl, rfl⟩
  phase _ _ := rfl
  pairs _ := ⟨rfl, rfl, rfl, rfl⟩
  accumulators _ := ⟨rfl, rfl⟩
  chunk _ := ⟨rfl, rfl, rfl, rfl⟩

theorem SameUnwritten.trans {s t u : State} (h : SameUnwritten s t) (hop : t.op = s.op) (h' : SameUnwritten t u) : SameUnwritten s u := by
  obtain ⟨hout, hvalue, hphase, hpairs, hacc, hchunk⟩ := h'
  rw [hop] at hout hvalue hphase hpairs hacc hchunk
  refine ⟨fun h1 h7 h9 => (hout h1 h7 h9).trans (h.out h1 h7 h9), fun h1 => ?_, fun h6 h7 => (hphase h6 h7).trans (h.phase h6 h7),
    fun h6 => ?_, fun h7 => ?_, fun hd => ?_⟩
  · rw [(hvalue h1).1, (hvalue h1).2]; exact h.value h1
  · obtain ⟨e1, e2, e3, e4⟩ := hpairs h6
    rw [e1, e2, e3, e4]; exact h.pairs h6
  · rw [(hacc h7).1, (hacc h7).2]; exact h.accumulators h7
  · obtain ⟨e1, e2, e3, e4⟩ := hchunk hd
    rw [e1, e2, e3, e4]; exact h.chunk hd

@[simp] theorem nextValue_v (s : State) : (nextValue s).v = s.v := by
  rcases nextValue_cases s with h | h <;> rw [h] <;> rfl

@[simp] theorem nextValue_est (s : State) : (nextValue s).est = s.est := by
  rcases nextValue_cases s with h | h <;> rw [h] <;> rfl

@[simp] theorem nextValue_phase (s : State) : (nextValue s).phase = s.phase := by
  rcases nextValue_cases s with h | h <;> rw [h] <;> rfl

theorem nextValue_pairs (s : State) :
    (nextValue s).prevLat = s.prevLat ∧ (nextValue s).prevLon = s.prevLon ∧ (nextValue s).sLat = s.sLat ∧
      (nextValue s).sLon = s.sLon := by
  rcases nextValue_cases s with h | h <;> rw [h] <;> exact ⟨rfl, rfl, rfl, rfl⟩

namespace MicroOp

variable {s : State} {m : MicroOp}

/-- The operations of `EncodeValue` and of the encode commands' loops (40 R110; 43 R161; 44 R180). -/
def encodes : MicroOp → Bool
  | .load _ | .loadPoint _ _ _ | .pass | .loadLon _ | .endPoint | .endLevel => true
  | .finish _ _ | .fault _ | .accept _ _ | .latValue _ | .lonValue _ | .levelValue => false

theorem encodeOp_of_encodes (hm : m.Enabled s) (h : m.encodes = true) : EncodeOp s.op := by
  cases m with
  | load => exact hm.2.imp_right fun h8 => .inr h8.1
  | pass => exact hm.2
  | loadPoint => exact .inr (.inl hm.2.1)
  | loadLon => exact .inr (.inl hm.2.1)
  | endPoint => exact .inr (.inl hm.2.1)
  | endLevel => exact .inr (.inr hm.2)
  | finish | fault | accept | latValue | lonValue | levelValue => cases h

/-- Only the commands with output write OUT (20 R52, R54). -/
theorem perform_out_of_silent (hm : m.Enabled s) (henc : ¬ EncodeOp s.op) (h7 : s.op ≠ 7#4) (h9 : s.op ≠ 9#4) :
    (m.perform s).out = s.out := by
  cases m with
  | pass => exact absurd hm.2 henc
  | lonValue => exact absurd hm.1 h7
  | levelValue => exact absurd hm.1 h9
  | _ => rfl

/-- Only an encode command writes `V` (10 R29) and moves in `EncodeValue`. -/
theorem perform_value_of_not_encode (hm : m.Enabled s) (henc : ¬ EncodeOp s.op) :
    (m.perform s).v = s.v ∧ (m.perform s).est = s.est := by
  cases m with
  | load | loadPoint | pass | loadLon | endPoint | endLevel => exact absurd (encodeOp_of_encodes hm rfl) henc
  | lonValue | levelValue => exact ⟨nextValue_v _, nextValue_est _⟩
  | _ => exact ⟨rfl, rfl⟩

/-- Only the coordinate commands write `PHASE` (10 R30). -/
theorem perform_phase_of_ne (hm : m.Enabled s) (h6 : s.op ≠ 6#4) (h7 : s.op ≠ 7#4) : (m.perform s).phase = s.phase := by
  cases m with
  | loadPoint => exact absurd hm.2.1 h6
  | loadLon => exact absurd hm.2.1 h6
  | endPoint => exact absurd hm.2.1 h6
  | latValue => exact absurd hm.1 h7
  | lonValue => exact absurd hm.1 h7
  | levelValue => exact nextValue_phase _
  | _ => rfl

/-- Only `ENCP` writes the previous pair (10 R27) and the scaled pair. -/
theorem perform_pairs_of_ne (hm : m.Enabled s) (h6 : s.op ≠ 6#4) :
    (m.perform s).prevLat = s.prevLat ∧ (m.perform s).prevLon = s.prevLon ∧ (m.perform s).sLat = s.sLat ∧
      (m.perform s).sLon = s.sLon := by
  cases m with
  | loadPoint => exact absurd hm.2.1 h6
  | endPoint => exact absurd hm.2.1 h6
  | lonValue | levelValue => exact nextValue_pairs _
  | _ => exact ⟨rfl, rfl, rfl, rfl⟩

/-- Only `DECP` writes the accumulators (10 R28). -/
theorem perform_accumulators_of_ne (hm : m.Enabled s) (h7 : s.op ≠ 7#4) :
    (m.perform s).latAcc = s.latAcc ∧ (m.perform s).lonAcc = s.lonAcc := by
  cases m with
  | latValue => exact absurd hm.1 h7
  | lonValue => exact absurd hm.1 h7
  | levelValue => exact ⟨nextValue_latAcc _, nextValue_lonAcc _⟩
  | _ => exact ⟨rfl, rfl⟩

/-- Only a decode command writes the chunk machine's registers (10 R21 to R24). -/
theorem perform_chunk_of_not_decode (hm : m.Enabled s) (hdec : isDecodeOp s.op = false) :
    (m.perform s).acc = s.acc ∧ (m.perform s).shift = s.shift ∧ (m.perform s).gcnt = s.gcnt ∧ (m.perform s).cst = s.cst := by
  cases m with
  | accept => exact absurd hm.1.2.1 (by rw [hdec]; decide)
  | latValue | lonValue | levelValue => rw [hm.1] at hdec; cases hdec
  | _ => exact ⟨rfl, rfl, rfl, rfl⟩

theorem perform_sameUnwritten (hm : m.Enabled s) : SameUnwritten s (m.perform s) where
  out := perform_out_of_silent hm
  value := perform_value_of_not_encode hm
  phase := perform_phase_of_ne hm
  pairs := perform_pairs_of_ne hm
  accumulators := perform_accumulators_of_ne hm
  chunk := perform_chunk_of_not_decode hm

end MicroOp

/-! ## `V` in an encode command -/

/-- Between two values of an encode command `V` is 0, or as it was (`v`) where no element has been taken; after a value's last pass it is 0
(40 R110). -/
abbrev ValueWf (v : BitVec 35) (s : State) : Prop :=
  EncodeOp s.op → (s.est = .idle → s.v = if s.cursor = 0 then v else 0#35) ∧ (s.est = .done → s.v = 0#35)

theorem MicroOp.perform_valueWf {v : BitVec 35} {s : State} {m : MicroOp} (hm : m.Enabled s) (h : ValueWf v s) :
    ValueWf v (m.perform s) := by
  have hdecode : isDecodeOp s.op = true → ValueWf v (m.perform s) := fun hdec henc =>
    absurd (m.perform_op s ▸ henc) (not_encodeOp_of_decode hdec)
  cases m with
  | finish | fault => exact h
  | load | loadPoint | loadLon => exact fun _ => ⟨by rintro ⟨⟩, by rintro ⟨⟩⟩
  | pass =>
    intro _
    rw [perform, encodePass_est, encodePass_v]
    split
    · next hv => exact ⟨by rintro ⟨⟩, fun _ => hv⟩
    · exact ⟨by rintro ⟨⟩, by rintro ⟨⟩⟩
  | endPoint => exact fun henc => ⟨fun _ => (h henc).2 hm.1, by rintro ⟨⟩⟩
  | endLevel => exact fun henc => ⟨fun _ => (h henc).2 hm.1, by rintro ⟨⟩⟩
  | accept => exact hdecode hm.1.2.1
  | latValue | lonValue | levelValue => exact hdecode (by rw [hm.1]; rfl)

/-! ## What a command has emitted -/

/-- The values a stream decode has taken: those of the elements emitted, and in `DECP` the latitude of a point begun. -/
def valuesTaken (s : State) : Nat := if s.op = 7#4 then 2 * s.ocnt + (if s.phase = .lon then 1 else 0) else s.ocnt

/-- The values a stream decode has read: those taken, and one that is complete and not yet taken. -/
def valuesRead (s : State) : Nat := valuesTaken s + if s.busy = true ∧ s.cst = .done then 1 else 0

/-- Each value read took a byte at least (30 R82). -/
abbrev ReadsWf (s : State) : Prop := isDecodeOp s.op = true → valuesRead s ≤ s.cursor

theorem valuesTaken_decp {s : State} (h : s.op = 7#4) : valuesTaken s = 2 * s.ocnt + if s.phase = .lon then 1 else 0 := if_pos h

theorem valuesTaken_of_ne {s : State} (h : s.op ≠ 7#4) : valuesTaken s = s.ocnt := if_neg h

theorem valuesRead_done {s : State} (hb : s.busy = true) (hc : s.cst = .done) : valuesRead s = valuesTaken s + 1 :=
  congrArg (valuesTaken s + ·) (if_pos ⟨hb, hc⟩)

theorem valuesRead_accumulating {s : State} (hc : s.cst = .accumulate) : valuesRead s = valuesTaken s :=
  congrArg (valuesTaken s + ·) (if_neg (by rw [hc]; rintro ⟨-, ⟨⟩⟩))

theorem valuesRead_idle {s : State} (hb : s.busy = false) : valuesRead s = valuesTaken s :=
  congrArg (valuesTaken s + ·) (if_neg (by rw [hb]; rintro ⟨⟨⟩, -⟩))

theorem valuesTaken_le (s : State) : valuesTaken s ≤ valuesRead s := Nat.le_add_right _ _

theorem valuesRead_le (s : State) : valuesRead s ≤ valuesTaken s + 1 := by
  unfold valuesRead
  split <;> omega

theorem valuesRead_nextValue (s : State) : valuesRead (nextValue s) = valuesTaken s := by
  rcases nextValue_cases s with h | h <;> rw [h]
  · exact valuesRead_accumulating (s := chunkStart s) rfl
  · exact valuesRead_idle (s := finishOk 0#35 0#3 s) rfl

theorem valuesTaken_raiseFault (f : FaultKind) (i : Nat) (s : State) : valuesTaken (raiseFault f i s) ≤ valuesTaken s := by
  by_cases hop : s.op = 7#4
  · rw [valuesTaken_decp hop, valuesTaken_decp (s := raiseFault f i s) hop]
    exact Nat.add_le_add_right (Nat.zero_le _) _
  · rw [valuesTaken_of_ne (s := raiseFault f i s) hop]
    exact Nat.zero_le _

theorem MicroOp.perform_readsWf {s : State} {m : MicroOp} (hm : m.Enabled s) (hb : s.busy = true) (h : ReadsWf s) :
    ReadsWf (m.perform s) := by
  intro hdec
  rw [perform_op] at hdec
  have henc := not_encodeOp_of_decode hdec
  have hle := h hdec
  cases m with
  | load | loadPoint | pass | loadLon | endPoint | endLevel => exact absurd (encodeOp_of_encodes hm rfl) henc
  | finish r c => exact (valuesRead_idle (s := finishOk r c s) rfl).trans_le ((valuesTaken_le s).trans hle)
  | fault f =>
    exact (valuesRead_idle (s := raiseFault f s.cursor s) rfl).trans_le
      ((valuesTaken_raiseFault f s.cursor s).trans ((valuesTaken_le s).trans hle))
  | accept c g =>
    rw [valuesRead_accumulating hm.1.2.2] at hle
    exact (valuesRead_le (accepted c g s)).trans (Nat.succ_le_succ hle)
  | latValue a =>
    obtain ⟨hop, hc, hp, -⟩ := hm
    rw [valuesRead_done hb hc, valuesTaken_decp hop, hp] at hle
    refine ((valuesRead_accumulating rfl).trans (valuesTaken_decp ?_)).trans_le hle
    exact hop
  | lonValue a =>
    obtain ⟨hop, hc, hp, -⟩ := hm
    rw [valuesRead_done hb hc, valuesTaken_decp hop, hp] at hle
    rw [perform, valuesRead_nextValue, nextValue_cursor]
    refine (valuesTaken_decp ?_).trans_le hle
    exact hop
  | levelValue =>
    obtain ⟨hop, hc⟩ := hm
    have hne : s.op ≠ 7#4 := by rw [hop]; decide
    rw [valuesRead_done hb hc, valuesTaken_of_ne hne] at hle
    rw [perform, valuesRead_nextValue, nextValue_cursor]
    refine (valuesTaken_of_ne ?_).trans_le hle
    exact hne

/-- The most elements a stream decode of the input can emit: a level takes a byte, a point two (20 R52). -/
def mostEmitted (s : State) : Nat := if s.op = 7#4 then s.len / 2 else s.len

theorem ocnt_le_mostEmitted {s : State} (hdec : isDecodeOp s.op = true) (h : ReadsWf s) (hcur : s.cursor ≤ s.len) :
    s.ocnt ≤ mostEmitted s := by
  have hle : valuesTaken s ≤ s.len := (valuesTaken_le s).trans ((h hdec).trans hcur)
  unfold mostEmitted
  split
  · next hop => rw [valuesTaken_decp hop] at hle; omega
  · next hop => rwa [valuesTaken_of_ne hop] at hle

/-- The index from which on a command leaves OUT alone: `OCNT`, or after a fault, which takes `OCNT` back, the most it can have emitted. -/
def outputEnd (s : State) : Nat := if s.busy = true ∨ s.status = 0#3 then s.ocnt else mostEmitted s

theorem outputEnd_busy {s : State} (h : s.busy = true) : outputEnd s = s.ocnt := if_pos (.inl h)

theorem outputEnd_ok {s : State} (h : s.status = 0#3) : outputEnd s = s.ocnt := if_pos (.inr h)

theorem outputEnd_fault {s : State} (hb : s.busy = false) (h : s.status ≠ 0#3) : outputEnd s = mostEmitted s :=
  if_neg (by rw [hb]; rintro (⟨⟨⟩⟩ | h'); exact h h')

/-- OUT from `outputEnd` on is that of an earlier state. -/
abbrev OutputWf (s₀ s : State) : Prop := ∀ k, outputEnd s ≤ k → spaceRead s.out k = spaceRead s₀.out k

theorem nextValue_goes_or_ok {s : State} (hb : s.busy = true) : (nextValue s).busy = true ∨ (nextValue s).status = 0#3 := by
  rcases nextValue_cases s with h | h <;> rw [h]
  · exact .inl hb
  · exact .inr rfl

/-- After an operation that is no fault the command runs on or has ended without a fault. -/
theorem MicroOp.perform_goes_or_ok {s : State} (hb : s.busy = true) (m : MicroOp) :
    (∃ f, m = .fault f) ∨ (m.perform s).busy = true ∨ (m.perform s).status = 0#3 := by
  cases m with
  | fault f => exact .inl ⟨f, rfl⟩
  | finish => exact .inr (.inr rfl)
  | lonValue a => exact .inr (nextValue_goes_or_ok (s := emit (.point ⟨s.latAcc, a⟩) { s with lonAcc := a, phase := .lat }) hb)
  | levelValue => exact .inr (nextValue_goes_or_ok (s := emit (.level (s.acc.setWidth 32)) s) hb)
  | _ => exact .inr (.inl hb)

theorem MicroOp.perform_outputWf {s₀ s : State} {m : MicroOp} (hb : s.busy = true)
    (hfault : ∀ f, m = .fault f → s.ocnt ≤ mostEmitted s) (h : OutputWf s₀ s) : OutputWf s₀ (m.perform s) := by
  intro k hk
  have hbefore : s.ocnt ≤ k → spaceRead s.out k = spaceRead s₀.out k := fun hle => h k ((outputEnd_busy hb).trans_le hle)
  rcases perform_goes_or_ok hb m with ⟨f, rfl⟩ | hgo
  · rw [outputEnd_fault (s := (fault f).perform s) rfl (faultCode_ne_zero f)] at hk
    exact hbefore ((hfault f rfl).trans hk)
  · have hle : s.ocnt ≤ (m.perform s).ocnt := (m.perform_ocnt s).resolve_right fun ⟨_, hidle, hstatus⟩ =>
      hgo.elim (by rw [hidle]; decide) hstatus
    rw [outputEnd, if_pos hgo] at hk
    rcases m.perform_out s with ⟨ho, -⟩ | ⟨e, ho, hcount⟩ <;> rw [ho]
    · exact hbefore (hle.trans hk)
    · rw [spaceRead_spaceWrite_other _ _ (by omega)]
      exact hbefore (hle.trans hk)

/-! ## How an encode command ends -/

theorem microOp_encu {s : State} (h : s.op = 1#4) : microOp s = .ok (encuOp s) := by
  unfold microOp
  rw [h]; rfl

theorem microOp_encp {s : State} (h : s.op = 6#4) : microOp s = encpOp s := by
  unfold microOp
  rw [h]; rfl

theorem microOp_encl {s : State} (h : s.op = 8#4) : microOp s = .ok (enclOp s) := by
  unfold microOp
  rw [h]; rfl

/-- Past its last value: an `ENCU` has made its last pass, an `ENCP` or `ENCL` has taken every element (40 R110; 43 R160; 44 R180). -/
def ValuesEnded (s : State) : Prop := if s.op = 1#4 then s.est = .done else s.est = .idle ∧ s.len ≤ s.cursor

theorem valuesEnded_encu {s : State} (h : s.op = 1#4) : ValuesEnded s ↔ s.est = .done := iff_of_eq (if_pos h)

theorem valuesEnded_of_ne {s : State} (h : s.op ≠ 1#4) : ValuesEnded s ↔ s.est = .idle ∧ s.len ≤ s.cursor := iff_of_eq (if_neg h)

/-- The operation that ends an encode command is the end without a fault, after the last value. -/
theorem microOp_ends_encode {s : State} {m : MicroOp} (henc : EncodeOp s.op) (hb : s.busy = true) (h : microOp s = .ok m)
    (hend : (m.perform s).busy = false) : (∃ r c, m = .finish r c) ∧ ValuesEnded s := by
  have hgoes : (m.perform s).busy = s.busy → (∃ r c, m = .finish r c) ∧ ValuesEnded s := fun he =>
    absurd (hb.symm.trans (he.symm.trans hend)) (by decide)
  rcases henc with hop | hop | hop
  · rw [microOp_encu hop, encuOp] at h
    split at h
    · cases h; exact hgoes rfl
    · cases h; exact hgoes rfl
    · next he => cases h; exact ⟨⟨_, _, rfl⟩, (valuesEnded_encu hop).mpr he⟩
  · rw [microOp_encp hop, encpOp] at h
    split at h
    · next he =>
      split at h
      · obtain ⟨a, b, u, rfl⟩ := pointOp_loads h
        exact hgoes rfl
      · next hge => cases h; exact ⟨⟨_, _, rfl⟩, (valuesEnded_of_ne (by rw [hop]; decide)).mpr ⟨he, not_lt.mp hge⟩⟩
    · cases h; exact hgoes rfl
    · cases h; exact hgoes rfl
    · cases h; exact hgoes rfl
  · rw [microOp_encl hop, enclOp] at h
    split at h
    · next he =>
      split at h
      · cases h; exact hgoes rfl
      · next hge => cases h; exact ⟨⟨_, _, rfl⟩, (valuesEnded_of_ne (by rw [hop]; decide)).mpr ⟨he, not_lt.mp hge⟩⟩
    · cases h; exact hgoes rfl
    · cases h; exact hgoes rfl

/-- A fault is raised by a `ChunkStep` only, in a decode command (10 R24; 40 R113). -/
theorem microOp_fault {s : State} {f : FaultKind} (h : microOp s = .ok (.fault f)) : isDecodeOp s.op = true := by
  unfold microOp at h
  split at h
  case h_2 hop => rw [BitVec.eq_of_toNat_eq (y := 2#4) hop]; rfl
  case h_7 hop => rw [BitVec.eq_of_toNat_eq (y := 7#4) hop]; rfl
  case h_9 hop => rw [BitVec.eq_of_toNat_eq (y := 9#4) hop]; rfl
  case h_1 => unfold encuOp at h; split at h <;> cases h
  case h_3 | h_4 | h_10 => cases h
  case h_5 => obtain ⟨n, -, ⟨⟩⟩ := except_map_ok h
  case h_6 =>
    unfold encpOp at h
    split at h
    · split at h
      · obtain ⟨a, b, u, ⟨⟩⟩ := pointOp_loads h
      · cases h
    all_goals cases h
  case h_8 =>
    unfold enclOp at h
    split at h
    · split at h <;> cases h
    all_goals cases h

end Sys2Proof.Machine
end

section
/-! SUPPORT. The frame of a whole command over OUT and the datapath: kept by every micro-step from command start on, and read off at the end. -/

namespace Sys2Proof.Machine

/-- How an encode command is at its end: without a fault, after the last value, and an `ENCP` between two points. -/
abbrev EncodeEnded (s : State) : Prop := EncodeOp s.op → s.status = 0#3 ∧ ValuesEnded s ∧ (s.op = 6#4 → s.phase = .lat)

/-- What holds of a command from its start `s₀` to its end: what it leaves unchanged, and where it stands. -/
structure CommandFrame (s₀ s : State) : Prop where
  setting : SameSetting s₀ s
  unwritten : SameUnwritten s₀ s
  encoder : EncoderWf s
  cursor : s.cursor ≤ s.len
  value : ValueWf s₀.v s
  reads : ReadsWf s
  output : OutputWf s₀ s
  ended : s.busy = false → EncodeEnded s

theorem perform_encodeEnded {s : State} {m : MicroOp} (h : microOp s = .ok m) (hb : s.busy = true) (henc : EncoderWf s)
    (hend : (m.perform s).busy = false) : EncodeEnded (m.perform s) := by
  intro hop
  rw [m.perform_op] at hop
  obtain ⟨⟨r, c, rfl⟩, hvalues⟩ := microOp_ends_encode hop hb h hend
  refine ⟨rfl, hvalues, fun (h6 : s.op = 6#4) => (henc hb (.inl h6)).2 h6 ?_⟩
  exact ((valuesEnded_of_ne (by rw [h6]; decide)).mp hvalues).1

theorem commandStart_commandFrame {i : Instr} (s : State) : CommandFrame (commandStart i s) (commandStart i s) where
  setting := .refl _
  unwritten := .refl _
  encoder _ _ := ⟨fun hne => absurd rfl hne, fun _ _ => rfl⟩
  cursor := Nat.zero_le _
  value _ := ⟨fun _ => rfl, by rintro ⟨⟩⟩
  reads _ := by
    rw [valuesRead_accumulating (s := commandStart i s) rfl, valuesTaken]
    split <;> exact le_rfl
  output _ _ := rfl
  ended := by rintro ⟨⟩

theorem blockStep_commandFrame {s₀ s t : State} (h : CommandFrame s₀ s) (hb : s.busy = true) (ht : blockStep s = .next t) :
    CommandFrame s₀ t := by
  obtain ⟨m, hm, rfl⟩ := blockStep_next ht
  have hen := microOp_enabled hm
  exact {
    setting := h.setting.trans (m.perform_sameSetting s)
    unwritten := h.unwritten.trans h.setting.op (MicroOp.perform_sameUnwritten hen)
    encoder := MicroOp.perform_encoderWf hen hb h.encoder
    cursor := (MicroOp.perform_cursor_le hen hb h.encoder h.cursor).trans_eq (m.perform_sameSetting s).len.symm
    value := MicroOp.perform_valueWf hen h.value
    reads := MicroOp.perform_readsWf hen hb h.reads
    output := MicroOp.perform_outputWf hb (fun f hf => ocnt_le_mostEmitted (microOp_fault (hf ▸ hm)) h.reads h.cursor) h.output
    ended := perform_encodeEnded hm hb h.encoder }

theorem exec_commandFrame {i : Instr} (hi : i.code = .command) {s t : State} (h : exec i s = .next t) :
    CommandFrame (commandStart i s) t ∧ t.busy = false := by
  obtain ⟨-, -, hb, hrun⟩ := exec_next hi h
  exact ⟨runSteps_keeps (fun _ _ => blockStep_commandFrame) (commandStart_commandFrame s) (hrun _ le_rfl), hb⟩

theorem cmdOpc_encode_ne_encu {i : Instr} (hi : i.code = .command) (h : i ≠ .encu) : cmdOpc (encode i) ≠ 1#4 := by
  cases i with
  | encu => exact absurd rfl h
  | wireTerminator | wireContinuation => cases hi
  | scale p | encp p | decp p => cases p <;> decide
  | _ => decide

theorem cmdOpc_encode_ne_encp {i : Instr} (hi : i.code = .command) (h : ∀ p, i ≠ .encp p) : cmdOpc (encode i) ≠ 6#4 := by
  cases i with
  | encp p => exact absurd rfl (h p)
  | wireTerminator | wireContinuation => cases hi
  | scale p | decp p => cases p <;> decide
  | _ => decide

theorem cmdOpc_encode_ne_decp {i : Instr} (hi : i.code = .command) (h : ∀ p, i ≠ .decp p) : cmdOpc (encode i) ≠ 7#4 := by
  cases i with
  | decp p => exact absurd rfl (h p)
  | wireTerminator | wireContinuation => cases hi
  | scale p | encp p => cases p <;> decide
  | _ => decide

theorem cmdOpc_encode_encp (p : Bool) : cmdOpc (encode (.encp p)) = 6#4 := by cases p <;> rfl

theorem cmdOpc_encode_decp (p : Bool) : cmdOpc (encode (.decp p)) = 7#4 := by cases p <;> rfl

namespace CommandFrame

variable {i : Instr} {s t : State} (h : CommandFrame (commandStart i s) t) (hb : t.busy = false)

include h

theorem op_eq : t.op = cmdOpc (encode i) := h.setting.op

theorem output_of_ocnt_le (hok : t.status = 0#3) {k : Nat} (hk : t.ocnt ≤ k) : spaceRead t.out k = spaceRead s.out k :=
  h.output k ((outputEnd_ok hok).trans_le hk)

theorem value_of_not_encode (henc : ¬ EncodeOp (cmdOpc (encode i))) : t.v = s.v := (h.unwritten.value henc).1

theorem output_of_silent (henc : ¬ EncodeOp (cmdOpc (encode i))) (h7 : cmdOpc (encode i) ≠ 7#4) (h9 : cmdOpc (encode i) ≠ 9#4) (k : Nat) :
    spaceRead t.out k = spaceRead s.out k :=
  congrArg (spaceRead · k) (h.unwritten.out henc h7 h9)

include hb

theorem output_of_encode (henc : EncodeOp (cmdOpc (encode i))) {k : Nat} (hk : t.ocnt ≤ k) : spaceRead t.out k = spaceRead s.out k :=
  h.output_of_ocnt_le (h.ended hb (h.op_eq ▸ henc)).1 hk

theorem output_of_le {k : Nat} (hk : (if t.status = 0#3 then t.ocnt else mostEmitted t) ≤ k) : spaceRead t.out k = spaceRead s.out k := by
  split at hk
  · next hok => exact h.output_of_ocnt_le hok hk
  · next hf => exact h.output k ((outputEnd_fault hb hf).trans_le hk)

theorem value_of_encu (hop : cmdOpc (encode i) = 1#4) : t.v = 0#35 := by
  have hop' : t.op = 1#4 := h.op_eq.trans hop
  obtain ⟨-, hend, -⟩ := h.ended hb (.inl hop')
  exact (h.value (.inl hop')).2 ((valuesEnded_encu hop').mp hend)

/-- A list is encoded to its end: its values leave `V` at 0, and where there are none `V` is as it was. -/
theorem value_of_list (hop : cmdOpc (encode i) = 6#4 ∨ cmdOpc (encode i) = 8#4) : t.v = if s.inLen = 0 then s.v else 0#35 := by
  have hop' : t.op = 6#4 ∨ t.op = 8#4 := h.op_eq ▸ hop
  have hne : t.op ≠ 1#4 := by rcases hop' with hop' | hop' <;> rw [hop'] <;> decide
  obtain ⟨-, hend, -⟩ := h.ended hb (.inr hop')
  obtain ⟨hest, hle⟩ := (valuesEnded_of_ne hne).mp hend
  have hcur : t.cursor = s.inLen := (le_antisymm h.cursor hle).trans h.setting.len
  exact hcur ▸ (h.value (.inr hop')).1 hest

theorem phase_eq (h7 : cmdOpc (encode i) ≠ 7#4) : t.phase = .lat := by
  by_cases h6 : cmdOpc (encode i) = 6#4
  · have hop : t.op = 6#4 := h.op_eq.trans h6
    exact (h.ended hb (.inr (.inl hop))).2.2 hop
  · exact h.unwritten.phase h6 h7

theorem est_of_encu (hop : cmdOpc (encode i) = 1#4) : t.est = .done := by
  have hop' : t.op = 1#4 := h.op_eq.trans hop
  obtain ⟨-, hend, -⟩ := h.ended hb (.inl hop')
  exact (valuesEnded_encu hop').mp hend

theorem est_of_ne (hne : cmdOpc (encode i) ≠ 1#4) : t.est = .idle := by
  by_cases henc : EncodeOp (cmdOpc (encode i))
  · obtain ⟨-, hend, -⟩ := h.ended hb (h.op_eq ▸ henc)
    exact ((valuesEnded_of_ne (h.op_eq ▸ hne)).mp hend).1
  · exact (h.unwritten.value henc).2

end CommandFrame

/-- Settles O52: every micro-step keeps `CommandFrame`, and each clause is read off it at the end of the command. -/
theorem commandsFrameOutput : Obligations.CommandsFrameOutput := by
  intro i s t hi hexec
  obtain ⟨h, hb⟩ := exec_commandFrame hi hexec
  have hset := h.setting
  refine ⟨fun k hk => ?_, ?_, fun h7 => h.phase_eq hb (cmdOpc_encode_ne_decp hi h7),
    fun h6 => h.unwritten.pairs (cmdOpc_encode_ne_encp hi h6), ?_, fun h7 => h.unwritten.accumulators (cmdOpc_encode_ne_decp hi h7),
    h.unwritten.chunk, hset.cmd, hset.op, hset.len, h.cursor, hset.opaLatch, hset.opfLatch, hset.prec⟩
  · cases i with
    | encu => exact h.output_of_encode hb (.inl rfl) hk
    | encl => exact h.output_of_encode hb (.inr (.inr rfl)) hk
    | encp p => exact h.output_of_encode hb (.inr (.inl (cmdOpc_encode_encp p))) hk
    | decl =>
      have hmost : mostEmitted t = s.inLen := by rw [mostEmitted, h.op_eq, hset.len]; rfl
      exact h.output_of_le hb (hmost ▸ hk)
    | decp p =>
      have hmost : mostEmitted t = s.inLen / 2 := by rw [mostEmitted, h.op_eq, hset.len, cmdOpc_encode_decp]; rfl
      exact h.output_of_le hb (hmost ▸ hk)
    | decc | zze | zzd => exact h.output_of_silent (by decide) (by decide) (by decide) k
    | scale p => exact h.output_of_silent (by cases p <;> decide) (by cases p <;> decide) (by cases p <;> decide) k
    | wireTerminator | wireContinuation => cases hi
  · cases i with
    | encu => exact h.value_of_encu hb rfl
    | encl => exact h.value_of_list hb (.inr rfl)
    | encp p => exact h.value_of_list hb (.inl (cmdOpc_encode_encp p))
    | decp p | scale p => exact h.value_of_not_encode (by cases p <;> decide)
    | decc | zze | zzd | decl => exact h.value_of_not_encode (by decide)
    | wireTerminator | wireContinuation => cases hi
  · split
    · next he => subst he; exact h.est_of_encu hb rfl
    · next hne => exact h.est_of_ne hb (cmdOpc_encode_ne_encu hi hne)

end Sys2Proof.Machine
end

section
/-! SUPPORT. The decoder and the encoder (30 R80, R89 to R92): each undoes the other in its encoding space, and which command words are illegal. -/

namespace Sys2Proof.Machine

/-! ## The command word -/

/-- A command word with its reserved bits 0 is made of its two fields (30 R89). -/
theorem cmdWord_fields {w : BitVec 8} (h : cmdReserved w = 0#3) : cmdWord (cmdPsel w) (cmdOpc w) = w := by
  revert w
  decide

theorem withoutPsel_ok_iff {psel : Bool} {i j : Instr} : withoutPsel psel i = .ok j ↔ psel = false ∧ i = j := by
  cases psel <;> simp [withoutPsel]

/-- A legal command word is the word of the command it names. -/
theorem encode_of_decodeCommand {w : BitVec 8} {i : Instr} (h : decodeCommand w = .ok i) : encode i = w := by
  unfold decodeCommand at h
  split at h
  · cases h
  · next hres =>
    have hw := cmdWord_fields (not_not.mp hres)
    have hword : ∀ {p : Bool} {o : BitVec 4}, cmdPsel w = p → (cmdOpc w).toNat = o.toNat → cmdWord p o = w :=
      fun hp ho => by rw [← hp, ← BitVec.eq_of_toNat_eq ho]; exact hw
    split at h
    case h_1 ho | h_2 ho | h_3 ho | h_4 ho | h_8 ho | h_9 ho =>
      obtain ⟨hp, rfl⟩ := withoutPsel_ok_iff.mp h
      exact hword hp ho
    case h_5 ho | h_6 ho | h_7 ho => cases h; exact hword rfl ho
    case h_10 => cases h

theorem decodeCommand_eq_ok_iff {w : BitVec 8} {i : Instr} : decodeCommand w = .ok i ↔ i.code = .command ∧ encode i = w :=
  ⟨fun h => ⟨code_of_decodeCommand h, encode_of_decodeCommand h⟩, fun ⟨hi, hw⟩ => hw ▸ decodeCommand_encode hi⟩

/-! ## The wire byte -/

/-- The wire symbol with this continuation flag and group (30 R80). -/
def wireSymbol (c : Bool) (g : BitVec 5) : Instr := if c then .wireContinuation g else .wireTerminator g

theorem encode_wireSymbol (c : Bool) (g : BitVec 5) : encode (wireSymbol c g) = wireByte c g := by cases c <;> rfl

/-- The continuation flag `C = raw[5]` of a byte (30 R80). -/
def symbolFlag (b : Byte) : Bool := (rawOf b).getLsbD 5

/-- The group `G = raw[4:0]` of a byte (30 R80). -/
def symbolGroup (b : Byte) : BitVec 5 := (rawOf b).extractLsb' 0 5

theorem decodeSymbol_of_alphabet {b : Byte} (hlow : 63 ≤ b.toNat) (hhigh : b.toNat ≤ 126) :
    decodeSymbol b = .ok (wireSymbol (symbolFlag b) (symbolGroup b)) := by
  rcases decodeSymbol_cases b with ⟨hout, -⟩ | ⟨-, ⟨hd, hc⟩ | ⟨hd, hc⟩⟩
  · omega
  · rw [hd, symbolFlag, hc]; rfl
  · rw [hd, symbolFlag, hc]; rfl

theorem alphabet_of_decodeSymbol {b : Byte} {i : Instr} (h : decodeSymbol b = .ok i) : 63 ≤ b.toNat ∧ b.toNat ≤ 126 := by
  rcases decodeSymbol_cases b with ⟨-, hd⟩ | ⟨halpha, -⟩
  · rw [hd] at h; cases h
  · exact halpha

theorem toNat_rawOf {b : Byte} (h : b.toNat ≤ 126) : (rawOf b).toNat = b.toNat - 63 :=
  Nat.mod_eq_of_lt (by simp only [Config.alphaLo]; omega)

theorem toNat_symbolGroup {b : Byte} (h : b.toNat ≤ 126) : (symbolGroup b).toNat = (b.toNat - 63) % 32 := by
  rw [symbolGroup, BitVec.extractLsb'_toNat, Nat.shiftRight_zero, toNat_rawOf h]

theorem symbolFlag_eq {b : Byte} (h : b.toNat ≤ 126) : symbolFlag b = decide (95 ≤ b.toNat) := by
  rw [symbolFlag, BitVec.getLsbD, toNat_rawOf h, Nat.testBit_eq_decide_div_mod_eq, decide_eq_decide]
  omega

theorem toNat_wireByte (c : Bool) (g : BitVec 5) : (wireByte c g).toNat = 63 + (32 * c.toNat + g.toNat) := by
  revert c g
  decide

/-- A byte of the alphabet is made of its flag and its group. -/
theorem wireByte_symbol {b : Byte} (hlow : 63 ≤ b.toNat) (hhigh : b.toNat ≤ 126) :
    wireByte (symbolFlag b) (symbolGroup b) = b := by
  apply BitVec.eq_of_toNat_eq
  rw [toNat_wireByte, toNat_symbolGroup hhigh, symbolFlag_eq hhigh]
  by_cases h : 95 ≤ b.toNat
  · simp only [h, decide_true, Bool.toNat_true]; omega
  · simp only [h, decide_false, Bool.toNat_false]; omega

theorem decodeSymbol_wireByte (c : Bool) (g : BitVec 5) : decodeSymbol (wireByte c g) = .ok (wireSymbol c g) := by
  have hb := toNat_wireByte c g
  have hg := g.isLt
  have hc : c.toNat ≤ 1 := Bool.toNat_le c
  have hhigh : (wireByte c g).toNat ≤ 126 := by omega
  have hflag : symbolFlag (wireByte c g) = c := by
    rw [symbolFlag_eq hhigh, hb]
    cases c with
    | false => exact decide_eq_false (by rw [Bool.toNat_false]; omega)
    | true => exact decide_eq_true (by rw [Bool.toNat_true]; omega)
  have hgroup : symbolGroup (wireByte c g) = g := BitVec.eq_of_toNat_eq (by rw [toNat_symbolGroup hhigh, hb]; omega)
  rw [decodeSymbol_of_alphabet (by omega) hhigh, hflag, hgroup]

theorem decodeSymbol_eq_ok_iff {b : Byte} {i : Instr} : decodeSymbol b = .ok i ↔ i.code = .wire ∧ encode i = b := by
  constructor
  · intro h
    obtain ⟨hlow, hhigh⟩ := alphabet_of_decodeSymbol h
    rw [decodeSymbol_of_alphabet hlow hhigh] at h
    cases h
    refine ⟨?_, (encode_wireSymbol _ _).trans (wireByte_symbol hlow hhigh)⟩
    unfold wireSymbol
    split <;> rfl
  · rintro ⟨hi, rfl⟩
    cases i with
    | wireTerminator g => exact decodeSymbol_wireByte false g
    | wireContinuation g => exact decodeSymbol_wireByte true g
    | _ => cases hi

/-- Settles O1: each encoding space by its own decoder. -/
theorem decodeExactlyEncodedWords : Obligations.DecodeExactlyEncodedWords
  | .command, _, _ => decodeCommand_eq_ok_iff
  | .wire, _, _ => decodeSymbol_eq_ok_iff

theorem decode_encode (i : Instr) : decode i.code (encode i) = .ok i := (decodeExactlyEncodedWords _ _ _).mpr ⟨rfl, rfl⟩

/-- Settles O2: each word written out is the encoding of its instruction. -/
theorem decodeOfWrittenWords : Obligations.DecodeOfWrittenWords :=
  ⟨decode_encode .encu, decode_encode (.scale true), decode_encode (.decp false), decode_encode .decl,
    decode_encode (.wireTerminator 0#5), decode_encode (.wireTerminator 31#5), decode_encode (.wireContinuation 0#5),
    decode_encode (.wireContinuation 31#5)⟩

/-! ## The illegal command words -/

/-- The twelve legal command words (30 R90). -/
def commandWords : List (BitVec 8) :=
  [0x01#8, 0x02#8, 0x03#8, 0x04#8, 0x05#8, 0x15#8, 0x06#8, 0x16#8, 0x07#8, 0x17#8, 0x08#8, 0x09#8]

theorem encode_mem_commandWords {i : Instr} (hi : i.code = .command) : encode i ∈ commandWords := by
  cases i with
  | wireTerminator | wireContinuation => cases hi
  | scale p | encp p | decp p => cases p <;> decide
  | _ => decide

theorem toOption_eq_none_iff {ε α : Type} {x : Except ε α} : x.toOption = none ↔ ∀ a, x ≠ .ok a := by
  cases x <;> simp [Except.toOption]

theorem exists_command_of_mem {w : BitVec 8} (h : w ∈ commandWords) : ∃ i : Instr, i.code = .command ∧ encode i = w := by
  simp only [commandWords, List.mem_cons, List.not_mem_nil, or_false] at h
  rcases h with h | h | h | h | h | h | h | h | h | h | h | h
  · exact ⟨.encu, rfl, h.symm⟩
  · exact ⟨.decc, rfl, h.symm⟩
  · exact ⟨.zze, rfl, h.symm⟩
  · exact ⟨.zzd, rfl, h.symm⟩
  · exact ⟨.scale false, rfl, h.symm⟩
  · exact ⟨.scale true, rfl, h.symm⟩
  · exact ⟨.encp false, rfl, h.symm⟩
  · exact ⟨.encp true, rfl, h.symm⟩
  · exact ⟨.decp false, rfl, h.symm⟩
  · exact ⟨.decp true, rfl, h.symm⟩
  · exact ⟨.encl, rfl, h.symm⟩
  · exact ⟨.decl, rfl, h.symm⟩

theorem decodeCommand_illegal_iff (w : BitVec 8) : (decodeCommand w).toOption = none ↔ w ∉ commandWords := by
  rw [toOption_eq_none_iff]
  constructor
  · intro h hw
    obtain ⟨i, hi, rfl⟩ := exists_command_of_mem hw
    exact h i (decodeCommand_encode hi)
  · intro hw i h
    obtain ⟨hi, rfl⟩ := decodeCommand_eq_ok_iff.mp h
    exact hw (encode_mem_commandWords hi)

/-- The numbers of the illegal words are the 256 numbers of words but those of the twelve. -/
theorem illegal_numbers :
    ((List.range 256).filter fun n => (decodeCommand (BitVec.ofNat 8 n)).toOption.isNone).toFinset =
      Finset.range 256 \ (commandWords.map BitVec.toNat).toFinset := by
  ext n
  simp only [List.mem_toFinset, List.mem_filter, List.mem_range, Option.isNone_iff_eq_none, decodeCommand_illegal_iff,
    Finset.mem_sdiff, Finset.mem_range, List.mem_map]
  refine and_congr_right fun hn => not_congr ⟨fun h => ⟨_, h, Nat.mod_eq_of_lt hn⟩, ?_⟩
  rintro ⟨w, hw, rfl⟩
  rwa [BitVec.ofNat_toNat, BitVec.setWidth_eq]

theorem illegal_count : ((List.range 256).filter fun n => (decodeCommand (BitVec.ofNat 8 n)).toOption.isNone).length = 244 := by
  rw [← List.toFinset_card_of_nodup (List.nodup_range.filter _), illegal_numbers,
    Finset.card_sdiff_of_subset (by decide), Finset.card_range]
  rfl

/-- Where the fields of a word make it illegal (30 R92). -/
theorem decodeCommand_illegal_iff_fields (w : BitVec 8) :
    (decodeCommand w).toOption = none ↔
      (cmdOpc w = 0#4 ∨ 10 ≤ (cmdOpc w).toNat ∨ cmdReserved w ≠ 0#3 ∨
        (cmdPsel w = true ∧ cmdOpc w ≠ 5#4 ∧ cmdOpc w ≠ 6#4 ∧ cmdOpc w ≠ 7#4)) := by
  unfold decodeCommand
  by_cases hres : cmdReserved w = 0#3
  · rw [if_neg (not_not.mpr hres)]
    simp only [hres, ne_eq, not_true, false_or]
    generalize cmdOpc w = o
    generalize cmdPsel w = p
    revert o p
    decide
  · rw [if_pos hres]
    simp [hres, Except.toOption]

theorem decodeCommand_error {w : BitVec 8} (h : (decodeCommand w).toOption = none) : ∃ e, decodeCommand w = .error e := by
  cases hd : decodeCommand w with
  | error e => exact ⟨e, rfl⟩
  | ok i => rw [hd] at h; cases h

/-- An idle block's step at a write of an illegal word, awaited or not, is IllegalCommand (60 R204). -/
theorem step_illegal {s : State} {w : BitVec 8} {rest : List HostAction} (hb : s.busy = false)
    (hh : s.host = .command w :: rest ∨ s.host = .writeCmd w :: rest) (hw : (decodeCommand w).toOption = none) :
    step s = .next (illegalCommand w { s with host := rest }) := by
  obtain ⟨e, he⟩ := decodeCommand_error hw
  rcases hh with hh | hh <;> rw [step_action hh (by rintro ⟨⟩), hostMove, if_neg (by simp [hb]), he] <;> rfl

/-- Settles O3: the fields of a word, the list of the twelve, their number, and the step. -/
theorem illegalCommandWords : Obligations.IllegalCommandWords :=
  ⟨decodeCommand_illegal_iff_fields, decodeCommand_illegal_iff, illegal_count,
    fun _ w _ hb hh hw => ⟨cmdOpc w, step_illegal hb hh hw⟩⟩

/-! ## The wire symbol in a step -/

/-- The block's turn at a byte that decodes is the execution of its symbol (40 R113). -/
theorem blockStep_decoded {s : State} {i : Instr} (hop : isDecodeOp s.op = true) (hc : s.cst = .accumulate) (hlt : s.cursor < s.len)
    (hg : s.gcnt ≠ 6#3) (hd : decodeSymbol (byteAt s s.cursor) = .ok i) : blockStep s = exec i s := by
  rw [blockStep_accumulating hop hc hlt, chunkStep_decoded hlt hg hd, exec_decoded s hd]

/-- Settles O5: in each situation of the host the step is the block's turn. -/
theorem stepRunsDecodedSymbol : Obligations.StepRunsDecodedSymbol := by
  intro s i hb hop hc hlt hg hd
  have hturn := blockStep_decoded hop hc hlt hg hd
  refine ⟨fun hh => ?_, fun rest hh => ?_, fun rest hh => ?_⟩
  · rw [step_no_host hh, if_pos hb, hturn]
  · rw [step_wait hh, if_pos hb, hturn]
  · rw [step_action hh (by rintro ⟨⟩), hostMove, if_pos hb, fetchBusy_outcome]
    exact blockStep_decoded (s := { s with host := rest }) hop hc hlt hg hd

end Sys2Proof.Machine
end

section
/-! SUPPORT. A well-formed chunk sequence at `CURSOR` (30 R82, R83): every decode command reads it to its terminator and holds its value. -/

namespace Sys2Proof.Machine

/-! ## The bytes that are left -/

theorem bytesFromCursor_of_lt {s : State} (h : s.cursor < s.len) :
    bytesFromCursor s = byteAt s s.cursor :: bytesFromCursor { s with cursor := s.cursor + 1 } := by
  have hlen : s.len - s.cursor = s.len - (s.cursor + 1) + 1 := by omega
  rw [bytesFromCursor, hlen, List.range_succ_eq_map, List.map_cons, List.map_map]
  refine congrArg _ (List.map_congr_left fun j _ => ?_)
  exact congrArg (byteAt s) (Nat.succ_add_eq_add_succ s.cursor j).symm

theorem bytesFromCursor_of_le {s : State} (h : s.len ≤ s.cursor) : bytesFromCursor s = [] := by
  rw [bytesFromCursor, Nat.sub_eq_zero_of_le h]
  rfl

/-- The first byte left is the one at `CURSOR`, and the others are left after it. -/
theorem bytesFromCursor_eq_cons {s : State} {b : Byte} {bs : List Byte} (h : bytesFromCursor s = b :: bs) :
    s.cursor < s.len ∧ byteAt s s.cursor = b ∧ bytesFromCursor { s with cursor := s.cursor + 1 } = bs := by
  rcases Nat.lt_or_ge s.cursor s.len with hlt | hge
  · rw [bytesFromCursor_of_lt hlt] at h
    exact ⟨hlt, List.cons.inj h⟩
  · rw [bytesFromCursor_of_le hge] at h
    cases h

/-- At command start all the input is left. -/
theorem bytesFromCursor_commandStart (i : Instr) (s : State) : bytesFromCursor (commandStart i s) = inputBytes s :=
  List.map_congr_left fun j _ => congrArg (byteAt s) (Nat.zero_add j)

/-! ## One symbol -/

theorem runSteps_next {s t : State} (hb : s.busy = true) (h : blockStep s = .next t) (n : Nat) :
    runSteps blockStep (n + 1) s = runSteps blockStep n t := by
  simp only [runSteps, hb, if_true, h]

/-- A byte of the alphabet is accepted while there is room for its group (40 R113). -/
theorem blockStep_accepts {s : State} {b : Byte} {bs : List Byte} (he : ChunkEnabled s) (hg : s.gcnt ≠ 6#3)
    (hbytes : bytesFromCursor s = b :: bs) (hlow : 63 ≤ b.toNat) (hhigh : b.toNat ≤ 126) :
    blockStep s = .next (accepted (symbolFlag b) (symbolGroup b) s) := by
  obtain ⟨hlt, rfl, -⟩ := bytesFromCursor_eq_cons hbytes
  have hsome : (decodeSymbol (byteAt s s.cursor)).toOption ≠ none := by
    rw [decodeSymbol_of_alphabet hlow hhigh]
    exact Option.some_ne_none _
  rw [blockStep_accumulating he.2.1 he.2.2 hlt, chunkStep_eq, chunkOp, if_neg hlt.not_ge, if_neg hg, if_neg hsome, if_pos he]
  rfl

theorem isContinuation_iff {b : Byte} : isContinuation b = true ↔ 95 ≤ b.toNat ∧ b.toNat ≤ 126 := by
  simp [isContinuation]

theorem isTerminator_iff {b : Byte} : isTerminator b = true ↔ 63 ≤ b.toNat ∧ b.toNat ≤ 94 := by
  simp [isTerminator]

theorem symbolFlag_of_isContinuation {b : Byte} (h : isContinuation b = true) : symbolFlag b = true := by
  obtain ⟨hlow, hhigh⟩ := isContinuation_iff.mp h
  rw [symbolFlag_eq hhigh]
  exact decide_eq_true hlow

theorem symbolFlag_of_isTerminator {b : Byte} (h : isTerminator b = true) : symbolFlag b = false := by
  obtain ⟨-, hhigh⟩ := isTerminator_iff.mp h
  rw [symbolFlag_eq (by omega)]
  exact decide_eq_false (by omega)

theorem gcnt_ne_six {s : State} (h : s.gcnt.toNat ≤ 5) : s.gcnt ≠ 6#3 := fun h6 => absurd (h6 ▸ h) (by decide)

theorem accepted_gcnt {s : State} (c : Bool) (g : BitVec 5) (h : s.gcnt.toNat ≤ 5) :
    (accepted c g s).gcnt.toNat = s.gcnt.toNat + 1 := by
  simp only [accepted, BitVec.toNat_add, BitVec.toNat_ofNat]
  omega

/-- A group above the groups there are counts `2^(5 k)` times (30 R83). -/
theorem toNat_or_group {acc : BitVec 30} {g : BitVec 5} {k : Nat} (hk : k ≤ 5) (hacc : acc.toNat < 2 ^ (5 * k)) :
    (acc ||| (g.setWidth 30 <<< (5 * k))).toNat = acc.toNat + 2 ^ (5 * k) * g.toNat := by
  have hgroup : g.toNat < 2 ^ 5 := g.isLt
  have hlt : g.toNat * 2 ^ (5 * k) < 2 ^ 30 :=
    calc g.toNat * 2 ^ (5 * k) < 2 ^ 5 * 2 ^ (5 * k) := Nat.mul_lt_mul_of_pos_right hgroup (Nat.two_pow_pos _)
      _ = 2 ^ (5 + 5 * k) := (Nat.pow_add ..).symm
      _ ≤ 2 ^ 30 := Nat.pow_le_pow_right (by decide) (by omega)
  rw [BitVec.toNat_or, BitVec.toNat_shiftLeft, BitVec.toNat_setWidth, Nat.shiftLeft_eq,
    Nat.mod_eq_of_lt (hgroup.trans (by decide)), Nat.mod_eq_of_lt hlt, Nat.or_comm, Nat.mul_comm,
    ← Nat.two_pow_add_eq_or_of_lt hacc, Nat.add_comm]

theorem accepted_acc {s : State} (c : Bool) (g : BitVec 5) (he : ChunkEnabled s) (hwf : ChunkWf s) (hroom : s.gcnt.toNat ≤ 5) :
    (accepted c g s).acc.toNat = s.acc.toNat + 2 ^ (5 * s.gcnt.toNat) * g.toNat := by
  obtain ⟨-, hshift, hacc, -⟩ := hwf he.1 he.2.1
  rw [accepted, hshift]
  exact toNat_or_group hroom hacc

/-! ## One value -/

theorem groupsValue_cons {b : Byte} (h : b.toNat ≤ 126) (bs : List Byte) :
    groupsValue (b :: bs) = (symbolGroup b).toNat + 32 * groupsValue bs := by
  rw [groupsValue, toNat_symbolGroup h]

theorem groupsValue_append (xs ys : List Byte) :
    groupsValue (xs ++ ys) = groupsValue xs + 32 ^ xs.length * groupsValue ys := by
  induction xs with
  | nil => simp [groupsValue]
  | cons x xs ih => rw [List.cons_append, groupsValue, groupsValue, ih, List.length_cons]; ring

/-- `s` at the end of a value: what a decode command's chunk machine has written since (40 R113). -/
def valueRead (s : State) (acc : BitVec 30) (shift : BitVec 5) (gcnt : BitVec 3) (cursor : Nat) : State :=
  { s with acc := acc, shift := shift, gcnt := gcnt, cursor := cursor, cst := .done }

/-- A decode command reads a chunk sequence with room for its groups up to the terminator, and nothing else happens. -/
theorem runSteps_chunk {cs rest : List Byte} {b : Byte} (hcs : ∀ c ∈ cs, isContinuation c = true) (hb : isTerminator b = true)
    {s : State} (he : ChunkEnabled s) (hwf : ChunkWf s) (hroom : s.gcnt.toNat + cs.length ≤ 5)
    (hbytes : bytesFromCursor s = cs ++ b :: rest) (n : Nat) :
    ∃ acc shift gcnt,
      runSteps blockStep (n + cs.length + 1) s =
        runSteps blockStep n (valueRead s acc shift gcnt (s.cursor + cs.length + 1)) ∧
      acc.toNat = s.acc.toNat + 2 ^ (5 * s.gcnt.toNat) * groupsValue (cs ++ [b]) := by
  induction cs generalizing s with
  | nil =>
    have hg : s.gcnt.toNat ≤ 5 := hroom
    obtain ⟨hlow, hhigh⟩ := isTerminator_iff.mp hb
    have hstep := blockStep_accepts he (gcnt_ne_six hg) hbytes hlow (by omega)
    have hacc := accepted_acc false (symbolGroup b) he hwf hg
    rw [symbolFlag_of_isTerminator hb] at hstep
    refine ⟨_, _, _, runSteps_next he.1 hstep n, hacc.trans ?_⟩
    rw [List.nil_append, groupsValue_cons (by omega)]
    rfl
  | cons c cs ih =>
    rw [List.length_cons] at hroom
    have hg : s.gcnt.toNat ≤ 5 := by omega
    obtain ⟨hlow, hhigh⟩ := isContinuation_iff.mp (hcs c List.mem_cons_self)
    have hstep := blockStep_accepts he (gcnt_ne_six hg) hbytes (by omega) hhigh
    have hacc := accepted_acc true (symbolGroup c) he hwf hg
    have hcount := accepted_gcnt true (symbolGroup c) hg
    rw [symbolFlag_of_isContinuation (hcs c List.mem_cons_self)] at hstep
    obtain ⟨acc, shift, gcnt, hrun, hvalue⟩ := ih (fun d hd => hcs d (List.mem_cons_of_mem c hd)) (s := accepted true (symbolGroup c) s)
      he (accepted_chunkWf true (symbolGroup c) he.1 (gcnt_ne_six hg) hwf) (by omega) (bytesFromCursor_eq_cons hbytes).2.2
    refine ⟨acc, shift, gcnt, ?_, ?_⟩
    · have hcursor : s.cursor + (c :: cs).length + 1 = s.cursor + 1 + cs.length + 1 := by rw [List.length_cons]; omega
      rw [hcursor]
      exact (runSteps_next he.1 hstep (n + cs.length + 1)).trans hrun
    · rw [hvalue, hacc, hcount, List.cons_append, groupsValue_cons hhigh]
      ring

/-! ## `DECC` -/

theorem deccStart_enabled (s : State) : ChunkEnabled (commandStart .decc s) := ⟨rfl, rfl, rfl⟩

theorem deccStart_chunkWf (s : State) : ChunkWf (commandStart .decc s) :=
  fun _ _ => ⟨Nat.zero_le 6, rfl, one_pos, le_rfl, by rintro ⟨⟩, fun _ => rfl⟩

/-- A read value ends a `DECC` (40 R116). -/
theorem blockStep_decc_done {s : State} (hop : s.op = 2#4) (hc : s.cst = .done) :
    blockStep s = .next (finishOk (s.acc.setWidth 35) (BitVec.ofNat 3 s.cursor) s) := by
  rw [blockStep, hop]
  change deccStep s = _
  rw [deccStep, hc]

/-- A command that takes no precision starts at any idle block and runs the block's micro-steps. -/
theorem exec_of_idle {i : Instr} (hi : i.code = .command) (hp : i.psel = false) {s : State} (hb : s.busy = false) :
    exec i s = runSteps blockStep (stepBound i s.inLen) (commandStart i s) := by
  have hstart : startable i s = none :=
    (startable_none_iff i s).mpr ⟨hb, by rw [hp]; exact precisionOk_default⟩
  rw [exec_eq_runCommand hi, runCommand, hstart]

/-- `DECC` on a well-formed sequence of at most six groups ends with its value and its length (40 R116). -/
theorem exec_decc_chunk {s : State} {cs rest : List Byte} {b : Byte} (hidle : s.busy = false) (hlen : cs.length ≤ 5)
    (hcs : ∀ c ∈ cs, isContinuation c = true) (hb : isTerminator b = true) (hin : inputBytes s = cs ++ b :: rest) :
    ∃ (t : State) (acc : BitVec 30),
      exec .decc s = .next t ∧ EndedOk t (acc.setWidth 35) (cs.length + 1) 0 ∧ acc.toNat = groupsValue (cs ++ [b]) := by
  have hinput : cs.length + 1 ≤ s.inLen := by
    have h := congrArg List.length hin
    simp only [inputBytes, List.length_map, List.length_range, List.length_append, List.length_cons] at h
    omega
  obtain ⟨n, hn⟩ : ∃ n, stepBound .decc s.inLen = n + 1 + cs.length + 1 :=
    ⟨2 * s.inLen - (cs.length + 1), by simp only [stepBound]; omega⟩
  obtain ⟨acc, shift, gcnt, hrun, hvalue⟩ := runSteps_chunk hcs hb (deccStart_enabled s) (deccStart_chunkWf s)
    ((Nat.zero_add _).trans_le hlen) ((bytesFromCursor_commandStart .decc s).trans hin) (n + 1)
  have hend := blockStep_decc_done (s := valueRead (commandStart .decc s) acc shift gcnt (0 + cs.length + 1)) rfl rfl
  have hexec := calc exec .decc s
    _ = runSteps blockStep (stepBound .decc s.inLen) (commandStart .decc s) := exec_of_idle rfl rfl hidle
    _ = runSteps blockStep (n + 1) (valueRead (commandStart .decc s) acc shift gcnt (0 + cs.length + 1)) := hn ▸ hrun
    _ = _ := runSteps_next rfl hend n
    _ = _ := runSteps_idle blockStep n rfl
  have hconsumed : (BitVec.ofNat 3 (0 + cs.length + 1)).toNat = cs.length + 1 := by
    rw [BitVec.toNat_ofNat, Nat.zero_add]
    exact Nat.mod_eq_of_lt (by omega)
  refine ⟨_, acc, hexec, ⟨rfl, rfl, rfl, rfl, hconsumed, rfl⟩, ?_⟩
  rw [hvalue, commandStart_acc, commandStart_gcnt]
  simp

/-- Settles O20: the command ends with the sequence's value, to which a zero group at the end adds nothing. -/
theorem everyChunkSequenceAccepted : Obligations.EveryChunkSequenceAccepted := by
  intro s cs rest b hidle hlen hcs hb hin
  obtain ⟨t, acc, ht, hend, hvalue⟩ := exec_decc_chunk hidle hlen hcs hb hin
  have ⟨_, _, _, hrval, _⟩ := hend
  refine ⟨⟨t, ht, hrval ▸ hend, ?_⟩, fun h63 => ?_⟩
  · rw [hrval, BitVec.toNat_setWidth, Nat.mod_eq_of_lt (acc.isLt.trans (by decide)), hvalue]
  · rw [groupsValue_append, h63]
    exact Nat.add_zero _

end Sys2Proof.Machine
end

section
/-! SUPPORT. The host's moves for an assembler line (30 R95; 70 R232), one after another on the idle block: the writes of its operands, then `CMD`. -/

namespace Sys2Proof.Machine

/-! ## Moves one after another -/

theorem performAll_append {xs ys : List HostAction} {s t : State} (h : performAll xs s = .next t) :
    performAll (xs ++ ys) s = performAll ys t := by
  induction xs generalizing s with
  | nil => cases h; rfl
  | cons a xs ih =>
    rw [List.cons_append, performAll]
    rw [performAll] at h
    cases hp : perform a s with
    | next u => rw [hp] at h; exact ih h
    | fault f => rw [hp] at h; cases h
    | refused r => rw [hp] at h; cases h

theorem performAll_singleton (a : HostAction) (s : State) : performAll [a] s = perform a s := by
  rw [performAll]
  cases perform a s <;> rfl

section perform

variable {s : State} (hb : s.busy = false)

include hb

theorem perform_writeOpa (v : BitVec 35) : perform (.writeOpa v) s = .next { s with opa := v } := by
  simp [perform, hostMove, hb]

theorem perform_writeOpf (x : F64) : perform (.writeOpf x) s = .next { s with opf := x } := by
  simp [perform, hostMove, hb]

theorem perform_writePrecIn (p : F64) : perform (.writePrecIn p) s = .next { s with precIn := p } := by
  simp [perform, hostMove, hb]

theorem perform_writeInLen (n : Nat) : perform (.writeInLen n) s = .next { s with inLen := n } := by
  simp [perform, hostMove, hb]

theorem perform_writeIn (i : Nat) (e : Elem) : perform (.writeIn i e) s = .next { s with inp := spaceWrite s.inp i e } := by
  simp [perform, hostMove, hb]

theorem perform_command {i : Instr} (hi : i.code = .command) : perform (.command (encode i)) s = exec i s := by
  simp [perform, hostMove, hb, decodeCommand_encode hi]

end perform

/-- Moves that leave the block idle, and then the write of a command's word: the command is executed. -/
theorem performAll_command {acts : List HostAction} {s t : State} {i : Instr} (hi : i.code = .command)
    (h : performAll acts s = .next t) (hb : t.busy = false) : performAll (acts ++ [.command (encode i)]) s = exec i t := by
  rw [performAll_append h, performAll_singleton, perform_command hb hi]

/-! ## The operands -/

/-- `s` after the host wrote the operand of `.P`, where it stands, to `PREC_IN`. -/
def withPrecision (p : Option F64) (s : State) : State := { s with precIn := p.getD s.precIn }

theorem performAll_loadPrecision {s : State} (hb : s.busy = false) (p : Option F64) :
    performAll (loadPrecision p) s = .next (withPrecision p s) := by
  cases p with
  | none => rfl
  | some p => exact (performAll_singleton _ s).trans (perform_writePrecIn hb p)

/-- The precision of a line's command: the operand of `.P`, or 1e5 (30 R91, R95). -/
theorem precisionOf_getD {t : State} {p : Option F64} {q : F64} (h : t.precIn = p.getD q) :
    precisionOf p.isSome t = p.getD 0x40F86A0000000000#64 := by
  cases p with
  | none => rfl
  | some p => exact h

/-- Elements written from an index on are read there, and the cells below it are as they were. -/
theorem performAll_writeIn {s : State} (hb : s.busy = false) (es : List Elem) (n : Nat) :
    ∃ m, performAll ((es.zipIdx n).map fun p => .writeIn p.2 p.1) s = .next { s with inp := m } ∧
      (∀ k, k < n → spaceRead m k = spaceRead s.inp k) ∧ ∀ k, k < es.length → spaceRead m (n + k) = es[k]? := by
  induction es generalizing n s with
  | nil => exact ⟨s.inp, rfl, fun _ _ => rfl, fun k hk => absurd hk (Nat.not_lt_zero k)⟩
  | cons e es ih =>
    obtain ⟨m, hrun, hbelow, hread⟩ := ih (s := { s with inp := spaceWrite s.inp n e }) hb (n + 1)
    refine ⟨m, ?_, fun k hk => ?_, fun k hk => ?_⟩
    · rw [List.zipIdx_cons, List.map_cons, performAll, perform_writeIn hb]
      exact hrun
    · rw [hbelow k (by omega), spaceRead_spaceWrite_other _ _ hk.ne]
    · cases k with
      | zero => exact (hbelow n (Nat.lt_succ_self n)).trans (spaceRead_spaceWrite_same _ _ _)
      | succ k => rw [← Nat.succ_add_eq_add_succ n k]; exact hread k (Nat.lt_of_succ_lt_succ hk)

/-- `t` is `s` after the host wrote the list `es` to IN and its length to `IN_LEN`. -/
structure InputLoaded (es : List Elem) (s t : State) : Prop where
  busy : t.busy = s.busy
  precIn : t.precIn = s.precIn
  inLen : t.inLen = es.length
  reads : ∀ k, k < es.length → spaceRead t.inp k = es[k]?

theorem performAll_loadInput {s : State} (hb : s.busy = false) (es : List Elem) :
    ∃ t, performAll (loadInput es) s = .next t ∧ InputLoaded es s t := by
  obtain ⟨m, hrun, -, hread⟩ := performAll_writeIn hb es 0
  refine ⟨{ s with inp := m, inLen := es.length }, ?_, rfl, rfl, rfl, fun k hk => ?_⟩
  · rw [loadInput, performAll_append hrun, performAll_singleton]
    exact perform_writeInLen (s := { s with inp := m }) hb _
  · exact (congrArg (spaceRead m) (Nat.zero_add k).symm).trans (hread k hk)

namespace InputLoaded

variable {s t : State}

/-- The list read from IN at its own type is the list the host wrote. -/
theorem map_range_eq {α : Type} {mk : α → Elem} {xs : List α} (h : InputLoaded (xs.map mk) s t) {f : Nat → α}
    (hf : ∀ k x, spaceRead t.inp k = some (mk x) → f k = x) : (List.range t.inLen).map f = xs := by
  have hlen : t.inLen = xs.length := h.inLen.trans (List.length_map mk)
  refine List.ext_getElem (by simpa using hlen) fun k _ hk => ?_
  rw [List.getElem_map, List.getElem_range]
  exact hf k _ ((h.reads k (by simpa using hk)).trans (by simp [hk]))

theorem inputBytes_eq {bs : List Byte} (h : InputLoaded (bs.map .byte) s t) : inputBytes t = bs :=
  h.map_range_eq fun k b hk => by rw [byteAt, hk]

theorem inputLevels_eq {ls : List Level} (h : InputLoaded (ls.map .level) s t) : inputLevels t = ls :=
  h.map_range_eq fun k l hk => by rw [levelAt, hk]

theorem inputPoints_eq {ps : List Point} (h : InputLoaded (ps.map .point) s t) : inputPoints t = ps :=
  h.map_range_eq fun k p hk => by rw [pointAt, hk]

end InputLoaded

/-! ## The lines -/

/-- A line with one scalar operand: one write of a port, then `CMD`. -/
theorem performAll_scalar {a : HostAction} {i : Instr} (hi : i.code = .command) {s t : State} (h : perform a s = .next t)
    (hb : t.busy = false) : performAll [a, .command (encode i)] s = exec i t :=
  performAll_command (acts := [a]) hi ((performAll_singleton a s).trans h) hb

/-- A line with a list and no `.P`: the list in IN, then `CMD`. -/
theorem performAll_list {s : State} (hb : s.busy = false) {i : Instr} (hi : i.code = .command) (es : List Elem) :
    ∃ t, performAll (loadInput es ++ [.command (encode i)]) s = exec i t ∧ t.busy = false ∧ InputLoaded es s t := by
  obtain ⟨t, hrun, ht⟩ := performAll_loadInput hb es
  have hbt := ht.busy.trans hb
  exact ⟨t, performAll_command hi hrun hbt, hbt, ht⟩

/-- A line with a list and a precision: `PREC_IN` where `.P` stands, the list in IN, then `CMD`. -/
theorem performAll_precision_list {s : State} (hb : s.busy = false) {i : Instr} (hi : i.code = .command) (p : Option F64)
    (es : List Elem) :
    ∃ t, performAll (loadPrecision p ++ loadInput es ++ [.command (encode i)]) s = exec i t ∧ t.busy = false ∧
      InputLoaded es (withPrecision p s) t ∧ precisionOf p.isSome t = p.getD 0x40F86A0000000000#64 := by
  obtain ⟨t, hrun, hbt, ht⟩ := performAll_list (s := withPrecision p s) hb hi es
  refine ⟨t, ?_, hbt, ht, precisionOf_getD ht.precIn⟩
  rw [List.append_assoc, performAll_append (performAll_loadPrecision hb p), hrun]

/-- The line of `SCALE`: `PREC_IN` where `.P` stands, `OPF`, then `CMD`. -/
theorem performAll_scale {s : State} (hb : s.busy = false) (p : Option F64) (x : F64) :
    performAll (lineActions (.scale p x)) s = exec (.scale p.isSome) { withPrecision p s with opf := x } := by
  refine (performAll_append (performAll_loadPrecision hb p)).trans ?_
  exact performAll_scalar rfl (perform_writeOpf (s := withPrecision p s) hb x) hb

/-- An i33 in `OPA` reads back unchanged (41 R130). -/
theorem toInt_setWidth_ofInt {v : Int} (hlow : -2 ^ 32 ≤ v) (hhigh : v < 2 ^ 32) : ((BitVec.ofInt 35 v).setWidth 33).toInt = v := by
  rw [BitVec.toInt_setWidth, BitVec.toNat_ofInt, Int.toNat_of_nonneg (Int.emod_nonneg v (by decide)), Int.bmod_def]
  omega

/-- A well-formed level keeps its value in the 32 bits of an element. -/
theorem map_toNat_ofNat {ls : List Nat} (h : (Line.encl ls).wellFormed = true) :
    (ls.map (BitVec.ofNat 32)).map BitVec.toNat = ls := by
  simp only [Line.wellFormed, List.all_eq_true, decide_eq_true_eq] at h
  rw [List.map_map]
  exact (List.map_congr_left fun l hl => Nat.mod_eq_of_lt (h l hl)).trans (List.map_id ls)

/-- Settles O56: each line by the writes it makes. -/
theorem linesIssueCommands : Obligations.LinesIssueCommands := by
  intro s hb
  refine ⟨fun u hu => ?_, fun v hv => ?_, fun u hu => ?_, fun p x => ?_, fun p ps => ?_, fun p bs => ?_, fun ls hls => ?_,
    fun bs => ?_, fun bs => ?_⟩
  · refine ⟨_, performAll_scalar rfl (perform_writeOpa hb _) hb, hb, ?_⟩
    exact Nat.mod_eq_of_lt (of_decide_eq_true hu)
  · refine ⟨_, performAll_scalar rfl (perform_writeOpa hb _) hb, hb, ?_⟩
    simp only [Line.wellFormed, Bool.and_eq_true, decide_eq_true_eq] at hv
    exact toInt_setWidth_ofInt hv.1 hv.2
  · refine ⟨_, performAll_scalar rfl (perform_writeOpa hb _) hb, hb, ?_⟩
    have hlt : u < 2 ^ 33 := of_decide_eq_true hu
    simp only [BitVec.toNat_setWidth, BitVec.toNat_ofNat]
    omega
  · exact ⟨_, performAll_scale hb p x, hb, rfl, precisionOf_getD rfl⟩
  · obtain ⟨t, hrun, hbt, ht, hp⟩ := performAll_precision_list (i := .encp p.isSome) hb rfl p (ps.map .point)
    exact ⟨t, hrun, hbt, ht.inputPoints_eq, hp⟩
  · obtain ⟨t, hrun, hbt, ht, hp⟩ := performAll_precision_list (i := .decp p.isSome) hb rfl p (bs.map .byte)
    exact ⟨t, hrun, hbt, ht.inputBytes_eq, hp⟩
  · obtain ⟨t, hrun, hbt, ht⟩ := performAll_list (i := .encl) hb rfl ((ls.map (BitVec.ofNat 32)).map .level)
    rw [List.map_map] at hrun
    exact ⟨t, hrun, hbt, by rw [ht.inputLevels_eq, map_toNat_ofNat hls]⟩
  · obtain ⟨t, hrun, hbt, ht⟩ := performAll_list (i := .decc) hb rfl (bs.map .byte)
    exact ⟨t, hrun, hbt, ht.inputBytes_eq⟩
  · obtain ⟨t, hrun, hbt, ht⟩ := performAll_list (i := .decl) hb rfl (bs.map .byte)
    exact ⟨t, hrun, hbt, ht.inputBytes_eq⟩

end Sys2Proof.Machine
end

section
/-! SUPPORT. A wire symbol executed alone (40 R113): what it adds, and where it does not complete. -/

namespace Sys2Proof.Machine

theorem exec_wireSymbol (c : Bool) (g : BitVec 5) (s : State) : exec (wireSymbol c g) s = acceptSymbol c g s := by
  cases c <;> rfl

/-! ## Each answer of a wire symbol -/

section answers

variable {s : State} (c : Bool) (g : BitVec 5)

theorem acceptSymbol_disabled (h : ¬ ChunkEnabled s) : acceptSymbol c g s = .refused .chunkStepNotEnabled := by
  rcases acceptSymbol_cases c g s with ⟨-, ha⟩ | ⟨he, -⟩ | ⟨he, -⟩ | ⟨he, -⟩
  · exact ha
  all_goals exact absurd he h

theorem acceptSymbol_exhausted (he : ChunkEnabled s) (hlen : s.len ≤ s.cursor) :
    acceptSymbol c g s = .next (raiseFault .truncatedChunk s.cursor s) := by
  rcases acceptSymbol_cases c g s with ⟨h, -⟩ | ⟨-, -, ha⟩ | ⟨-, h, -⟩ | ⟨-, h, -⟩
  · exact absurd he h
  · exact ha
  all_goals omega

theorem acceptSymbol_seventh (he : ChunkEnabled s) (hlt : s.cursor < s.len) (hg : s.gcnt = 6#3) :
    acceptSymbol c g s = .next (raiseFault .overflowChunk s.cursor s) := by
  rcases acceptSymbol_cases c g s with ⟨h, -⟩ | ⟨-, h, -⟩ | ⟨-, -, -, ha⟩ | ⟨-, -, h, -⟩
  · exact absurd he h
  · omega
  · exact ha
  · exact absurd hg h

theorem acceptSymbol_accepts (he : ChunkEnabled s) (hlt : s.cursor < s.len) (hg : s.gcnt ≠ 6#3) :
    acceptSymbol c g s = .next (accepted c g s) := by
  rcases acceptSymbol_cases c g s with ⟨h, -⟩ | ⟨-, h, -⟩ | ⟨-, -, h, -⟩ | ⟨-, -, -, ha⟩
  · exact absurd he h
  · omega
  · exact absurd h hg
  · exact ha

end answers

/-- Settles O16: a wire symbol is refused, exhausted or the seventh. -/
theorem wireSymbolsTrap : Obligations.WireSymbolsTrap := by
  intro s g i hi
  obtain ⟨c, rfl⟩ : ∃ c, i = wireSymbol c g := by
    rcases hi with rfl | rfl
    · exact ⟨false, rfl⟩
    · exact ⟨true, rfl⟩
  rw [exec_wireSymbol]
  exact ⟨fun he => ⟨acceptSymbol_exhausted c g he, acceptSymbol_seventh c g he⟩, acceptSymbol_disabled c g⟩

/-! ## The symbol accepted -/

/-- The accepted symbol in arithmetic: its group counts `2^(5 × GCNT)` times, without wrap (40 R113). -/
theorem accepted_eq {s : State} (c : Bool) (g : BitVec 5) (hg : s.gcnt.toNat < 6) (hshift : s.shift.toNat = 5 * s.gcnt.toNat)
    (hacc : s.acc.toNat < 2 ^ (5 * s.gcnt.toNat)) :
    accepted c g s = { s with
      acc := BitVec.ofNat 30 (s.acc.toNat + g.toNat * 2 ^ (5 * s.gcnt.toNat))
      shift := BitVec.ofNat 5 (5 * (s.gcnt.toNat + 1)), gcnt := BitVec.ofNat 3 (s.gcnt.toNat + 1)
      cursor := s.cursor + 1, cst := if c then s.cst else .done } := by
  have hor := toNat_or_group (g := g) (Nat.le_of_lt_succ hg) hacc
  have hacc' : s.acc ||| (g.setWidth 30 <<< s.shift.toNat) = BitVec.ofNat 30 (s.acc.toNat + g.toNat * 2 ^ (5 * s.gcnt.toNat)) := by
    rw [hshift, Nat.mul_comm g.toNat, ← hor, BitVec.ofNat_toNat, BitVec.setWidth_eq]
  have hshift' : s.shift + 5#5 = BitVec.ofNat 5 (5 * (s.gcnt.toNat + 1)) :=
    BitVec.eq_of_toNat_eq (by rw [BitVec.toNat_add, hshift]; rfl)
  have hgcnt' : s.gcnt + 1#3 = BitVec.ofNat 3 (s.gcnt.toNat + 1) := BitVec.eq_of_toNat_eq (BitVec.toNat_add ..)
  rw [accepted, hacc', hshift', hgcnt']

/-- A group above `k` groups gives a number of `k + 1` groups (30 R83). -/
theorem add_group_lt {a k : Nat} (g : BitVec 5) (ha : a < 2 ^ (5 * k)) : a + g.toNat * 2 ^ (5 * k) < 2 ^ (5 * (k + 1)) := by
  have hg : g.toNat + 1 ≤ 2 ^ 5 := g.isLt
  have hadd : a + g.toNat * 2 ^ (5 * k) < (g.toNat + 1) * 2 ^ (5 * k) := by
    rw [Nat.succ_mul g.toNat, Nat.add_comm]
    exact Nat.add_lt_add_left ha _
  calc a + g.toNat * 2 ^ (5 * k) < (g.toNat + 1) * 2 ^ (5 * k) := hadd
    _ ≤ 2 ^ 5 * 2 ^ (5 * k) := Nat.mul_le_mul_right _ hg
    _ = 2 ^ (5 * (k + 1)) := by rw [← Nat.pow_add]; congr 1; omega

/-- Settles O15: both symbols are accepted, and the group is added in arithmetic. -/
theorem wireSymbolsAccumulate : Obligations.WireSymbolsAccumulate := by
  intro s g hb hop hc hlt hg hshift hacc
  have haccepts : ∀ c, exec (wireSymbol c g) s = .next (accepted c g s) := fun c =>
    (exec_wireSymbol c g s).trans (acceptSymbol_accepts c g ⟨hb, hop, hc⟩ hlt (gcnt_ne_six (Nat.le_of_lt_succ hg)))
  refine ⟨add_group_lt g hacc, (haccepts false).trans ?_, (haccepts true).trans ?_⟩
  · exact congrArg _ (accepted_eq false g hg hshift hacc)
  · rw [accepted_eq true g hg hshift hacc, if_pos rfl, hc]

end Sys2Proof.Machine
end

section
/-! SUPPORT. The chunk sequence of a value (40 R111): its closed form, byte by byte and as one recursion over the groups, and what it says. -/

namespace Sys2Proof.Machine

/-! ## Its length -/

theorem chunkLength_eq (u : Nat) : chunkLength u = Nat.log 32 u + 1 := by
  rcases Nat.eq_zero_or_pos u with rfl | hu
  · rfl
  · have hlog : Nat.log 32 u = Nat.log 2 u / 5 := Nat.log_pow_left 2 5 u
    rw [chunkLength, bitLength, if_neg hu.ne', Nat.log2_eq_log_two, hlog]
    omega

theorem chunkLength_of_lt {u : Nat} (h : u < 32) : chunkLength u = 1 := by
  rw [chunkLength_eq, Nat.log_of_lt h]

theorem chunkLength_of_ge {u : Nat} (h : 32 ≤ u) : chunkLength u = chunkLength (u / 32) + 1 := by
  rw [chunkLength_eq, chunkLength_eq, Nat.log_of_one_lt_of_le (by decide) h]

theorem chunkLength_le_iff {u n : Nat} (hn : n ≠ 0) : chunkLength u ≤ n ↔ u < 32 ^ n := by
  rw [chunkLength_eq, Nat.succ_le_iff]
  exact ⟨Nat.lt_pow_of_log_lt (by decide), Nat.log_lt_of_lt_pow' hn⟩

theorem chunkBytes_length (u : Nat) : (chunkBytes u).length = chunkLength u := by
  rw [chunkBytes, List.length_map, List.length_range]

/-! ## Its bytes -/

theorem getElem_chunkBytes {u j : Nat} (h : j < (chunkBytes u).length) : (chunkBytes u)[j] = chunkByteAt u j := by
  simp [chunkBytes]

theorem toNat_chunkByteAt (u j : Nat) :
    (chunkByteAt u j).toNat = 63 + (u >>> (5 * j)) % 32 + if j + 1 < chunkLength u then 32 else 0 := by
  rw [chunkByteAt, BitVec.toNat_ofNat]
  refine Nat.mod_eq_of_lt ?_
  split <;> omega

theorem chunkByteAt_succ {u : Nat} (h : 32 ≤ u) (j : Nat) : chunkByteAt u (j + 1) = chunkByteAt (u / 32) j := by
  have hshift : u >>> (5 * (j + 1)) = (u / 32) >>> (5 * j) := by
    rw [Nat.mul_add, Nat.add_comm, Nat.shiftRight_add, Nat.shiftRight_eq_div_pow u]
  simp only [chunkByteAt, hshift, chunkLength_of_ge h, Nat.add_lt_add_iff_right]

theorem chunkByteAt_zero (u : Nat) : chunkByteAt u 0 = wireByte (decide (32 ≤ u)) (BitVec.ofNat 5 u) := by
  apply BitVec.eq_of_toNat_eq
  rw [toNat_chunkByteAt, toNat_wireByte, BitVec.toNat_ofNat]
  by_cases h : 32 ≤ u
  · have hpos : 0 < Nat.log 32 u := Nat.log_pos (by decide) h
    have hlong : 0 + 1 < chunkLength u := by rw [chunkLength_eq]; omega
    simp only [h, hlong, decide_true, Bool.toNat_true, if_true]
    omega
  · have hshort : ¬ 0 + 1 < chunkLength u := by rw [chunkLength_of_lt (by omega)]; decide
    simp only [h, hshort, decide_false, Bool.toNat_false, if_false]
    omega

/-- A value of one group is its terminator. -/
theorem chunkBytes_of_lt {u : Nat} (h : u < 32) : chunkBytes u = [wireByte false (BitVec.ofNat 5 u)] := by
  rw [chunkBytes, chunkLength_of_lt h, List.range_one, List.map_singleton, chunkByteAt_zero, decide_eq_false h.not_ge]

/-- A longer value is its low group in a continuation byte, and then the rest of it. -/
theorem chunkBytes_of_ge {u : Nat} (h : 32 ≤ u) : chunkBytes u = wireByte true (BitVec.ofNat 5 u) :: chunkBytes (u / 32) := by
  rw [chunkBytes, chunkLength_of_ge h, List.range_succ_eq_map, List.map_cons, List.map_map, chunkByteAt_zero, decide_eq_true h]
  exact congrArg _ (List.map_congr_left fun j _ => chunkByteAt_succ h j)

/-! ## The passes emit it -/

theorem toNat_ushiftRight_five (v : BitVec 35) : (v >>> 5).toNat = v.toNat / 32 := by
  rw [BitVec.toNat_ushiftRight, Nat.shiftRight_eq_div_pow]

theorem ushiftRight_five_eq_zero_iff (v : BitVec 35) : v >>> 5 = 0#35 ↔ v.toNat < 32 := by
  rw [← BitVec.toNat_inj, toNat_ushiftRight_five]
  exact Nat.div_eq_zero_iff_lt (by decide)

theorem passByte_eq (v : BitVec 35) : passByte v = wireByte (decide (32 ≤ v.toNat)) (BitVec.ofNat 5 v.toNat) := by
  have hmore : v >>> 5 ≠ 0#35 ↔ 32 ≤ v.toNat := (not_congr (ushiftRight_five_eq_zero_iff v)).trans not_lt
  rw [passByte, decide_eq_decide.mpr hmore]
  rfl

/-- Enough passes emit the chunk sequence of `V` (40 R110, R111). -/
theorem loopBytes_eq {n : Nat} {v : BitVec 35} (h : passesLeft v ≤ n) : loopBytes n v = chunkBytes v.toNat := by
  induction n generalizing v with
  | zero => exact absurd h (Nat.not_succ_le_zero _)
  | succ n ih =>
    rw [loopBytes, passByte_eq]
    rcases Nat.lt_or_ge v.toNat 32 with hlt | hge
    · rw [if_pos ((ushiftRight_five_eq_zero_iff v).mpr hlt), chunkBytes_of_lt hlt, decide_eq_false hlt.not_ge]
    · have hne : v >>> 5 ≠ 0#35 := fun h0 => ((ushiftRight_five_eq_zero_iff v).mp h0).not_ge hge
      have hleft : passesLeft (v >>> 5) ≤ n := Nat.le_of_lt_succ ((passesLeft_shift hne).trans_le h)
      rw [if_neg hne, ih hleft, toNat_ushiftRight_five, chunkBytes_of_ge hge, decide_eq_true hge]

theorem valueBytes_eq (u : BitVec 35) : valueBytes u = chunkBytes u.toNat := loopBytes_eq (passesLeft_le u)

/-! ## What it says -/

theorem groupsValue_wireByte_cons (c : Bool) (g : BitVec 5) (bs : List Byte) :
    groupsValue (wireByte c g :: bs) = g.toNat + 32 * groupsValue bs := by
  have hb := toNat_wireByte c g
  have hg := g.isLt
  rw [groupsValue, hb]
  omega

/-- The groups of a value's chunk sequence make the value (30 R83, 40 R111 e). -/
theorem groupsValue_chunkBytes (u : Nat) : groupsValue (chunkBytes u) = u := by
  induction u using Nat.strongRecOn with
  | ind u ih =>
    rcases Nat.lt_or_ge u 32 with hlt | hge
    · rw [chunkBytes_of_lt hlt, groupsValue_wireByte_cons]
      exact Nat.mod_eq_of_lt hlt
    · rw [chunkBytes_of_ge hge, groupsValue_wireByte_cons, ih (u / 32) (by omega)]
      exact Nat.mod_add_div u 32

/-- Every byte of a value but the last is a continuation byte. -/
theorem isContinuation_chunkByteAt {u j : Nat} (h : j + 1 < chunkLength u) : isContinuation (chunkByteAt u j) = true := by
  rw [isContinuation_iff, toNat_chunkByteAt, if_pos h]
  omega

theorem isTerminator_chunkByteAt {u j : Nat} (h : chunkLength u ≤ j + 1) : isTerminator (chunkByteAt u j) = true := by
  rw [isTerminator_iff, toNat_chunkByteAt, if_neg h.not_gt]
  omega

/-- The group at the place of a value's leading bit is not 0. -/
theorem shiftRight_log_ne_zero {u : Nat} (h : u ≠ 0) : (u >>> (5 * Nat.log 32 u)) % 32 ≠ 0 := by
  have hpow : (2 : Nat) ^ (5 * Nat.log 32 u) = 32 ^ Nat.log 32 u := Nat.pow_mul 2 5 _
  have hlow : 0 < u / 32 ^ Nat.log 32 u := Nat.div_pos (Nat.pow_log_le_self 32 h) (Nat.pow_pos (by decide))
  have hhigh : u / 32 ^ Nat.log 32 u < 32 := Nat.div_lt_of_lt_mul (Nat.lt_pow_succ_log_self (b := 32) (by decide) u)
  rw [Nat.shiftRight_eq_div_pow, hpow, Nat.mod_eq_of_lt hhigh]
  exact hlow.ne'

theorem chunkBytes_eq_concat (u : Nat) :
    chunkBytes u = (List.range (Nat.log 32 u)).map (chunkByteAt u) ++ [chunkByteAt u (Nat.log 32 u)] := by
  rw [chunkBytes, chunkLength_eq, List.range_succ, List.map_append, List.map_singleton]

theorem getLast?_chunkBytes (u : Nat) : (chunkBytes u).getLast? = some (chunkByteAt u (Nat.log 32 u)) := by
  rw [chunkBytes_eq_concat, List.getLast?_concat]

theorem isContinuation_of_mem_dropLast {u : Nat} : ∀ c ∈ (chunkBytes u).dropLast, isContinuation c = true := by
  rw [chunkBytes_eq_concat, List.dropLast_concat]
  intro c hc
  obtain ⟨j, hj, rfl⟩ := List.mem_map.mp hc
  exact isContinuation_chunkByteAt (by rw [chunkLength_eq]; exact Nat.succ_lt_succ (List.mem_range.mp hj))

theorem isTerminator_last (u : Nat) : isTerminator (chunkByteAt u (Nat.log 32 u)) = true :=
  isTerminator_chunkByteAt (chunkLength_eq u).le

/-- The last byte of a value that is not 0 has a group that is not 0 (40 R111 d). -/
theorem group_last_ne_zero {u : Nat} (h : u ≠ 0) : ((chunkByteAt u (Nat.log 32 u)).toNat - 63) % 32 ≠ 0 := by
  have hlast : ¬ Nat.log 32 u + 1 < chunkLength u := (chunkLength_eq u).not_gt
  have hgroup := shiftRight_log_ne_zero h
  rw [toNat_chunkByteAt, if_neg hlast]
  omega

/-- A value's chunk sequence is continuation bytes and one terminator (40 R111 e). -/
theorem chunkBytes_split (u : Nat) :
    ∃ cs b, chunkBytes u = cs ++ [b] ∧ (∀ c ∈ cs, isContinuation c = true) ∧ isTerminator b = true ∧ cs.length + 1 = chunkLength u := by
  refine ⟨(chunkBytes u).dropLast, _, ?_, isContinuation_of_mem_dropLast, isTerminator_last u, ?_⟩
  · rw [chunkBytes_eq_concat, List.dropLast_concat]
  · rw [← chunkBytes_length, chunkBytes_eq_concat, List.dropLast_concat, List.length_append, List.length_singleton]

theorem alphabet_of_mem_chunkBytes {u : Nat} {b : Byte} (h : b ∈ chunkBytes u) : 63 ≤ b.toNat ∧ b.toNat ≤ 126 := by
  obtain ⟨j, -, rfl⟩ := List.mem_map.mp h
  rw [toNat_chunkByteAt]
  split <;> omega

theorem isContinuation_eq_false_of_isTerminator {b : Byte} (h : isTerminator b = true) : isContinuation b = false := by
  obtain ⟨-, hhigh⟩ := isTerminator_iff.mp h
  exact Bool.eq_false_iff.mpr fun hc => absurd (isContinuation_iff.mp hc).1 (by omega)

/-- No chunk sequence of a value begins another (40 R111 f): its terminator would be a continuation byte there. -/
theorem eq_of_chunkBytes_prefix {u w : Nat} (h : chunkBytes u <+: chunkBytes w) : u = w := by
  obtain ⟨cs, b, hu, -, hb, -⟩ := chunkBytes_split u
  obtain ⟨ds, d, hw, hds, -⟩ := chunkBytes_split w
  rw [hu, hw, List.prefix_concat_iff] at h
  rcases h with heq | hpre
  · rw [← groupsValue_chunkBytes u, ← groupsValue_chunkBytes w, hu, hw, heq]
  · have hmem : b ∈ ds := hpre.subset List.mem_concat_self
    exact absurd (hds b hmem) (by rw [isContinuation_eq_false_of_isTerminator hb]; decide)

end Sys2Proof.Machine
end

section
/-! SUPPORT. A command that reaches an idle block by micro-steps, however many, has that block as its outcome; and the passes of `EncodeValue` as
such micro-steps. -/

namespace Sys2Proof.Machine

/-! ## Micro-steps one after another -/

/-- `t` comes after `s` by micro-steps of the running command, however many. -/
abbrev Reaches : State → State → Prop := Relation.ReflTransGen fun s t => s.busy = true ∧ blockStep s = .next t

theorem Reaches.step {s t : State} (hb : s.busy = true) (h : blockStep s = .next t) : Reaches s t := .single ⟨hb, h⟩

/-- A run with room for the micro-steps that are left ends where they lead. -/
theorem Reaches.runSteps_eq {s t : State} (h : Reaches s t) (ht : t.busy = false) {n : Nat} (hn : s.busy = true → stepsLeft s ≤ n) :
    runSteps blockStep n s = .next t := by
  induction h using Relation.ReflTransGen.head_induction_on generalizing n with
  | refl => exact runSteps_idle _ _ ht
  | head hstep _ ih =>
    obtain ⟨hb, hs⟩ := hstep
    obtain ⟨m, hm, rfl⟩ := blockStep_next hs
    obtain ⟨k, rfl⟩ : ∃ k, n = k + 1 := Nat.exists_eq_add_one.mpr ((stepsLeft_pos _).trans_le (hn hb))
    rw [runSteps_succ hb hm]
    refine ih fun hbm => ?_
    have hless := MicroOp.stepsLeft_perform (microOp_enabled hm) hbm
    have hroom := hn hb
    omega

/-- A command that may start ends where its micro-steps lead from command start. -/
theorem exec_of_reaches {i : Instr} (hi : i.code = .command) {s t : State} (hs : startable i s = none)
    (h : Reaches (commandStart i s) t) (ht : t.busy = false) : exec i s = .next t := by
  rw [exec_eq_runCommand hi, runCommand, hs]
  exact h.runSteps_eq ht fun _ => stepsLeft_commandStart hi s

/-- A command that takes no precision may start at any idle block. -/
theorem startable_of_idle {i : Instr} (hp : i.psel = false) {s : State} (hb : s.busy = false) : startable i s = none :=
  (startable_none_iff i s).mpr ⟨hb, by rw [hp]; exact precisionOk_default⟩

/-! ## The passes -/

/-- In the loop of `EncodeValue` every encode command's micro-step is a pass. -/
theorem blockStep_pass {s : State} (hop : EncodeOp s.op) (he : s.est = .passing) :
    blockStep s = .next (encodePass s) := by
  have hm : microOp s = .ok .pass := by
    rcases hop with h | h | h
    · rw [microOp_encu h, encuOp, he]
    · rw [microOp_encp h, encpOp, he]
    · rw [microOp_encl h, enclOp, he]
  rw [blockStep_eq, hm]
  rfl

theorem reaches_encodePasses (n : Nat) {s : State} (hb : s.busy = true) (hop : EncodeOp s.op) :
    Reaches s (encodePasses n s) := by
  induction n generalizing s with
  | zero => exact .refl
  | succ n ih =>
    rw [encodePasses]
    split
    · next he => exact .head ⟨hb, blockStep_pass hop he⟩ (ih hb hop)
    · exact .refl

/-- From its load on, an encode command gets through `EncodeValue` (40 R110). -/
theorem reaches_encodeValue {u : BitVec 35} {s : State} (hb : s.busy = true) (hop : EncodeOp s.op) :
    Reaches (encodeStart u s) (encodeValue u s) :=
  reaches_encodePasses _ hb hop

theorem encodeValue_eq_chunkBytes (u : BitVec 35) (s : State) :
    encodeValue u s = { s with
      v := 0#35, out := spaceAppend s.out s.ocnt (chunkBytes u.toNat), ocnt := s.ocnt + chunkLength u.toNat, est := .done } := by
  rw [encodeValue_eq, valueBytes_eq, chunkBytes_length]

theorem spaceRead_spaceAppend_chunkBytes (m : Space) (i u k : Nat) :
    spaceRead (spaceAppend m i (chunkBytes u)) k =
      if i ≤ k ∧ k < i + chunkLength u then some (.byte (chunkByteAt u (k - i))) else spaceRead m k := by
  rw [spaceRead_spaceAppend]
  simp only [getElem_chunkBytes, chunkBytes_length, dite_eq_ite]

theorem passByte_eq_ofNat (v : BitVec 35) :
    passByte v = BitVec.ofNat 8 (63 + v.toNat % 32 + if v >>> 5 = 0#35 then 0 else 32) := by
  apply BitVec.eq_of_toNat_eq
  rw [passByte, toNat_wireByte, BitVec.extractLsb'_toNat, BitVec.toNat_ofNat]
  by_cases h : v >>> 5 = 0#35
  · simp only [h, ne_eq, not_true, decide_false, Bool.toNat_false, if_true]; omega
  · simp only [h, ne_eq, not_false_eq_true, decide_true, Bool.toNat_true, if_false]; omega

/-- Settles O13: a pass writes its byte at `OCNT`, and enough passes write the value's chunk sequence from there on. -/
theorem encodeValueByPasses : Obligations.EncodeValueByPasses := by
  refine ⟨fun s _ hop he => ⟨spaceWrite s.out s.ocnt (.byte (passByte s.v)), blockStep_pass hop he, fun k => ?_⟩,
    fun u s => ⟨spaceAppend s.out s.ocnt (chunkBytes u.toNat), encodeValue_eq_chunkBytes u s,
      spaceRead_spaceAppend_chunkBytes s.out s.ocnt u.toNat⟩⟩
  rw [spaceRead_spaceWrite, passByte_eq_ofNat]

/-! ## `ENCU` -/

/-- The block at the end of an `ENCU` (40 R110). -/
def encuEnd (s : State) : State := finishOk 0#35 0#3 (encodeValue s.opa (commandStart .encu s))

/-- `ENCU` loads its operand, makes the passes and ends (40 R110). -/
theorem exec_encu {s : State} (hb : s.busy = false) : exec .encu s = .next (encuEnd s) := by
  have hload : blockStep (commandStart .encu s) = .next (encodeStart s.opa (commandStart .encu s)) := rfl
  have hlast : blockStep (encodeValue s.opa (commandStart .encu s)) = .next (encuEnd s) := by
    rw [encuEnd, encodeValue_eq]
    rfl
  have hbusy : (encodeValue s.opa (commandStart .encu s)).busy = true := by rw [encodeValue_eq]; rfl
  refine exec_of_reaches rfl (startable_of_idle rfl hb) ?_ rfl
  exact .head ⟨rfl, hload⟩ (.tail (reaches_encodeValue rfl (.inl rfl)) ⟨hbusy, hlast⟩)

theorem encuEnd_ocnt (s : State) : (encuEnd s).ocnt = chunkLength s.opa.toNat := by
  rw [encuEnd, encodeValue_eq_chunkBytes]
  exact Nat.zero_add _

theorem encuEnd_out (s : State) : (encuEnd s).out = spaceAppend s.out 0 (chunkBytes s.opa.toNat) := by
  rw [encuEnd, encodeValue_eq_chunkBytes]
  rfl

theorem encuEnd_endedOk (s : State) : EndedOk (encuEnd s) 0#35 0 (chunkLength s.opa.toNat) :=
  ⟨rfl, rfl, rfl, rfl, rfl, encuEnd_ocnt s⟩

/-- Settles O12: the command ends with the operand's chunk sequence in OUT. -/
theorem encuEncodesValue : Obligations.EncuEncodesValue := by
  refine fun s hb => ⟨encuEnd s, exec_encu hb, encuEnd_endedOk s, fun j hj => ?_⟩
  rw [encuEnd_out, spaceRead_spaceAppend_chunkBytes, if_pos ⟨Nat.zero_le j, (Nat.zero_add _).symm ▸ hj⟩, Nat.sub_zero]

/-! ## The bytes the host reads -/

/-- The bytes in OUT below `OCNT` are the ones written there. -/
theorem outBytes_eq {s : State} {bs : List Byte} {m : Space} (hout : s.out = spaceAppend m 0 bs) (hocnt : s.ocnt = bs.length) :
    outBytes s = bs := by
  have helems : outElements s = bs.map fun b => some (.byte b) := by
    rw [outElements, hout, hocnt]
    refine List.ext_getElem (by simp) fun k hk _ => ?_
    have hlt : k < bs.length := by simpa using hk
    simp [spaceRead_spaceAppend, hlt]
  rw [outBytes, helems, List.filterMap_map]
  exact List.filterMap_some

theorem exec_encu_next {s t : State} (h : exec .encu s = .next t) : t.ocnt = chunkLength s.opa.toNat ∧ outBytes t = chunkBytes s.opa.toNat := by
  obtain ⟨hb, -⟩ := exec_next rfl h
  obtain rfl : t = encuEnd s := by
    rw [exec_encu hb] at h
    exact (Host.Outcome.next.inj h).symm
  refine ⟨encuEnd_ocnt s, outBytes_eq (encuEnd_out s) ?_⟩
  rw [encuEnd_ocnt, chunkBytes_length]

/-- Settles O14: what is emitted is the operand's chunk sequence, and each property is one of its lemmas. -/
theorem encuOutputIsCanonical : Obligations.EncuOutputIsCanonical := by
  refine ⟨fun s t h => ?_, fun s t s' t' h h' hpre => ?_⟩
  · obtain ⟨-, hout⟩ := exec_encu_next h
    rw [hout, getLast?_chunkBytes]
    refine ⟨chunkBytes_length _, fun j hj => ?_, fun b => alphabet_of_mem_chunkBytes, fun hpos b hb => ?_,
      isContinuation_of_mem_dropLast, fun b hb => ?_, groupsValue_chunkBytes _⟩
    · rw [getElem_chunkBytes hj, toNat_chunkByteAt, chunkBytes_length]
    · cases hb; exact group_last_ne_zero hpos.ne'
    · cases hb; exact isTerminator_last _
  · obtain ⟨-, hout⟩ := exec_encu_next h
    obtain ⟨-, hout'⟩ := exec_encu_next h'
    rw [hout, hout'] at hpre
    exact BitVec.eq_of_toNat_eq (eq_of_chunkBytes_prefix hpre)

end Sys2Proof.Machine
end

section
/-! SUPPORT. Decoding one value (40 R113, R114): the rows of the closed form, the chunk machine that meets each of them, and `DECC`. -/

namespace Sys2Proof.Machine

/-! ## The rows of the closed form -/

section rows

variable {cs rest : List Byte} {b : Byte} (hcs : ∀ c ∈ cs, isContinuation c = true)

include hcs

/-- Where the byte after the continuation bytes is none, they are all that lead. -/
theorem takeWhile_up_to (hb : isContinuation b = false) : (cs ++ b :: rest).takeWhile isContinuation = cs := by
  rw [List.takeWhile_append_of_pos hcs, List.takeWhile_cons, hb]
  exact List.append_nil cs

/-- 40 R114: the bytes end before a terminator. -/
theorem decodeOne_exhausted (hlen : cs.length ≤ 6) : decodeOne cs = .error (.truncatedChunk, cs.length) := by
  have hlead : cs.takeWhile isContinuation = cs := List.takeWhile_eq_self_iff.mpr hcs
  rw [decodeOne, hlead]
  rcases Nat.lt_or_eq_of_le hlen with hlt | heq
  · rw [if_neg (by omega)]
    simp
  · simp [heq]

/-- 40 R114: six continuation bytes, and another byte, whatever it is. -/
theorem decodeOne_seventh (hlen : cs.length = 6) : decodeOne (cs ++ b :: rest) = .error (.overflowChunk, 6) := by
  have hsix : 6 ≤ (cs ++ (b :: rest).takeWhile isContinuation).length := by simp [hlen]
  have hmore : (cs ++ b :: rest).length ≠ 6 := by simp [hlen]
  rw [decodeOne, List.takeWhile_append_of_pos hcs, if_pos hsix, if_neg hmore]

/-- 40 R114: the byte after the continuation bytes is outside the alphabet. -/
theorem decodeOne_outside (hlen : cs.length ≤ 5) (hc : isContinuation b = false) (ht : isTerminator b = false) :
    decodeOne (cs ++ b :: rest) = .error (.invalidByte, cs.length) := by
  rw [decodeOne, takeWhile_up_to hcs hc, if_neg (by omega)]
  simp [ht]

/-- 40 R114: a chunk sequence. -/
theorem decodeOne_sequence (hlen : cs.length ≤ 5) (hb : isTerminator b = true) :
    decodeOne (cs ++ b :: rest) = .ok (groupsValue (cs ++ [b]), cs.length + 1) := by
  rw [decodeOne, takeWhile_up_to hcs (isContinuation_eq_false_of_isTerminator hb), if_neg (by omega)]
  simp [hb, List.take_append, List.take_of_length_le]

end rows

/-- The rows of 40 R114 with room for `n` groups, told apart by what follows the leading continuation bytes. -/
inductive Row (n : Nat) : List Byte → Prop
  | exhausted (cs : List Byte) (hcs : ∀ c ∈ cs, isContinuation c = true) (hlen : cs.length ≤ n) : Row n cs
  | full (cs rest : List Byte) (b : Byte) (hcs : ∀ c ∈ cs, isContinuation c = true) (hlen : cs.length = n) : Row n (cs ++ b :: rest)
  | outside (cs rest : List Byte) (b : Byte) (hcs : ∀ c ∈ cs, isContinuation c = true) (hlen : cs.length < n)
      (hc : isContinuation b = false) (ht : isTerminator b = false) : Row n (cs ++ b :: rest)
  | sequence (cs rest : List Byte) (b : Byte) (hcs : ∀ c ∈ cs, isContinuation c = true) (hlen : cs.length < n)
      (hb : isTerminator b = true) : Row n (cs ++ b :: rest)

theorem Row.cons {n : Nat} {bs : List Byte} {c : Byte} (hc : isContinuation c = true) (h : Row n bs) : Row (n + 1) (c :: bs) := by
  cases h with
  | exhausted _ hcs hlen => exact .exhausted (c :: bs) (List.forall_mem_cons.mpr ⟨hc, hcs⟩) (Nat.succ_le_succ hlen)
  | full cs rest b hcs hlen => exact .full (c :: cs) rest b (List.forall_mem_cons.mpr ⟨hc, hcs⟩) (congrArg (· + 1) hlen)
  | outside cs rest b hcs hlen hb ht =>
    exact .outside (c :: cs) rest b (List.forall_mem_cons.mpr ⟨hc, hcs⟩) (Nat.succ_lt_succ hlen) hb ht
  | sequence cs rest b hcs hlen hb => exact .sequence (c :: cs) rest b (List.forall_mem_cons.mpr ⟨hc, hcs⟩) (Nat.succ_lt_succ hlen) hb

/-- Every string of bytes is in a row. -/
theorem row (n : Nat) (bs : List Byte) : Row n bs := by
  induction bs generalizing n with
  | nil => exact .exhausted [] (List.forall_mem_nil _) (Nat.zero_le n)
  | cons b bs ih =>
    cases n with
    | zero => exact .full [] bs b (List.forall_mem_nil _) rfl
    | succ n =>
      cases hc : isContinuation b with
      | true => exact (ih n).cons hc
      | false =>
        cases ht : isTerminator b with
        | true => exact .sequence [] bs b (List.forall_mem_nil _) n.succ_pos ht
        | false => exact .outside [] bs b (List.forall_mem_nil _) n.succ_pos hc ht

/-! ## The chunk machine on bytes of the alphabet -/

/-- `s` after the chunk machine took the groups of the bytes `bs` from `CURSOR` on (40 R113). -/
def afterBytes (bs : List Byte) (c : ChunkState) (s : State) : State :=
  { s with acc := BitVec.ofNat 30 (groupsValue bs), shift := BitVec.ofNat 5 (5 * bs.length), gcnt := BitVec.ofNat 3 bs.length,
           cst := c, cursor := s.cursor + bs.length }

theorem groupsValue_lt (bs : List Byte) : groupsValue bs < 2 ^ (5 * bs.length) := by
  induction bs with
  | nil => exact one_pos
  | cons b bs ih =>
    rw [groupsValue, List.length_cons, Nat.mul_succ, Nat.pow_add]
    omega

theorem bytesFromCursor_afterBytes {bs rest : List Byte} {s : State} (h : bytesFromCursor s = bs ++ rest) (c : ChunkState) :
    bytesFromCursor (afterBytes bs c s) = rest := by
  have hrange : ∀ t : State, bytesFromCursor t = (List.range' t.cursor (t.len - t.cursor)).map (byteAt t) := fun t => by
    rw [bytesFromCursor, List.range'_eq_map_range, List.map_map]
    rfl
  calc bytesFromCursor (afterBytes bs c s)
    _ = (bytesFromCursor s).drop bs.length := by
      rw [hrange, hrange, ← List.map_drop, List.drop_range', Nat.mul_one, Nat.sub_sub]
      rfl
    _ = rest := by rw [h, List.drop_left]

/-- A byte of the alphabet joins the bytes taken, while there is room for its group (40 R113). -/
theorem accepted_afterBytes {bs : List Byte} {b : Byte} (hlen : bs.length ≤ 5) (hb : b.toNat ≤ 126) (s : State) :
    accepted (symbolFlag b) (symbolGroup b) (afterBytes bs .accumulate s) =
      afterBytes (bs ++ [b]) (if symbolFlag b then .accumulate else .done) s := by
  have hroom : groupsValue bs < 2 ^ 30 := (groupsValue_lt bs).trans_le (Nat.pow_le_pow_right (by decide) (by omega))
  have hacc : (afterBytes bs .accumulate s).acc.toNat = groupsValue bs := Nat.mod_eq_of_lt hroom
  have hgcnt : (afterBytes bs .accumulate s).gcnt.toNat = bs.length := Nat.mod_eq_of_lt (by omega)
  have hshift : (afterBytes bs .accumulate s).shift.toNat = 5 * bs.length := Nat.mod_eq_of_lt (by omega)
  have hvalue : groupsValue (bs ++ [b]) = groupsValue bs + (symbolGroup b).toNat * 2 ^ (5 * bs.length) := by
    rw [groupsValue_append, groupsValue_cons hb, Nat.pow_mul, groupsValue]
    ring
  rw [accepted_eq _ _ (by omega) (by rw [hshift, hgcnt]) (by rw [hacc, hgcnt]; exact groupsValue_lt bs), hacc, hgcnt, ← hvalue]
  simp only [afterBytes, List.length_append, List.length_singleton, Nat.add_assoc]

end Sys2Proof.Machine
end

section
/-! SUPPORT. `DecodeValue` (40 R113, R114) run over the rows of its closed form, and `DECC` (40 R116) as that run. -/

namespace Sys2Proof.Machine

/-! ## One ChunkStep, by the bytes that are left -/

theorem chunkStep_exhausted {s : State} (h : bytesFromCursor s = []) : chunkStep s = .next (raiseFault .truncatedChunk s.cursor s) := by
  have hlen : s.len ≤ s.cursor := not_lt.mp fun hlt => by rw [bytesFromCursor_of_lt hlt] at h; cases h
  rw [chunkStep, if_pos hlen]

section byteLeft

variable {s : State} {b : Byte} {rest : List Byte} (h : bytesFromCursor s = b :: rest)

include h

theorem chunkStep_seventh (hg : s.gcnt = 6#3) : chunkStep s = .next (raiseFault .overflowChunk s.cursor s) := by
  obtain ⟨hlt, -, -⟩ := bytesFromCursor_eq_cons h
  rw [chunkStep, if_neg hlt.not_ge, if_pos hg]

theorem chunkStep_outside (hg : s.gcnt ≠ 6#3) (hb : b.toNat < 63 ∨ 126 < b.toNat) :
    chunkStep s = .next (raiseFault .invalidByte s.cursor s) := by
  obtain ⟨hlt, rfl, -⟩ := bytesFromCursor_eq_cons h
  have hd : decodeSymbol (byteAt s s.cursor) = .error .outsideAlphabet := if_pos hb
  rw [chunkStep, if_neg hlt.not_ge, if_neg hg, readByte_of_lt hlt]
  simp only [hd]

theorem chunkStep_accepts (he : ChunkEnabled s) (hg : s.gcnt ≠ 6#3) (hlow : 63 ≤ b.toNat) (hhigh : b.toNat ≤ 126) :
    chunkStep s = .next (accepted (symbolFlag b) (symbolGroup b) s) := by
  obtain ⟨hlt, -, -⟩ := bytesFromCursor_eq_cons h
  rw [← blockStep_accumulating he.2.1 he.2.2 hlt]
  exact blockStep_accepts he hg h hlow hhigh

end byteLeft

/-! ## ChunkSteps one after another -/

theorem chunkSteps_next {s t : State} (he : ChunkEnabled s) (h : chunkStep s = .next t) (n : Nat) :
    chunkSteps (n + 1) s = chunkSteps n t := by
  simp [chunkSteps, he.1, he.2.2, h]

theorem chunkSteps_stop {s : State} (h : s.busy = false ∨ s.cst = .done) (n : Nat) : chunkSteps n s = .next s := by
  cases n with
  | zero => rfl
  | succ n => rcases h with h | h <;> simp [chunkSteps, h]

theorem chunkSteps_of_not_enabled {s : State} (hop : isDecodeOp s.op = true) (h : ¬ ChunkEnabled s) (n : Nat) :
    chunkSteps n s = .next s := by
  refine chunkSteps_stop ?_ n
  cases hb : s.busy with
  | false => exact .inl rfl
  | true =>
    cases hc : s.cst with
    | accumulate => exact absurd ⟨hb, hop, hc⟩ h
    | done => exact .inr rfl

/-- The last ChunkStep of a value. -/
theorem chunkSteps_last {s t : State} (he : ChunkEnabled s) (h : chunkStep s = .next t) (ht : t.busy = false ∨ t.cst = .done) (n : Nat) :
    chunkSteps (n + 1) s = .next t :=
  (chunkSteps_next he h n).trans (chunkSteps_stop ht n)

theorem afterBytes_gcnt_ne_six {bs : List Byte} (h : bs.length ≤ 5) (c : ChunkState) (s : State) : (afterBytes bs c s).gcnt ≠ 6#3 :=
  gcnt_ne_six ((Nat.mod_le _ _).trans h)

/-- Between two symbols of a value the chunk machine is enabled. -/
theorem afterBytes_enabled {s : State} (hb : s.busy = true) (hop : isDecodeOp s.op = true) (bs : List Byte) :
    ChunkEnabled (afterBytes bs .accumulate s) := ⟨hb, hop, rfl⟩

/-- The next byte of the alphabet joins the bytes taken. -/
theorem chunkStep_afterBytes {s : State} {bs rest : List Byte} {b : Byte} (hb : s.busy = true) (hop : isDecodeOp s.op = true)
    (hbytes : bytesFromCursor s = bs ++ b :: rest) (hlen : bs.length ≤ 5) (hlow : 63 ≤ b.toNat) (hhigh : b.toNat ≤ 126) :
    chunkStep (afterBytes bs .accumulate s) = .next (afterBytes (bs ++ [b]) (if symbolFlag b then .accumulate else .done) s) := by
  rw [chunkStep_accepts (bytesFromCursor_afterBytes hbytes _) (afterBytes_enabled hb hop bs) (afterBytes_gcnt_ne_six hlen _ s) hlow hhigh,
    accepted_afterBytes hlen hhigh]

section value

variable {s : State} {cs rest : List Byte} (hb : s.busy = true) (hop : isDecodeOp s.op = true)
  (hcs : ∀ c ∈ cs, isContinuation c = true) (hbytes : bytesFromCursor s = cs ++ rest)

include hb hop hcs hbytes

/-- The leading continuation bytes are taken one by one. -/
theorem chunkSteps_continuations (hlen : cs.length ≤ 6) (n : Nat) :
    chunkSteps (n + cs.length) (chunkStart s) = chunkSteps n (afterBytes cs .accumulate s) := by
  induction cs using List.reverseRecOn generalizing rest n with
  | nil => rfl
  | append_singleton cs c ih =>
    obtain ⟨hcs, hc⟩ := List.forall_mem_append.mp hcs
    have hflag := hc c List.mem_cons_self
    obtain ⟨hlow, hhigh⟩ := isContinuation_iff.mp hflag
    rw [List.length_append, List.length_singleton] at hlen
    rw [List.append_assoc] at hbytes
    have hstep := chunkStep_afterBytes hb hop hbytes (by omega) (by omega) hhigh
    rw [symbolFlag_of_isContinuation hflag, if_pos rfl] at hstep
    calc chunkSteps (n + (cs ++ [c]).length) (chunkStart s)
      _ = chunkSteps (n + 1 + cs.length) (chunkStart s) := by rw [List.length_append, List.length_singleton, Nat.add_right_comm]; rfl
      _ = chunkSteps (n + 1) (afterBytes cs .accumulate s) := ih hcs hbytes (by omega) (n + 1)
      _ = _ := chunkSteps_next (afterBytes_enabled hb hop cs) hstep n

/-- `DecodeValue` takes the leading continuation bytes, and then makes its last ChunkStep. -/
theorem decodeValue_last (hlen : cs.length ≤ 6) {t : State} (h : chunkStep (afterBytes cs .accumulate s) = .next t)
    (ht : t.busy = false ∨ t.cst = .done) : decodeValue s = .next t := by
  obtain ⟨n, hn⟩ : ∃ n, 7 = n + 1 + cs.length := ⟨6 - cs.length, by omega⟩
  rw [decodeValue, hn, chunkSteps_continuations hb hop hcs hbytes hlen]
  exact chunkSteps_last (afterBytes_enabled hb hop cs) h ht n

/-- A fault of the last ChunkStep is the outcome, with `CURSOR` after the continuation bytes (60 R206). -/
theorem decodeValue_fault (hlen : cs.length ≤ 6) {f : FaultKind}
    (h : chunkStep (afterBytes cs .accumulate s) =
      .next (raiseFault f (afterBytes cs .accumulate s).cursor (afterBytes cs .accumulate s))) :
    ∃ t, decodeValue s = .next t ∧ EndedWith t f (s.cursor + cs.length) ∧ t.inp = s.inp ∧ t.out = s.out :=
  ⟨_, decodeValue_last hb hop hcs hbytes hlen h (.inl rfl), ⟨rfl, rfl, rfl, rfl, rfl, rfl⟩, rfl, rfl⟩

end value

/-- Settles O18: in each row of R114 the leading continuation bytes are taken, and the last ChunkStep is the row's. -/
theorem decodeValueClosedForm : Obligations.DecodeValueClosedForm := by
  intro s hb hop
  generalize hbs : bytesFromCursor s = bs
  cases row 6 bs with
  | exhausted _ hcs hlen =>
    have hbytes := hbs.trans (List.append_nil bs).symm
    rw [decodeOne_exhausted hcs hlen]
    exact decodeValue_fault hb hop hcs hbytes hlen (chunkStep_exhausted (bytesFromCursor_afterBytes hbytes _))
  | full cs rest b hcs hlen =>
    have hg : (afterBytes cs .accumulate s).gcnt = 6#3 := congrArg (BitVec.ofNat 3) hlen
    rw [decodeOne_seventh hcs hlen, ← hlen]
    exact decodeValue_fault hb hop hcs hbs hlen.le (chunkStep_seventh (bytesFromCursor_afterBytes hbs _) hg)
  | outside cs rest b hcs hlen hc ht =>
    have hroom : cs.length ≤ 5 := Nat.le_of_lt_succ hlen
    have hout : b.toNat < 63 ∨ 126 < b.toNat := by
      have hc' := mt isContinuation_iff.mpr (Bool.eq_false_iff.mp hc)
      have ht' := mt isTerminator_iff.mpr (Bool.eq_false_iff.mp ht)
      omega
    rw [decodeOne_outside hcs hroom hc ht]
    exact decodeValue_fault hb hop hcs hbs hlen.le
      (chunkStep_outside (bytesFromCursor_afterBytes hbs _) (afterBytes_gcnt_ne_six hroom _ s) hout)
  | sequence cs rest b hcs hlen ht =>
    have hroom : cs.length ≤ 5 := Nat.le_of_lt_succ hlen
    obtain ⟨hlow, hhigh⟩ := isTerminator_iff.mp ht
    have hstep := chunkStep_afterBytes hb hop hbs hroom hlow (by omega)
    rw [symbolFlag_of_isTerminator ht] at hstep
    have hvalue : groupsValue (cs ++ [b]) < 2 ^ (5 * (cs.length + 1)) := by
      simpa only [List.length_append, List.length_singleton] using groupsValue_lt (cs ++ [b])
    rw [decodeOne_sequence hcs hroom ht]
    refine ⟨Nat.succ_pos _, Nat.succ_le_of_lt hlen, hvalue.trans_le (Nat.pow_le_pow_right (by decide) (by omega)), ?_⟩
    refine (decodeValue_last hb hop hcs hbs hlen.le hstep (.inr rfl)).trans ?_
    simp [afterBytes]

/-! ## `DECC` -/

/-- Inside a value that has a group, a decode command's micro-step is a `ChunkStep`, whether a byte is left or not. -/
theorem blockStep_of_gcnt {s : State} (hop : isDecodeOp s.op = true) (hc : s.cst = .accumulate) (hg : s.gcnt ≠ 0#3) :
    blockStep s = chunkStep s := by
  unfold blockStep
  rcases isDecodeOp_cases hop with h | h | h <;> rw [h]
  · change deccStep s = _
    simp only [deccStep, hc]
  · change decpStep s = _
    simp only [decpStep, hc, hg, false_and, if_false]
  · change declStep s = _
    simp only [declStep, hc, hg, false_and, if_false]

theorem blockStep_decc_accumulating {s : State} (hop : s.op = 2#4) (hc : s.cst = .accumulate) : blockStep s = chunkStep s := by
  rw [blockStep, hop]
  change deccStep s = _
  rw [deccStep, hc]

theorem gcnt_succ {n : BitVec 3} (h6 : n ≠ 6#3) (h7 : n ≠ 7#3) : n + 1#3 ≠ 0#3 ∧ n + 1#3 ≠ 7#3 := by
  revert n
  decide

/-- Where a decode command's micro-step is a `ChunkStep`, the ChunkSteps of the value are its micro-steps. -/
theorem reaches_of_chunkSteps {n : Nat} {s t : State} (hop : isDecodeOp s.op = true) (hg : s.gcnt ≠ 7#3)
    (hfirst : s.cst = .accumulate → blockStep s = chunkStep s) (h : chunkSteps n s = .next t) : Reaches s t := by
  induction n generalizing s with
  | zero => cases h; exact .refl
  | succ n ih =>
    by_cases he : ChunkEnabled s
    · have hturn := hfirst he.2.2
      have hfault : ∀ f i, chunkStep s = .next (raiseFault f i s) → Reaches s t := fun f i hs => by
        rw [chunkSteps_last he hs (.inl rfl)] at h
        cases h
        exact .step he.1 (hturn.trans hs)
      rcases chunkStep_cases he with ⟨-, hs⟩ | ⟨-, -, hs⟩ | ⟨-, -, -, hs⟩ | ⟨-, hsix, c, g, -, hs⟩
      · exact hfault _ _ hs
      · exact hfault _ _ hs
      · exact hfault _ _ hs
      · obtain ⟨hpos, hmax⟩ := gcnt_succ hsix hg
        rw [chunkSteps_next he hs] at h
        exact .head ⟨he.1, hturn.trans hs⟩ (ih (s := accepted c g s) hop hmax (fun hc => blockStep_of_gcnt hop hc hpos) h)
    · rw [chunkSteps_of_not_enabled hop he] at h
      cases h
      exact .refl

/-- Settles O19: `DECC` is `DecodeValue` from command start on, and its value ends the command. -/
theorem deccDecodesOneValue : Obligations.DeccDecodesOneValue := by
  intro s hb
  have hstart := startable_of_idle (i := .decc) rfl hb
  have hreach : ∀ t, decodeValue (commandStart .decc s) = .next t → Reaches (commandStart .decc s) t := fun t =>
    reaches_of_chunkSteps rfl (show (0#3) ≠ 7#3 by decide) (blockStep_decc_accumulating rfl)
  have hvalue := decodeValueClosedForm (commandStart .decc s) rfl rfl
  rw [bytesFromCursor_commandStart] at hvalue
  cases hd : decodeOne (inputBytes s) with
  | error e =>
    rw [hd] at hvalue
    obtain ⟨t, ht, hend, -⟩ := hvalue
    rw [commandStart_cursor, Nat.zero_add] at hend
    exact ⟨t, exec_of_reaches rfl hstart (hreach t ht) hend.1, hend⟩
  | ok r =>
    obtain ⟨u, k⟩ := r
    rw [hd] at hvalue
    obtain ⟨hk, hmax, hu, ht⟩ := hvalue
    have hlast := blockStep_decc_done
      (s := valueRead (commandStart .decc s) (BitVec.ofNat 30 u) (BitVec.ofNat 5 (5 * k)) (BitVec.ofNat 3 k) (0 + k)) rfl rfl
    refine ⟨_, exec_of_reaches rfl hstart (.tail (hreach _ ht) ⟨rfl, hlast⟩) rfl, hk, hmax, hu, rfl, rfl, rfl, ?_, ?_, rfl⟩
    · exact BitVec.setWidth_ofNat_of_le_of_lt (by decide) hu
    · exact (congrArg (· % 8) (Nat.zero_add k)).trans (Nat.mod_eq_of_lt (by omega))

/-! ## The round trip -/

/-- The chunk sequence of a value decodes to the value from the front of any string, if it has six groups at most (40 R115). -/
theorem decodeOne_chunkBytes (u : Nat) (rest : List Byte) (h : chunkLength u ≤ 6) :
    decodeOne (chunkBytes u ++ rest) = .ok (u, chunkLength u) := by
  obtain ⟨cs, b, hu, hcs, hb, hlen⟩ := chunkBytes_split u
  have hvalue : groupsValue (cs ++ [b]) = u := hu ▸ groupsValue_chunkBytes u
  rw [hu, List.append_assoc, List.singleton_append, decodeOne_sequence hcs (by omega) hb, hvalue, hlen]

/-- A chunk sequence of seven groups is too long for the decoder (40 R115). -/
theorem decodeOne_chunkBytes_long (u : Nat) (rest : List Byte) (h : chunkLength u = 7) :
    decodeOne (chunkBytes u ++ rest) = .error (.overflowChunk, 6) := by
  obtain ⟨cs, b, hu, hcs, -, hlen⟩ := chunkBytes_split u
  rw [hu, List.append_assoc, List.singleton_append, decodeOne_seventh hcs (by omega)]

/-- Settles O21: what `ENCU` emitted is decoded by its row of R114. -/
theorem chunkCodecRoundTrip : Obligations.ChunkCodecRoundTrip := by
  intro s t s' rest henc hb hin
  obtain ⟨hocnt, hout⟩ := exec_encu_next henc
  obtain ⟨t', ht', hend⟩ := deccDecodesOneValue s' hb
  have hshort : chunkLength s.opa.toNat ≤ 6 ↔ s.opa.toNat < 2 ^ 30 := chunkLength_le_iff (by decide)
  have hmax : chunkLength s.opa.toNat ≤ 7 := (chunkLength_le_iff (by decide)).mpr s.opa.isLt
  rw [hin, hout] at hend
  rw [hocnt]
  refine ⟨t', ht', ?_⟩
  split
  · next hlt =>
    rw [decodeOne_chunkBytes _ _ (hshort.mpr hlt)] at hend
    obtain ⟨-, -, -, hend⟩ := hend
    rwa [BitVec.ofNat_toNat, BitVec.setWidth_eq] at hend
  · next hge =>
    have hseven : chunkLength s.opa.toNat = 7 := by
      have hlong := mt hshort.mp hge
      omega
    rw [decodeOne_chunkBytes_long _ _ hseven] at hend
    exact ⟨hseven, hend⟩

end Sys2Proof.Machine
end

section
/-! SUPPORT. The Signed Value Codec (41_signed_codec.md): zigzag and its inverse as integer functions, their ranges and their form on bits; and
`ZZE` and `ZZD`, the two functions on the ports. -/

namespace Sys2Proof.Machine

/-! ## Zigzag on the integers -/

theorem coe_zigZag_of_neg {v : Int} (h : v < 0) : (zigZag v : Int) = -2 * v - 1 := by
  rw [zigZag, if_pos h, Int.toNat_of_nonneg (by omega)]
  omega

theorem coe_zigZag_of_nonneg {v : Int} (h : 0 ≤ v) : (zigZag v : Int) = 2 * v := by
  rw [zigZag, if_neg h.not_gt, Int.toNat_of_nonneg (by omega), mul_comm]

theorem unZigZag_of_odd {u : Nat} (h : u % 2 = 1) : unZigZag u = -((u / 2 : Nat) : Int) - 1 := if_pos h

theorem unZigZag_of_even {u : Nat} (h : ¬ u % 2 = 1) : unZigZag u = ((u / 2 : Nat) : Int) := if_neg h

/-- Bit 0 of the zigzag is the sign (41 R130). -/
theorem zigZag_odd_iff (v : Int) : zigZag v % 2 = 1 ↔ v < 0 := by
  rcases lt_or_ge v 0 with h | h
  · have hz := coe_zigZag_of_neg h; omega
  · have hz := coe_zigZag_of_nonneg h; omega

theorem unZigZag_zigZag (v : Int) : unZigZag (zigZag v) = v := by
  rcases lt_or_ge v 0 with h | h
  · have hz := coe_zigZag_of_neg h
    rw [unZigZag_of_odd ((zigZag_odd_iff v).mpr h)]
    omega
  · have hz := coe_zigZag_of_nonneg h
    rw [unZigZag_of_even (mt (zigZag_odd_iff v).mp h.not_gt)]
    omega

theorem zigZag_unZigZag (u : Nat) : zigZag (unZigZag u) = u := by
  by_cases h : u % 2 = 1
  · have hz := coe_zigZag_of_neg (v := unZigZag u) (by rw [unZigZag_of_odd h]; omega)
    rw [unZigZag_of_odd h] at hz ⊢
    omega
  · have hz := coe_zigZag_of_nonneg (v := unZigZag u) (by rw [unZigZag_of_even h]; omega)
    rw [unZigZag_of_even h] at hz ⊢
    omega

theorem zigZag_lt {v : Int} {n : Nat} (hlow : -(n : Int) ≤ v) (hhigh : v < n) : zigZag v < 2 * n := by
  rcases lt_or_ge v 0 with h | h
  · have hz := coe_zigZag_of_neg h; omega
  · have hz := coe_zigZag_of_nonneg h; omega

theorem unZigZag_range {u n : Nat} (h : u < 2 * n) : -(n : Int) ≤ unZigZag u ∧ unZigZag u < n := by
  by_cases hodd : u % 2 = 1
  · rw [unZigZag_of_odd hodd]; omega
  · rw [unZigZag_of_even hodd]; omega

/-! ## Zigzag on bits -/

/-- Shifted left by 1, a two's complement pattern is twice its value, modulo `2^w`. -/
theorem ofInt_two_mul_toInt {w : Nat} (x : BitVec w) : BitVec.ofInt w (2 * x.toInt) = x <<< 1 := by
  rw [two_mul, BitVec.ofInt_add, BitVec.ofInt_toInt]
  apply BitVec.eq_of_toNat_eq
  rw [BitVec.toNat_add, BitVec.toNat_shiftLeft, Nat.shiftLeft_eq, pow_one, mul_two]

/-- The fixed-width form of 41 R130, in any width: shift left by 1, then complement where the sign bit is 1. -/
theorem ofNat_zigZag_toInt {w : Nat} (x : BitVec w) :
    BitVec.ofNat w (zigZag x.toInt) = (x <<< 1) ^^^ (if x.msb then BitVec.allOnes w else 0#w) := by
  rw [← BitVec.ofInt_natCast, BitVec.msb_eq_toInt]
  rcases lt_or_ge x.toInt 0 with h | h
  · have hnot : (-2 * x.toInt - 1 : Int) = -(2 * x.toInt) + -1 := by omega
    rw [coe_zigZag_of_neg h, hnot, BitVec.ofInt_add, BitVec.ofInt_neg, BitVec.ofInt_neg, ofInt_two_mul_toInt, decide_eq_true h,
      if_pos rfl, BitVec.xor_allOnes, BitVec.not_eq_neg_add, BitVec.sub_eq_add_neg]
    rfl
  · rw [coe_zigZag_of_nonneg h, ofInt_two_mul_toInt, decide_eq_false h.not_gt, if_neg Bool.false_ne_true, BitVec.xor_zero]

/-! ## Commands that end at once -/

theorem finishOk_commandStart_endedOk (i : Instr) (r : BitVec 35) (s : State) : EndedOk (finishOk r 0#3 (commandStart i s)) r 0 0 :=
  ⟨rfl, rfl, rfl, rfl, rfl, rfl⟩

/-- A command with a next state started at an idle block, so what it does at every idle block is what it did. -/
theorem eq_of_exec_next {i : Instr} (hi : i.code = .command) {s t e : State} (hidle : s.busy = false → exec i s = .next e)
    (h : exec i s = .next t) : t = e := by
  obtain ⟨hb, -⟩ := exec_next hi h
  exact Host.Outcome.next.inj (h.symm.trans (hidle hb))

/-! ## `ZZE` -/

/-- The block at the end of a `ZZE` (41 R130). -/
def zzeEnd (s : State) : State := finishOk (rvalUnsigned (zigZag (s.opa.setWidth 33).toInt)) 0#3 (commandStart .zze s)

/-- `ZZE` is one micro-step (41 R130). -/
theorem exec_zze {s : State} (hb : s.busy = false) : exec .zze s = .next (zzeEnd s) :=
  exec_of_reaches rfl (startable_of_idle rfl hb) (.step rfl rfl) rfl

/-- The zigzag of an i33 is a u33 (41 R130). -/
theorem zigZag_toInt_lt (x : BitVec 33) : zigZag x.toInt < 2 ^ 33 :=
  zigZag_lt (n := 2 ^ 32) x.le_toInt BitVec.toInt_lt

/-- No bit of the zigzag is lost in `RVAL`. -/
theorem zzeEnd_rval_toNat (s : State) : (zzeEnd s).rval.toNat = zigZag (s.opa.setWidth 33).toInt :=
  Nat.mod_eq_of_lt ((zigZag_toInt_lt _).trans (by decide))

theorem zzeEnd_rval_setWidth (s : State) : (zzeEnd s).rval.setWidth 33 = BitVec.ofNat 33 (zigZag (s.opa.setWidth 33).toInt) :=
  BitVec.setWidth_ofNat_of_le (by decide) _

/-- Settles O22: `RVAL` holds the zigzag, read as an integer, at bit 0 and at its low 33 bits. -/
theorem zzeZigzags : Obligations.ZzeZigzags := by
  refine fun s hb => ⟨zzeEnd s, exec_zze hb, finishOk_commandStart_endedOk _ _ s, ?_, ?_, ?_⟩
  · rw [zzeEnd_rval_toNat]
    split
    · next h => exact coe_zigZag_of_neg h
    · next h => exact coe_zigZag_of_nonneg (not_lt.mp h)
  · rw [BitVec.getLsbD, zzeEnd_rval_toNat, Nat.testBit_zero, decide_eq_true_iff, zigZag_odd_iff]
  · rw [zzeEnd_rval_setWidth, ofNat_zigZag_toInt, BitVec.msb_setWidth'']

/-! ## `ZZD` -/

/-- The block at the end of a `ZZD` (41 R131). -/
def zzdEnd (s : State) : State := finishOk (rvalSigned (unZigZag (s.opa.setWidth 33).toNat)) 0#3 (commandStart .zzd s)

/-- `ZZD` is one micro-step (41 R131). -/
theorem exec_zzd {s : State} (hb : s.busy = false) : exec .zzd s = .next (zzdEnd s) :=
  exec_of_reaches rfl (startable_of_idle rfl hb) (.step rfl rfl) rfl

/-- The inverse zigzag of a u33 is an i33 (41 R131). -/
theorem unZigZag_toNat_range (x : BitVec 33) : -2 ^ 32 ≤ unZigZag x.toNat ∧ unZigZag x.toNat < 2 ^ 32 :=
  unZigZag_range (n := 2 ^ 32) x.isLt

/-- The inverse zigzag fits the signed `RVAL`. -/
theorem zzdEnd_rval_toInt (s : State) : (zzdEnd s).rval.toInt = unZigZag (s.opa.setWidth 33).toNat := by
  obtain ⟨hlow, hhigh⟩ := unZigZag_toNat_range (s.opa.setWidth 33)
  exact BitVec.toInt_ofInt_eq_self (by decide) ((by decide : (-2 ^ 34 : Int) ≤ -2 ^ 32).trans hlow) (hhigh.trans (by decide))

/-- The inverse zigzag fits the 33 bits that the signed codec reads. -/
theorem zzdEnd_rval_setWidth_toInt (s : State) : ((zzdEnd s).rval.setWidth 33).toInt = unZigZag (s.opa.setWidth 33).toNat := by
  obtain ⟨hlow, hhigh⟩ := unZigZag_toNat_range (s.opa.setWidth 33)
  exact toInt_setWidth_ofInt hlow hhigh

/-- Settles O23: `RVAL` holds the inverse zigzag, whose range is half that of its operand on either side of 0. -/
theorem zzdUnzigzags : Obligations.ZzdUnzigzags := by
  refine fun s hb => ⟨zzdEnd s, exec_zzd hb, finishOk_commandStart_endedOk _ _ s, zzdEnd_rval_toInt s, fun hu => ?_⟩
  obtain ⟨hlow, hhigh⟩ := unZigZag_range (n := 2 ^ 29) hu
  rw [zzdEnd_rval_toInt]
  exact ⟨hlow, Int.le_sub_one_of_lt hhigh⟩

/-! ## The two commands undo each other -/

theorem zzeEnd_rval_setWidth_toNat (s : State) : ((zzeEnd s).rval.setWidth 33).toNat = zigZag (s.opa.setWidth 33).toInt := by
  rw [zzeEnd_rval_setWidth, BitVec.toNat_ofNat, Nat.mod_eq_of_lt (zigZag_toInt_lt _)]

/-- Settles O24: on the ports, the first command's 33-bit result is the integer that the second one reads. -/
theorem zigzagIsBijective : Obligations.ZigzagIsBijective := by
  refine ⟨unZigZag_zigZag, zigZag_unZigZag, fun s t s' t' h hopa h' => ?_, fun s t s' t' h hopa h' => ?_⟩
  · obtain rfl := eq_of_exec_next rfl exec_zze h
    obtain rfl := eq_of_exec_next rfl exec_zzd h'
    apply BitVec.eq_of_toInt_eq
    rw [zzdEnd_rval_setWidth_toInt, hopa, zzeEnd_rval_setWidth_toNat, unZigZag_zigZag]
  · obtain rfl := eq_of_exec_next rfl exec_zzd h
    obtain rfl := eq_of_exec_next rfl exec_zze h'
    apply BitVec.eq_of_toNat_eq
    rw [zzeEnd_rval_setWidth_toNat, hopa, zzdEnd_rval_setWidth_toInt, zigZag_unZigZag]

end Sys2Proof.Machine
end

section
/-! SUPPORT. `RHAZ` and the two integer steps of the scaler (42 R140, R143). -/

namespace Sys2Proof.Machine

/-! ## `RHAZ` -/

/-- `floor(t + 1/2)` of a value of `t` units (42 R140). -/
def floorHalfUp (t : Int) : Int := (2 * t + (unitsPerOne : Nat)) / (2 * (unitsPerOne : Nat))

/-- `RHAZ` rounds the magnitude, and the sign bit says on which side of zero. -/
theorem rhaz_eq (x : F64) :
    rhaz x = if f64Negative x then -floorHalfUp (f64Magnitude x) else floorHalfUp (f64Magnitude x) := by
  simp only [rhaz, floorHalfUp, Int.natCast_ediv, Int.natCast_add, Int.natCast_mul, Nat.cast_ofNat]

/-- A whole number of ones stays itself: the half added is less than one. -/
theorem floorHalfUp_mul_unitsPerOne (n : Int) : floorHalfUp (n * (unitsPerOne : Nat)) = n := by
  have hpos := unitsPerOne_cast_pos
  have hhalf : (unitsPerOne : Int) / (2 * unitsPerOne) = 0 := Int.ediv_eq_zero_of_lt hpos.le (by omega)
  rw [floorHalfUp, Int.mul_left_comm, Int.add_comm, Int.add_mul_ediv_right _ _ (by omega), hhalf, Int.zero_add]

theorem floorHalfUp_zero : floorHalfUp 0 = 0 := by
  have h := floorHalfUp_mul_unitsPerOne 0
  rwa [Int.zero_mul] at h

/-- `RHAZ` of a value that is not negative; `−0.0` is one. -/
theorem rhaz_of_nonneg {x : F64} (h : 0 ≤ f64Units x) : rhaz x = floorHalfUp (f64Units x) := by
  rw [rhaz_eq]
  rw [f64Units] at h ⊢
  by_cases hneg : f64Negative x
  · rw [if_pos hneg] at h
    have hzero : (f64Magnitude x : Int) = 0 := by omega
    rw [hzero, Int.neg_zero, floorHalfUp_zero, Int.neg_zero, ite_self, floorHalfUp_zero]
  · rw [if_neg hneg, if_neg hneg]

theorem rhaz_of_neg {x : F64} (h : f64Units x < 0) : rhaz x = -floorHalfUp (-f64Units x) := by
  have hneg : f64Negative x = true := by rw [f64Negative_eq h.ne, decide_eq_true h]
  rw [rhaz_eq, f64Units, if_pos hneg, if_pos hneg, Int.neg_neg]

/-- An integer goes to itself. -/
theorem rhaz_of_integer {x : F64} {n : Int} (h : f64Units x = n * (unitsPerOne : Nat)) : rhaz x = n := by
  rcases lt_or_ge (f64Units x) 0 with hx | hx
  · rw [rhaz_of_neg hx, h, ← Int.neg_mul, floorHalfUp_mul_unitsPerOne, Int.neg_neg]
  · rw [rhaz_of_nonneg hx, h, floorHalfUp_mul_unitsPerOne]

/-- From `2^52` on every pattern is an integer: the lower ones alone have a place below that of 1. -/
theorem exists_integer_of_large {x : F64} (h : 2 ^ 52 * unitsPerOne ≤ (f64Units x).natAbs) :
    ∃ n : Int, f64Units x = n * (unitsPerOne : Nat) := by
  obtain ⟨j, hj⟩ : ∃ j, unitsPerOne = 2 ^ j := ⟨1074, rfl⟩
  have hplace := bitsMagnitude_multiple_or_lt j (f64Bits x)
  rw [← f64Magnitude_eq, ← natAbs_f64Units, ← hj] at hplace
  obtain ⟨k, hk⟩ := hplace.resolve_right fun hlow => h.not_gt hlow.2
  have hdvd : (unitsPerOne : Int) ∣ f64Units x := Int.natCast_dvd.mpr ⟨k, hk.trans (Nat.mul_comm _ _)⟩
  exact dvd_iff_exists_eq_mul_left.mp hdvd

/-- Settles O32: the rounding of the magnitude with the sign, and its fixed points. -/
theorem rhazRoundsHalfAwayFromZero : Obligations.RhazRoundsHalfAwayFromZero := by
  intro x _
  refine ⟨rhaz_of_nonneg, rhaz_of_neg, fun _ => rhaz_of_integer, fun h => ?_⟩
  obtain ⟨n, hn⟩ := exists_integer_of_large h
  rw [hn, rhaz_of_integer hn]

/-! ## The scaled integer and the delta -/

theorem fitsI32_iff (n : Int) : fitsI32 n = true ↔ -2 ^ 31 ≤ n ∧ n ≤ 2 ^ 31 - 1 := by
  rw [fitsI32, Bool.and_eq_true, decide_eq_true_eq, decide_eq_true_eq]

/-- A delta of two i32 values lies in the i33 range, whose lowest value it does not reach (42 R143). -/
theorem delta_range {n : Int} (h : fitsI32 n = true) (prev : BitVec 32) :
    -(2 ^ 32 - 1) ≤ delta n prev ∧ delta n prev ≤ 2 ^ 32 - 1 := by
  obtain ⟨hlow, hhigh⟩ := (fitsI32_iff n).mp h
  have hplow := prev.le_toInt
  have hphigh := prev.toInt_lt
  unfold delta
  omega

/-- Settles O35: the range of the difference lies within the 33 bits. -/
theorem deltaNeverWraps : Obligations.DeltaNeverWraps := by
  intro n prev h
  obtain ⟨hlow, hhigh⟩ := delta_range h prev
  exact ⟨rfl, hlow, hhigh, BitVec.toInt_ofInt_eq_self (by decide) (by omega) (by omega)⟩

end Sys2Proof.Machine
end

section
/-! SUPPORT. `SCALE` (42 R141, R142): the conditions of `Scale` one by one, and the command as its one micro-step. -/

namespace Sys2Proof.Machine

section conditions

variable {x p : F64}

theorem scaleInt_of_coordinate (hx : f64Finite x = false) : scaleInt x p = .error .coordinateNotFinite := by
  simp [scaleInt, hx]

theorem scaleInt_of_product (hx : f64Finite x = true) (hp : precisionOk p = true) (ht : f64Finite (fmul x p) = false) :
    scaleInt x p = .error .productNotFinite := by
  simp [scaleInt, hx, hp, ht]

/-- Past the three conditions on its operands and their product, `Scale` is decided by the i32 range. -/
theorem scaleInt_of_finite (hx : f64Finite x = true) (hp : precisionOk p = true) (ht : f64Finite (fmul x p) = true) :
    scaleInt x p = if fitsI32 (rhaz (fmul x p)) then .ok (rhaz (fmul x p)) else .error .scaledOutOfRange := by
  cases hr : fitsI32 (rhaz (fmul x p)) <;> simp [scaleInt, hx, hp, ht, hr]

end conditions

/-! ## The command -/

theorem exec_scale_eq_runCommand (psel : Bool) (s : State) :
    exec (.scale psel) s = runCommand (.scale psel) scaleStep s := rfl

theorem runSteps_one (body : State → Result) {s : State} (hb : s.busy = true) : runSteps body 1 s = body s := by
  simp only [runSteps, hb, if_true]
  cases body s <;> rfl

section command

variable {psel : Bool} {s : State} (hb : s.busy = false)
include hb

theorem exec_scale_of_precision (hp : precisionOk (precisionOf psel s) = false) :
    exec (.scale psel) s = .refused .precisionNotPositive := by
  have hs : startable (.scale psel) s = some .precisionNotPositive := by
    rw [startable, hb, show selectedPrecision (Instr.scale psel).psel s = precisionOf psel s from rfl, hp]
    rfl
  rw [exec_scale_eq_runCommand, runCommand, hs]

variable (hp : precisionOk (precisionOf psel s) = true)
include hp

/-- A `SCALE` that may start is one micro-step: it answers what `Scale` answers on the latched operands. -/
theorem exec_scale_eq : exec (.scale psel) s =
    answer (commandStart (.scale psel) s) ((scaleInt s.opf (precisionOf psel s)).map fun n => .finish (rvalSigned n) 0#3) := by
  have hs : startable (.scale psel) s = none := (startable_none_iff _ s).mpr ⟨hb, hp⟩
  rw [exec_scale_eq_runCommand, runCommand, hs]
  exact (runSteps_one scaleStep rfl).trans (scaleStep_eq _)

theorem exec_scale_of_error {r : Refusal} (h : scaleInt s.opf (precisionOf psel s) = .error r) :
    exec (.scale psel) s = .refused r := by
  rw [exec_scale_eq hb hp, h]
  rfl

theorem exec_scale_of_ok {n : Int} (h : scaleInt s.opf (precisionOf psel s) = .ok n) :
    exec (.scale psel) s = .next (finishOk (rvalSigned n) 0#3 (commandStart (.scale psel) s)) := by
  rw [exec_scale_eq hb hp, h]
  rfl

end command

/-- Settles O33: on the domain `Scale` answers an i32, which the 35 bits of `RVAL` hold. -/
theorem scaleScales : Obligations.ScaleScales := by
  intro psel s hb hp hx ht hlow hhigh
  have hscale := (scaleInt_of_finite hx hp ht).trans (if_pos ((fitsI32_iff _).mpr ⟨hlow, hhigh⟩))
  exact ⟨_, exec_scale_of_ok hb hp hscale, finishOk_commandStart_endedOk _ _ s,
    BitVec.toInt_ofInt_eq_self (by decide) (by omega) (by omega)⟩

/-- Settles O34: the precision fails at command start, the other conditions in the micro-step. -/
theorem scaleDomainRefusals : Obligations.ScaleDomainRefusals := by
  refine fun psel s hb => ⟨exec_scale_of_precision hb, fun hp => ⟨fun hx => ?_, fun hx => ⟨fun ht => ?_, fun ht hrange => ?_⟩⟩⟩
  · exact exec_scale_of_error hb hp (scaleInt_of_coordinate hx)
  · exact exec_scale_of_error hb hp (scaleInt_of_product hx hp ht)
  · have hout : ¬ fitsI32 (rhaz (fmul s.opf (precisionOf psel s))) = true := by
      rw [fitsI32_iff]
      omega
    exact exec_scale_of_error hb hp ((scaleInt_of_finite hx hp ht).trans (if_neg hout))

end Sys2Proof.Machine
end

section
/-! SUPPORT. A zero delta (42 R144, corner case): `+0.0` divided is `+0.0`, and added changes nothing but a `−0.0`. -/

namespace Sys2Proof.Machine

theorem i2f_zero : i2f 0 = 0#64 := by
  rw [i2f_eq]
  exact f64Of_roundNearest_zero one_ne_zero

theorem fdiv_zero {p : F64} (hp : precisionOk p = true) : fdiv 0#64 p = 0#64 := by
  obtain ⟨-, hpos⟩ := (precisionOk_iff p).mp hp
  rw [fdiv_eq, f64Negative_eq hpos.ne', decide_eq_false hpos.not_gt]
  exact f64Of_roundNearest_zero hpos.ne'

/-- The sign of a sum with `+0.0` is the other operand's, but for `−0.0`. -/
theorem faddSign_zero {x : F64} (hx : x ≠ 0x8000000000000000#64) : faddSign x 0#64 = f64Negative x := by
  have hunits : f64Units x + f64Units 0#64 = f64Units x := Int.add_zero _
  by_cases h0 : f64Units x = 0
  · have hpos : f64Negative x = false := by
      rw [← Bool.not_eq_true]
      exact fun hneg => hx (eq_negZero_of_units_eq_zero hneg h0)
    rw [faddSign, hunits, if_pos h0, hpos, Bool.false_and]
  · rw [faddSign_of_ne_zero (hunits.trans_ne h0), hunits, f64Negative_eq h0]

theorem fadd_zero {x : F64} (hfin : f64Finite x = true) (hx : x ≠ 0x8000000000000000#64) : fadd x 0#64 = x := by
  have hround : roundNearest (f64Units x + f64Units 0#64).natAbs (unitsPerOne : Int).natAbs = f64Bits x := by
    rw [show f64Units 0#64 = 0 from rfl, Int.add_zero, natAbs_f64Units, Int.natAbs_natCast]
    exact roundNearest_exact unitsPerOne_pos hfin rfl
  rw [fadd_eq, hround, faddSign_zero hx, f64Of_f64Bits]

theorem accumulate_zero {acc p : F64} (hacc : accumulatorOk acc = true) (hp : precisionOk p = true) : accumulate acc 0 p = .ok acc := by
  rw [accumulatorOk, Bool.and_eq_true, decide_eq_true_eq] at hacc
  obtain ⟨hfin, hne⟩ := hacc
  have hzero : f64Finite 0#64 = true := by decide
  simp [accumulate, i2f_zero, fdiv_zero hp, fadd_zero hfin hne, hp, hfin, hzero]

/-- Settles O36: the zero delta by its sum with `+0.0`, any delta by the accumulator's invariant. -/
theorem zeroDeltaLeavesAccumulator : Obligations.ZeroDeltaLeavesAccumulator :=
  ⟨fun _ _ => accumulate_zero, fun _ _ _ _ => accumulatorOk_accumulate⟩

end Sys2Proof.Machine
end

section
/-! SUPPORT. A command whose micro-steps lead to a refused one is refused; and one whose precision is outside its domain is refused at its start. -/

namespace Sys2Proof.Machine

/-- The running command is refused at some micro-step. -/
def ReachesRefusal (s : State) (r : Refusal) : Prop := ∃ t, Reaches s t ∧ t.busy = true ∧ blockStep t = .refused r

theorem ReachesRefusal.of_reaches {s t : State} {r : Refusal} (hr : ReachesRefusal t r) (h : Reaches s t) : ReachesRefusal s r := by
  obtain ⟨u, hu, hb, hstep⟩ := hr
  exact ⟨u, h.trans hu, hb, hstep⟩

/-- A run with room for the micro-steps that are left is refused where one of them is. -/
theorem Reaches.runSteps_refused {s t : State} {r : Refusal} (h : Reaches s t) (ht : t.busy = true) (hr : blockStep t = .refused r)
    {n : Nat} (hn : s.busy = true → stepsLeft s ≤ n) : runSteps blockStep n s = .refused r := by
  induction h using Relation.ReflTransGen.head_induction_on generalizing n with
  | refl =>
    obtain ⟨k, rfl⟩ : ∃ k, n = k + 1 := Nat.exists_eq_add_one.mpr ((stepsLeft_pos _).trans_le (hn ht))
    simp only [runSteps, ht, if_true, hr]
  | head hstep _ ih =>
    obtain ⟨hb, hs⟩ := hstep
    obtain ⟨m, hm, rfl⟩ := blockStep_next hs
    obtain ⟨k, rfl⟩ : ∃ k, n = k + 1 := Nat.exists_eq_add_one.mpr ((stepsLeft_pos _).trans_le (hn hb))
    rw [runSteps_succ hb hm]
    refine ih fun hbm => ?_
    have hless := MicroOp.stepsLeft_perform (microOp_enabled hm) hbm
    have hroom := hn hb
    omega

theorem exec_refused_of_reaches {i : Instr} (hi : i.code = .command) {s : State} {r : Refusal} (hs : startable i s = none)
    (h : ReachesRefusal (commandStart i s) r) : exec i s = .refused r := by
  obtain ⟨t, hreach, ht, hr⟩ := h
  rw [exec_eq_runCommand hi, runCommand, hs]
  exact hreach.runSteps_refused ht hr fun _ => stepsLeft_commandStart hi s

/-- 93 U2, log 5: the precision is looked at before anything else is. -/
theorem exec_refused_of_precision {i : Instr} (hi : i.code = .command) {s : State} (hb : s.busy = false)
    (hp : precisionOk (selectedPrecision i.psel s) = false) : exec i s = .refused .precisionNotPositive := by
  have hs : startable i s = some .precisionNotPositive := by
    rw [startable, hb, hp]
    rfl
  rw [exec_eq_runCommand hi, runCommand, hs]

end Sys2Proof.Machine
end

section
/-! SUPPORT. The deltas of a list of scaled points and their chunk sequences (43 R161, 30 R86): lengths and ranges. -/

namespace Sys2Proof.Machine

/-! ## Scaled pairs -/

theorem scaledPairs_cons_ok {prec : F64} {p : Point} {ps : List Point} {qs : List (Int × Int)} (h : scaledPairs prec (p :: ps) = .ok qs) :
    ∃ a b rest, scaleInt p.lat prec = .ok a ∧ scaleInt p.lon prec = .ok b ∧ scaledPairs prec ps = .ok rest ∧ qs = (a, b) :: rest := by
  rw [scaledPairs] at h
  split at h
  · cases h
  · split at h
    · cases h
    · split at h
      · cases h
      · cases h; exact ⟨_, _, _, by assumption, by assumption, by assumption, rfl⟩

/-- Both components of a scaled pair are i32 (42 R141). -/
abbrev PairFits (q : Int × Int) : Prop := fitsI32 q.1 = true ∧ fitsI32 q.2 = true

theorem scaledPairs_fit {prec : F64} {ps : List Point} {qs : List (Int × Int)} (h : scaledPairs prec ps = .ok qs) :
    qs.length = ps.length ∧ ∀ q ∈ qs, PairFits q := by
  induction ps generalizing qs with
  | nil => cases h; exact ⟨rfl, List.forall_mem_nil _⟩
  | cons p ps ih =>
    obtain ⟨a, b, rest, ha, hb, hrest, rfl⟩ := scaledPairs_cons_ok h
    obtain ⟨hlen, hfits⟩ := ih hrest
    obtain ⟨-, -, -, hfa, -⟩ := scaleInt_ok ha
    obtain ⟨-, -, -, hfb, -⟩ := scaleInt_ok hb
    exact ⟨congrArg (· + 1) hlen, List.forall_mem_cons.mpr ⟨⟨hfa, hfb⟩, hfits⟩⟩

/-! ## Their deltas -/

theorem length_deltasFrom (prev : Int × Int) (ps : List (Int × Int)) : (deltasFrom prev ps).length = 2 * ps.length := by
  induction ps generalizing prev with
  | nil => rfl
  | cons p ps ih => simp only [deltasFrom, List.length_cons, ih]; omega

/-- The zigzag of a difference of i32 values is a u33 (42 R143, 41 R130). -/
theorem zigZag_sub_lt {m n : Int} (hm : fitsI32 m = true) (hn : fitsI32 n = true) : zigZag (m - n) < 2 ^ 33 := by
  obtain ⟨hmlow, hmhigh⟩ := (fitsI32_iff m).mp hm
  obtain ⟨hnlow, hnhigh⟩ := (fitsI32_iff n).mp hn
  exact zigZag_lt (v := m - n) (n := 2 ^ 32) (by omega) (by omega)

theorem zigZag_deltasFrom_lt {prev : Int × Int} {ps : List (Int × Int)} (hprev : PairFits prev) (hps : ∀ p ∈ ps, PairFits p) :
    ∀ d ∈ deltasFrom prev ps, zigZag d < 2 ^ 33 := by
  induction ps generalizing prev with
  | nil => exact List.forall_mem_nil _
  | cons p ps ih =>
    obtain ⟨hp, hrest⟩ := List.forall_mem_cons.mp hps
    exact List.forall_mem_cons.mpr ⟨zigZag_sub_lt hp.1 hprev.1, List.forall_mem_cons.mpr ⟨zigZag_sub_lt hp.2 hprev.2, ih hp hrest⟩⟩

/-- The coordinate string of scaled pairs, from a previous pair on (30 R86). -/
def pairsString (prev : Int × Int) (ps : List (Int × Int)) : List Byte := (deltasFrom prev ps).flatMap fun d => chunkBytes (zigZag d)

theorem pairsString_singleton (prev p : Int × Int) :
    pairsString prev [p] = chunkBytes (zigZag (p.1 - prev.1)) ++ chunkBytes (zigZag (p.2 - prev.2)) := by
  simp [pairsString, deltasFrom]

theorem pairsString_cons (prev p : Int × Int) (ps : List (Int × Int)) :
    pairsString prev (p :: ps) = pairsString prev [p] ++ pairsString p ps := by
  rw [pairsString_singleton, pairsString, deltasFrom, List.flatMap_cons, List.flatMap_cons, List.append_assoc, pairsString]

end Sys2Proof.Machine
end

section
/-! SUPPORT. `ENCP` (43 R160 to R162): one point at a time, and the list by induction on the points that are left. -/

namespace Sys2Proof.Machine

/-! ## The points that are left -/

/-- The points from `CURSOR` to `LEN`. -/
def pointsFromCursor (s : State) : List Point := (List.range' s.cursor (s.len - s.cursor)).map (pointAt s)

theorem pointsFromCursor_of_le {s : State} (h : s.len ≤ s.cursor) : pointsFromCursor s = [] := by
  rw [pointsFromCursor, Nat.sub_eq_zero_of_le h]
  rfl

theorem pointsFromCursor_of_lt {s : State} (h : s.cursor < s.len) :
    pointsFromCursor s = pointAt s s.cursor :: pointsFromCursor { s with cursor := s.cursor + 1 } := by
  have hlen : s.len - s.cursor = s.len - (s.cursor + 1) + 1 := by omega
  rw [pointsFromCursor, hlen, List.range'_succ, List.map_cons]
  rfl

theorem pointsFromCursor_commandStart (i : Instr) (s : State) : pointsFromCursor (commandStart i s) = inputPoints s := by
  rw [inputPoints, List.range_eq_range']
  rfl

/-! ## One point -/

/-- `s` after `EncodeValue(ZigZag(d))`. -/
def deltaEncoded (d : Int) (s : State) : State :=
  { s with v := 0#35, est := .done, out := spaceAppend s.out s.ocnt (chunkBytes (zigZag d)),
           ocnt := s.ocnt + (chunkBytes (zigZag d)).length }

theorem reaches_deltaEncoded {d : Int} {s : State} (hb : s.busy = true) (hop : s.op = 6#4) (hd : zigZag d < 2 ^ 33) :
    Reaches (startDelta d s) (deltaEncoded d s) := by
  have hvalue : (BitVec.ofNat 35 (zigZag d)).toNat = zigZag d := Nat.mod_eq_of_lt (hd.trans (by decide))
  have hend : encodeValue (BitVec.ofNat 35 (zigZag d)) s = deltaEncoded d s := by
    rw [encodeValue_eq_chunkBytes, hvalue, deltaEncoded, chunkBytes_length]
  exact hend ▸ reaches_encodeValue hb (.inr (.inl hop))

/-- The scaled pair of `s`'s previous point. -/
abbrev prevPair (s : State) : Int × Int := (s.prevLat.toInt, s.prevLon.toInt)

/-- `s` with its point scaled to `(a, b)`, where the latitude delta is encoded (43 R161). -/
def pointScaled (a b : Int) (s : State) : State := { s with sLat := BitVec.ofInt 32 a, sLon := BitVec.ofInt 32 b, phase := .lat }

/-- `s` with the latitude of its point encoded, where the longitude delta is (43 R161). -/
def latEncoded (a b : Int) (s : State) : State := { deltaEncoded (delta a s.prevLat) (pointScaled a b s) with phase := .lon }

/-- `s` after the point scaled to `(a, b)` (43 R161). -/
def pointEncoded (a b : Int) (s : State) : State :=
  { s with
    sLat := BitVec.ofInt 32 a, sLon := BitVec.ofInt 32 b, prevLat := BitVec.ofInt 32 a, prevLon := BitVec.ofInt 32 b
    phase := .lat, est := .idle, v := 0#35, cursor := s.cursor + 1
    out := spaceAppend s.out s.ocnt (pairsString (prevPair s) [(a, b)])
    ocnt := s.ocnt + (pairsString (prevPair s) [(a, b)]).length }

section microSteps

variable {s : State} (hop : s.op = 6#4)
include hop

/-- Between two points: `EncodePoint`, or the end of the command (43 R160). -/
theorem blockStep_encp_idle (he : s.est = .idle) :
    blockStep s = answer s (if s.cursor < s.len then pointOp s else .ok (.finish 0#35 0#3)) := by
  rw [blockStep_eq, microOp_encp hop, encpOp, he]

theorem blockStep_pointScaled {a b : Int} (he : s.est = .idle) (hlt : s.cursor < s.len)
    (ha : scaleInt (pointAt s s.cursor).lat s.prec = .ok a) (hlon : scaleInt (pointAt s s.cursor).lon s.prec = .ok b) :
    blockStep s = .next (startDelta (delta a s.prevLat) (pointScaled a b s)) := by
  rw [blockStep_encp_idle hop he, if_pos hlt, pointOp, ha, hlon]
  rfl

theorem blockStep_latEncoded (a : Int) {b : Int} (hb : fitsI32 b = true) :
    blockStep (deltaEncoded (delta a s.prevLat) (pointScaled a b s)) = .next (startDelta (delta b s.prevLon) (latEncoded a b s)) := by
  have hstep : blockStep (deltaEncoded (delta a s.prevLat) (pointScaled a b s)) =
      .next (startDelta (delta (BitVec.ofInt 32 b).toInt s.prevLon) (latEncoded a b s)) := by
    rw [blockStep_eq, microOp_encp (s := deltaEncoded (delta a s.prevLat) (pointScaled a b s)) hop]
    rfl
  rwa [toInt_ofInt_of_fitsI32 hb] at hstep

theorem blockStep_pointEncoded (a b : Int) :
    blockStep (deltaEncoded (delta b s.prevLon) (latEncoded a b s)) = .next (pointEncoded a b s) := by
  rw [blockStep_eq, microOp_encp (s := deltaEncoded (delta b s.prevLon) (latEncoded a b s)) hop, pointEncoded, pairsString_singleton,
    spaceAppend_append, List.length_append, ← Nat.add_assoc]
  rfl

end microSteps

theorem fitsI32_toInt (x : BitVec 32) : fitsI32 x.toInt = true :=
  (fitsI32_iff _).mpr ⟨x.le_toInt, Int.le_sub_one_of_lt x.toInt_lt⟩

/-- `EncodePoint` on a point in the domain (43 R161). -/
theorem reaches_pointEncoded {a b : Int} {s : State} (hb : s.busy = true) (hop : s.op = 6#4) (he : s.est = .idle)
    (hlt : s.cursor < s.len) (ha : scaleInt (pointAt s s.cursor).lat s.prec = .ok a)
    (hlon : scaleInt (pointAt s s.cursor).lon s.prec = .ok b) : Reaches s (pointEncoded a b s) := by
  obtain ⟨-, -, -, hfa, -⟩ := scaleInt_ok ha
  obtain ⟨-, -, -, hfb, -⟩ := scaleInt_ok hlon
  have hfirst := reaches_deltaEncoded (s := pointScaled a b s) hb hop (zigZag_sub_lt hfa (fitsI32_toInt s.prevLat))
  have hsecond := reaches_deltaEncoded (s := latEncoded a b s) hb hop (zigZag_sub_lt hfb (fitsI32_toInt s.prevLon))
  have hlat : Reaches s (deltaEncoded (delta a s.prevLat) (pointScaled a b s)) :=
    .head ⟨hb, blockStep_pointScaled hop he hlt ha hlon⟩ hfirst
  exact hlat.trans (.head ⟨hb, blockStep_latEncoded hop a hfb⟩ (hsecond.tail ⟨hb, blockStep_pointEncoded hop a b⟩))

/-! ## The list -/

/-- How an `ENCP` between two points ends, by the scaled pairs of the points that are left. -/
def EncpEnds (s : State) : Except Refusal (List (Int × Int)) → Prop
  | .ok ps => ∃ t, Reaches s t ∧ EndedOk t 0#35 0 (s.ocnt + (pairsString (prevPair s) ps).length) ∧
      t.out = spaceAppend s.out s.ocnt (pairsString (prevPair s) ps)
  | .error r => ReachesRefusal s r

/-- The point that was encoded comes before what is encoded after it. -/
theorem EncpEnds.of_pointEncoded {a b : Int} {s : State} {ps : List (Int × Int)} (h : EncpEnds (pointEncoded a b s) (.ok ps))
    (ha : fitsI32 a = true) (hb : fitsI32 b = true) (hpoint : Reaches s (pointEncoded a b s)) : EncpEnds s (.ok ((a, b) :: ps)) := by
  obtain ⟨t, ht, hend, hout⟩ := h
  have hprev : prevPair (pointEncoded a b s) = (a, b) :=
    Prod.ext (toInt_ofInt_of_fitsI32 ha) (toInt_ofInt_of_fitsI32 hb)
  rw [hprev] at hend hout
  refine ⟨t, hpoint.trans ht, ?_, ?_⟩
  · rw [pairsString_cons, List.length_append, ← Nat.add_assoc]
    exact hend
  · rw [pairsString_cons, spaceAppend_append]
    exact hout

theorem encpEnds {s : State} (hb : s.busy = true) (hop : s.op = 6#4) (he : s.est = .idle) :
    EncpEnds s (scaledPairs s.prec (pointsFromCursor s)) := by
  generalize hpts : pointsFromCursor s = pts
  induction pts generalizing s with
  | nil =>
    have hge : ¬ s.cursor < s.len := fun hlt => by rw [pointsFromCursor_of_lt hlt] at hpts; cases hpts
    have hend := blockStep_encp_idle hop he
    rw [if_neg hge] at hend
    exact ⟨_, .step hb hend, ⟨rfl, rfl, rfl, rfl, rfl, rfl⟩, rfl⟩
  | cons p pts ih =>
    have hlt : s.cursor < s.len := not_le.mp fun hle => by rw [pointsFromCursor_of_le hle] at hpts; cases hpts
    have hbegin := blockStep_encp_idle hop he
    rw [if_pos hlt] at hbegin
    rw [pointsFromCursor_of_lt hlt] at hpts
    obtain ⟨rfl, hrest⟩ := List.cons.inj hpts
    rw [scaledPairs]
    cases ha : scaleInt (pointAt s s.cursor).lat s.prec with
    | error r => exact ⟨s, .refl, hb, by rw [hbegin, pointOp, ha]; rfl⟩
    | ok a =>
      cases hlon : scaleInt (pointAt s s.cursor).lon s.prec with
      | error r => exact ⟨s, .refl, hb, by rw [hbegin, pointOp, ha, hlon]; rfl⟩
      | ok b =>
        have hpoint := reaches_pointEncoded hb hop he hlt ha hlon
        have hind := ih (s := pointEncoded a b s) hb hop rfl hrest
        change EncpEnds (pointEncoded a b s) (scaledPairs s.prec pts) at hind
        dsimp only
        cases hps : scaledPairs s.prec pts with
        | error r =>
          rw [hps] at hind
          exact hind.of_reaches hpoint
        | ok ps =>
          rw [hps] at hind
          obtain ⟨-, -, -, hfa, -⟩ := scaleInt_ok ha
          obtain ⟨-, -, -, hfb, -⟩ := scaleInt_ok hlon
          exact hind.of_pointEncoded hfa hfb hpoint

/-- Settles O37: the points one by one, from the pair (0, 0) that command start sets. -/
theorem encpEncodesPoints : Obligations.EncpEncodesPoints := by
  refine fun psel s hb => ⟨fun hp => exec_refused_of_precision rfl hb hp, fun hp => ?_⟩
  have hs : startable (.encp psel) s = none := (startable_none_iff _ s).mpr ⟨hb, hp⟩
  have hends := encpEnds (s := commandStart (.encp psel) s) rfl (cmdOpc_encode_encp psel) rfl
  rw [pointsFromCursor_commandStart] at hends
  change EncpEnds _ (scaledPairs (precisionOf psel s) (inputPoints s)) at hends
  cases hps : scaledPairs (precisionOf psel s) (inputPoints s) with
  | error r =>
    rw [hps] at hends
    exact exec_refused_of_reaches rfl hs hends
  | ok ps =>
    rw [hps] at hends
    obtain ⟨t, ht, hend, hout⟩ := hends
    rw [commandStart_ocnt, Nat.zero_add] at hend
    have ⟨hidle, _, _, _, _, hocnt⟩ := hend
    exact ⟨t, exec_of_reaches rfl hs ht hidle, hend, outBytes_eq hout hocnt⟩

end Sys2Proof.Machine
end

section
/-! SUPPORT. `DECP` (43 R163 to R166): the equations of its closed form, one value, one point, and the string by induction on the bound of its
points. -/

namespace Sys2Proof.Machine

/-! ## The closed form, case by case (43 R164) -/

/-- A value takes a byte at least, and no byte that is not there. -/
theorem decodeOne_length {bs : List Byte} {u k : Nat} (h : decodeOne bs = .ok (u, k)) : 1 ≤ k ∧ k ≤ bs.length := by
  cases row 6 bs with
  | exhausted _ hcs hlen => rw [decodeOne_exhausted hcs hlen] at h; cases h
  | full cs rest b hcs hlen => rw [decodeOne_seventh hcs hlen] at h; cases h
  | outside cs rest b hcs hlen hc ht => rw [decodeOne_outside hcs (Nat.le_of_lt_succ hlen) hc ht] at h; cases h
  | sequence cs rest b hcs hlen hb =>
    rw [decodeOne_sequence hcs (Nat.le_of_lt_succ hlen) hb] at h
    cases h
    exact ⟨Nat.succ_pos _, by rw [List.length_append, List.length_cons]; omega⟩

theorem decodeOne_nil : decodeOne [] = .error (.truncatedChunk, 0) := decodeOne_exhausted (List.forall_mem_nil _) (Nat.zero_le 6)

theorem decodePoints_nil (prec : F64) (n c : Nat) (lat lon : F64) : decodePoints prec n c lat lon [] = .ok [] := by
  cases n <;> rfl

/-- What the bytes of a point can give, in the order of `DecodePoint`: a value with a fault, an accumulation outside the domain, or a point. -/
inductive PointRow (prec lat lon : F64) (bs : List Byte) : Prop
  | latFault (f : FaultKind) (o : Nat) (hlat : decodeOne bs = .error (f, o))
  | latOutside (u k : Nat) (r : Refusal) (hlat : decodeOne bs = .ok (u, k)) (hx : accumulate lat (unZigZag u) prec = .error r)
  | lonFault (u k : Nat) (x : F64) (f : FaultKind) (o : Nat) (hlat : decodeOne bs = .ok (u, k))
      (hx : accumulate lat (unZigZag u) prec = .ok x) (hlon : decodeOne (bs.drop k) = .error (f, o))
  | lonOutside (u k : Nat) (x : F64) (w m : Nat) (r : Refusal) (hlat : decodeOne bs = .ok (u, k))
      (hx : accumulate lat (unZigZag u) prec = .ok x) (hlon : decodeOne (bs.drop k) = .ok (w, m))
      (hy : accumulate lon (unZigZag w) prec = .error r)
  | point (u k : Nat) (x : F64) (w m : Nat) (y : F64) (hlat : decodeOne bs = .ok (u, k))
      (hx : accumulate lat (unZigZag u) prec = .ok x) (hlon : decodeOne (bs.drop k) = .ok (w, m))
      (hy : accumulate lon (unZigZag w) prec = .ok y)

theorem pointRow (prec lat lon : F64) (bs : List Byte) : PointRow prec lat lon bs := by
  cases hlat : decodeOne bs with
  | error e => exact .latFault _ _ hlat
  | ok r =>
    cases hx : accumulate lat (unZigZag r.1) prec with
    | error q => exact .latOutside _ _ q hlat hx
    | ok x =>
      cases hlon : decodeOne (bs.drop r.2) with
      | error e => exact .lonFault _ _ x _ _ hlat hx hlon
      | ok v =>
        cases hy : accumulate lon (unZigZag v.1) prec with
        | error q => exact .lonOutside _ _ x _ _ q hlat hx hlon hy
        | ok y => exact .point _ _ x _ _ y hlat hx hlon hy

section equations

variable {prec : F64} {c : Nat} {lat lon : F64} {bs : List Byte} (n : Nat) (hne : bs ≠ [])
include hne

theorem decodePoints_lat_fault {f : FaultKind} {o : Nat} (hlat : decodeOne bs = .error (f, o)) :
    decodePoints prec (n + 1) c lat lon bs = .error (.fault f (c + o)) := by
  simp [decodePoints, hne, hlat]

variable {u k : Nat} (hlat : decodeOne bs = .ok (u, k))
include hlat

theorem decodePoints_lat_outside {r : Refusal} (hx : accumulate lat (unZigZag u) prec = .error r) :
    decodePoints prec (n + 1) c lat lon bs = .error (.outside r) := by
  simp [decodePoints, hne, hlat, hx]

variable {x : F64} (hx : accumulate lat (unZigZag u) prec = .ok x)
include hx

theorem decodePoints_lon_fault {f : FaultKind} {o : Nat} (hlon : decodeOne (bs.drop k) = .error (f, o)) :
    decodePoints prec (n + 1) c lat lon bs = .error (.fault f (c + k + o)) := by
  simp [decodePoints, hne, hlat, hx, hlon]

variable {w m : Nat} (hlon : decodeOne (bs.drop k) = .ok (w, m))
include hlon

theorem decodePoints_lon_outside {r : Refusal} (hy : accumulate lon (unZigZag w) prec = .error r) :
    decodePoints prec (n + 1) c lat lon bs = .error (.outside r) := by
  simp [decodePoints, hne, hlat, hx, hlon, hy]

theorem decodePoints_point {y : F64} (hy : accumulate lon (unZigZag w) prec = .ok y) :
    decodePoints prec (n + 1) c lat lon bs = (decodePoints prec n (c + k + m) x y ((bs.drop k).drop m)).map (⟨x, y⟩ :: ·) := by
  rw [List.drop_drop]
  simp only [decodePoints, List.isEmpty_iff, hne, if_false, hlat, hx, hlon, hy]
  cases decodePoints prec n (c + k + m) x y (bs.drop (k + m)) <;> rfl

end equations

/-! ## One value -/

theorem bytesFromCursor_add (s : State) (k : Nat) : bytesFromCursor { s with cursor := s.cursor + k } = (bytesFromCursor s).drop k := by
  refine List.ext_getElem ?_ fun j _ _ => ?_
  · simp only [bytesFromCursor, List.length_map, List.length_range, List.length_drop]
    omega
  · simp only [bytesFromCursor, List.getElem_map, List.getElem_range, List.getElem_drop, Nat.add_assoc]
    rfl

theorem len_le_cursor {s : State} (h : bytesFromCursor s = []) : s.len ≤ s.cursor :=
  not_lt.mp fun hlt => by rw [bytesFromCursor_of_lt hlt] at h; cases h

/-- `s` after `DecodeValue` read `u` from `k` bytes (40 R113). -/
def valueDecoded (u k : Nat) (s : State) : State :=
  valueRead s (BitVec.ofNat 30 u) (BitVec.ofNat 5 (5 * k)) (BitVec.ofNat 3 k) (s.cursor + k)

section microSteps

variable {s : State} (hop : s.op = 7#4)
include hop

theorem microOp_decp : microOp s = decpOp s := by
  unfold microOp
  rw [hop]
  rfl

theorem isDecodeOp_decp : isDecodeOp s.op = true := by
  rw [hop]
  rfl

/-- Where `DECP` does not end at a boundary, its micro-step inside a value is a `ChunkStep` (43 R164: a longitude is begun without a test). -/
theorem blockStep_decp_accumulating (hc : s.cst = .accumulate) (hmore : s.phase = .lon ∨ s.cursor < s.len) :
    blockStep s = chunkStep s := by
  have hgo : ¬ (s.gcnt = 0#3 ∧ s.phase = .lat ∧ s.len ≤ s.cursor) := by
    rintro ⟨-, hlat, hle⟩
    exact hmore.elim (by rw [hlat]; decide) hle.not_gt
  rw [blockStep_eq, microOp_decp hop, decpOp, hc]
  dsimp only
  rw [if_neg hgo, chunkStep_eq]

theorem blockStep_decp_empty (hc : s.cst = .accumulate) (hg : s.gcnt = 0#3) (hp : s.phase = .lat) (hle : s.len ≤ s.cursor) :
    blockStep s = .next (finishOk 0#35 0#3 s) := by
  rw [blockStep_eq, microOp_decp hop, decpOp, hc]
  dsimp only
  rw [if_pos ⟨hg, hp, hle⟩]
  rfl

/-- At the end of a latitude value the step is `Accumulate` of it (43 R164). -/
theorem blockStep_valueDecoded_lat {u k : Nat} (hu : (valueDecoded u k s).acc.toNat = u) (hp : s.phase = .lat) :
    blockStep (valueDecoded u k s) = answer (valueDecoded u k s) ((accumulate s.latAcc (unZigZag u) s.prec).map .latValue) := by
  have hphase : (valueDecoded u k s).phase = .lat := hp
  rw [blockStep_eq, microOp_decp (s := valueDecoded u k s) hop, decpOp, hphase, hu]
  rfl

theorem blockStep_valueDecoded_lon {u k : Nat} (hu : (valueDecoded u k s).acc.toNat = u) (hp : s.phase = .lon) :
    blockStep (valueDecoded u k s) = answer (valueDecoded u k s) ((accumulate s.lonAcc (unZigZag u) s.prec).map .lonValue) := by
  have hphase : (valueDecoded u k s).phase = .lon := hp
  rw [blockStep_eq, microOp_decp (s := valueDecoded u k s) hop, decpOp, hphase, hu]
  rfl

variable (hmore : s.phase = .lon ∨ s.cursor < s.len)
include hmore

theorem reaches_of_decodeValue {t : State} (h : decodeValue s = .next t) : Reaches (chunkStart s) t :=
  reaches_of_chunkSteps (isDecodeOp_decp hop) (show (0#3) ≠ 7#3 by decide) (fun _ => blockStep_decp_accumulating hop rfl hmore) h

variable (hb : s.busy = true)
include hb

theorem decp_value_fault {f : FaultKind} {o : Nat} (hd : decodeOne (bytesFromCursor s) = .error (f, o)) :
    ∃ t, Reaches (chunkStart s) t ∧ EndedWith t f (s.cursor + o) := by
  have hvalue := decodeValueClosedForm s hb (isDecodeOp_decp hop)
  rw [hd] at hvalue
  obtain ⟨t, ht, hend, -⟩ := hvalue
  exact ⟨t, reaches_of_decodeValue hop hmore ht, hend⟩

theorem reaches_valueDecoded {u k : Nat} (hd : decodeOne (bytesFromCursor s) = .ok (u, k)) :
    Reaches (chunkStart s) (valueDecoded u k s) ∧ (valueDecoded u k s).acc.toNat = u := by
  have hvalue := decodeValueClosedForm s hb (isDecodeOp_decp hop)
  rw [hd] at hvalue
  obtain ⟨-, -, hu, ht⟩ := hvalue
  exact ⟨reaches_of_decodeValue hop hmore ht, Nat.mod_eq_of_lt hu⟩

end microSteps

/-! ## The points the host reads -/

theorem outElements_emit (e : Elem) (s : State) : outElements (emit e s) = outElements s ++ [some e] := by
  rw [outElements, emit_ocnt, emit_out, List.range_succ, List.map_append, List.map_singleton, spaceRead_spaceWrite_same, outElements]
  refine congrArg (· ++ _) (List.map_congr_left fun k hk => spaceRead_spaceWrite_other _ _ ?_)
  exact (List.mem_range.mp hk).ne

theorem outPoints_emit (p : Point) (s : State) : outPoints (emit (.point p) s) = outPoints s ++ [p] := by
  rw [outPoints, outElements_emit, List.filterMap_append]
  rfl

/-! ## One point -/

/-- `s` after a latitude value `u` of `k` bytes brought `LAT_ACC` to `x`, before the longitude value starts (43 R164). -/
def latTaken (x : F64) (u k : Nat) (s : State) : State := { valueDecoded u k s with latAcc := x, phase := .lon }

/-- `s` after a longitude value `w` of `m` bytes brought `LON_ACC` to `y`, and its point was emitted (43 R164). -/
def lonTaken (y : F64) (w m : Nat) (s : State) : State :=
  emit (.point ⟨s.latAcc, y⟩) { valueDecoded w m s with lonAcc := y, phase := .lat }

theorem bytesFromCursor_latTaken (x : F64) (u k : Nat) (s : State) : bytesFromCursor (latTaken x u k s) = (bytesFromCursor s).drop k :=
  bytesFromCursor_add s k

theorem bytesFromCursor_lonTaken (y : F64) (w m : Nat) (s : State) : bytesFromCursor (lonTaken y w m s) = (bytesFromCursor s).drop m :=
  bytesFromCursor_add s m

section point

variable {s : State} (hb : s.busy = true) (hop : s.op = 7#4) {u k : Nat} (hd : decodeOne (bytesFromCursor s) = .ok (u, k))
include hb hop hd

section latitude

variable (hp : s.phase = .lat) (hlt : s.cursor < s.len)
include hp hlt

theorem decp_lat_outside {r : Refusal} (ha : accumulate s.latAcc (unZigZag u) s.prec = .error r) : ReachesRefusal (chunkStart s) r := by
  obtain ⟨hreach, hacc⟩ := reaches_valueDecoded hop (.inr hlt) hb hd
  exact ⟨_, hreach, hb, by rw [blockStep_valueDecoded_lat hop hacc hp, ha]; rfl⟩

theorem reaches_latTaken {x : F64} (ha : accumulate s.latAcc (unZigZag u) s.prec = .ok x) :
    Reaches (chunkStart s) (chunkStart (latTaken x u k s)) := by
  obtain ⟨hreach, hacc⟩ := reaches_valueDecoded hop (.inr hlt) hb hd
  exact hreach.tail ⟨hb, by rw [blockStep_valueDecoded_lat hop hacc hp, ha]; rfl⟩

end latitude

section longitude

variable (hp : s.phase = .lon)
include hp

theorem decp_lon_outside {r : Refusal} (ha : accumulate s.lonAcc (unZigZag u) s.prec = .error r) : ReachesRefusal (chunkStart s) r := by
  obtain ⟨hreach, hacc⟩ := reaches_valueDecoded hop (.inl hp) hb hd
  exact ⟨_, hreach, hb, by rw [blockStep_valueDecoded_lon hop hacc hp, ha]; rfl⟩

theorem reaches_lonTaken {y : F64} (ha : accumulate s.lonAcc (unZigZag u) s.prec = .ok y) :
    Reaches (chunkStart s) (nextValue (lonTaken y u k s)) := by
  obtain ⟨hreach, hacc⟩ := reaches_valueDecoded hop (.inl hp) hb hd
  exact hreach.tail ⟨hb, by rw [blockStep_valueDecoded_lon hop hacc hp, ha]; rfl⟩

end longitude

end point

/-! ## The string -/

/-- How a `DECP` between two points ends, by what the closed form gives for the bytes that are left. -/
def DecpEnds (s : State) : Except DecodeStop (List Point) → Prop
  | .ok ps => ∃ t, Reaches (nextValue s) t ∧ EndedOk t 0#35 0 (s.ocnt + ps.length) ∧ outPoints t = outPoints s ++ ps
  | .error (.fault f i) => ∃ t, Reaches (nextValue s) t ∧ EndedWith t f i
  | .error (.outside r) => ReachesRefusal (nextValue s) r

theorem decpEnds_nil {s : State} (h : bytesFromCursor s = []) : DecpEnds s (.ok []) := by
  refine ⟨nextValue s, .refl, ?_⟩
  rw [nextValue_of_le (len_le_cursor h), List.append_nil]
  exact ⟨⟨rfl, rfl, rfl, rfl, rfl, rfl⟩, rfl⟩

/-- The point that was emitted comes before what is decoded after it. -/
theorem DecpEnds.of_lonTaken {s x : State} {y : F64} {w m : Nat} {d : Except DecodeStop (List Point)} (h : DecpEnds (lonTaken y w m x) d)
    (hocnt : x.ocnt = s.ocnt) (hout : x.out = s.out) (hreach : Reaches (nextValue s) (nextValue (lonTaken y w m x))) :
    DecpEnds s (d.map (⟨x.latAcc, y⟩ :: ·)) := by
  have hpoints : outPoints (lonTaken y w m x) = outPoints s ++ [⟨x.latAcc, y⟩] := by
    rw [lonTaken, outPoints_emit, outPoints, outElements, outPoints, outElements, ← hocnt, ← hout]
    rfl
  match d, h with
  | .ok ps, ⟨t, ht, hend, hps⟩ =>
    refine ⟨t, hreach.trans ht, ?_, ?_⟩
    · rw [List.length_cons, Nat.add_comm ps.length, ← Nat.add_assoc, ← hocnt]
      exact hend
    · rw [hps, hpoints, List.append_assoc, List.singleton_append]
  | .error (.fault f i), ⟨t, ht, hend⟩ => exact ⟨t, hreach.trans ht, hend⟩
  | .error (.outside r), h => exact h.of_reaches hreach

theorem decpEnds {n : Nat} {s : State} (hb : s.busy = true) (hop : s.op = 7#4) (hp : s.phase = .lat)
    (hn : (bytesFromCursor s).length ≤ n) :
    DecpEnds s (decodePoints s.prec n s.cursor s.latAcc s.lonAcc (bytesFromCursor s)) := by
  induction n generalizing s with
  | zero => exact decpEnds_nil (List.length_eq_zero_iff.mp (Nat.le_zero.mp hn))
  | succ n ih =>
    by_cases hne : bytesFromCursor s = []
    · rw [hne, decodePoints_nil]
      exact decpEnds_nil hne
    have hlt : s.cursor < s.len := not_le.mp (mt bytesFromCursor_of_le hne)
    have hstart : Reaches (nextValue s) (chunkStart s) := nextValue_of_lt hlt ▸ .refl
    cases pointRow s.prec s.latAcc s.lonAcc (bytesFromCursor s) with
    | latFault f o hlat =>
      obtain ⟨t, ht, hend⟩ := decp_value_fault hop (.inr hlt) hb hlat
      rw [decodePoints_lat_fault n hne hlat]
      exact ⟨t, hstart.trans ht, hend⟩
    | latOutside u k r hlat hx =>
      rw [decodePoints_lat_outside n hne hlat hx]
      exact (decp_lat_outside hb hop hlat hp hlt hx).of_reaches hstart
    | lonFault u k x f o hlat hx hlon =>
      have hreach := hstart.trans (reaches_latTaken hb hop hlat hp hlt hx)
      rw [decodePoints_lon_fault n hne hlat hx hlon]
      rw [← bytesFromCursor_latTaken x u] at hlon
      obtain ⟨t, ht, hend⟩ := decp_value_fault (s := latTaken x u k s) hop (.inl rfl) hb hlon
      exact ⟨t, hreach.trans ht, hend⟩
    | lonOutside u k x w m r hlat hx hlon hy =>
      have hreach := hstart.trans (reaches_latTaken hb hop hlat hp hlt hx)
      rw [decodePoints_lon_outside n hne hlat hx hlon hy]
      rw [← bytesFromCursor_latTaken x u] at hlon
      exact (decp_lon_outside (s := latTaken x u k s) hb hop hlon rfl hy).of_reaches hreach
    | point u k x w m y hlat hx hlon hy =>
      obtain ⟨hk, -⟩ := decodeOne_length hlat
      have hreach := hstart.trans (reaches_latTaken hb hop hlat hp hlt hx)
      have hrest := bytesFromCursor_lonTaken y w m (latTaken x u k s)
      rw [decodePoints_point n hne hlat hx hlon hy]
      rw [← bytesFromCursor_latTaken x u] at hlon ⊢
      rw [← hrest]
      have hroom : (bytesFromCursor (lonTaken y w m (latTaken x u k s))).length ≤ n := by
        rw [hrest, bytesFromCursor_latTaken, List.length_drop, List.length_drop]
        omega
      exact (ih (s := lonTaken y w m (latTaken x u k s)) hb hop rfl hroom).of_lonTaken rfl rfl
        (hreach.trans (reaches_lonTaken (s := latTaken x u k s) hb hop hlon rfl hy))

/-- From command start on, `DECP` is at its first boundary (43 R163). -/
theorem reaches_nextValue_commandStart (psel : Bool) (s : State) :
    Reaches (commandStart (.decp psel) s) (nextValue (commandStart (.decp psel) s)) := by
  rcases Nat.eq_zero_or_pos s.inLen with h0 | hpos
  · have hle : s.inLen ≤ 0 := h0.le
    rw [nextValue_of_le (s := commandStart (.decp psel) s) hle]
    exact .step rfl (blockStep_decp_empty (cmdOpc_encode_decp psel) rfl rfl rfl hle)
  · rw [nextValue_of_lt (s := commandStart (.decp psel) s) hpos]
    exact .refl

theorem length_inputBytes (s : State) : (inputBytes s).length = s.inLen := by
  rw [inputBytes, List.length_map, List.length_range]

/-- Settles O38: the points one by one, from the accumulators that command start sets. -/
theorem decpDecodesPoints : Obligations.DecpDecodesPoints := by
  refine fun psel s hb => ⟨fun hp => exec_refused_of_precision rfl hb hp, fun hp => ?_⟩
  have hs : startable (.decp psel) s = none := (startable_none_iff _ s).mpr ⟨hb, hp⟩
  have hbytes := bytesFromCursor_commandStart (.decp psel) s
  have hroom : (bytesFromCursor (commandStart (.decp psel) s)).length ≤ s.inLen := by rw [hbytes, length_inputBytes]
  have hends := decpEnds (s := commandStart (.decp psel) s) rfl (cmdOpc_encode_decp psel) rfl hroom
  have hfirst := reaches_nextValue_commandStart psel s
  rw [hbytes] at hends
  change DecpEnds _ (decodePoints (precisionOf psel s) s.inLen 0 0#64 0#64 (inputBytes s)) at hends
  generalize decodePoints (precisionOf psel s) s.inLen 0 0#64 0#64 (inputBytes s) = d at hends
  match d, hends with
  | .ok ps, ⟨t, ht, hend, hps⟩ =>
    rw [commandStart_ocnt, Nat.zero_add] at hend
    exact ⟨t, exec_of_reaches rfl hs (hfirst.trans ht) hend.1, hend, hps⟩
  | .error (.fault f i), ⟨t, ht, hend⟩ => exact ⟨t, exec_of_reaches rfl hs (hfirst.trans ht) hend.1, hend⟩
  | .error (.outside r), h => exact exec_refused_of_reaches rfl hs (h.of_reaches hfirst)

end Sys2Proof.Machine
end

section
/-! SUPPORT. A coordinate string read as its values (30 R87, 43 R166): the points take the values two by two, and the first fault is the same. -/

namespace Sys2Proof.Machine

/-! ## The values of a string -/

theorem decodeMany_nil (n c : Nat) : decodeMany n c [] = .ok [] := by cases n <;> rfl

section equations

variable {n : Nat} (c : Nat) {bs : List Byte} (hne : bs ≠ []) (hn : bs.length ≤ n)
include hne hn

theorem exists_fuel : ∃ m, n = m + 1 := Nat.exists_eq_add_one.mpr ((List.length_pos_iff.mpr hne).trans_le hn)

theorem decodeMany_error {f : FaultKind} {o : Nat} (h : decodeOne bs = .error (f, o)) :
    decodeMany n c bs = .error (f, c + o) := by
  obtain ⟨n, rfl⟩ := exists_fuel hne hn
  simp [decodeMany, hne, h]

theorem decodeMany_value {u k : Nat} (h : decodeOne bs = .ok (u, k)) :
    decodeMany n c bs = (decodeMany (n - 1) (c + k) (bs.drop k)).map (u :: ·) := by
  obtain ⟨n, rfl⟩ := exists_fuel hne hn
  simp only [decodeMany, List.isEmpty_iff, hne, if_false, h, Nat.add_sub_cancel]
  cases decodeMany n (c + k) (bs.drop k) <;> rfl

end equations

/-! ## The points of the values -/

/-- With the precision in its domain, `Accumulate` is refused for U5 only (42 R145). -/
theorem accumulate_error {acc p : F64} {d : Int} {r : Refusal} (hp : precisionOk p = true) (h : accumulate acc d p = .error r) :
    r = .accumulatorNotFinite := by
  rw [accumulate, hp] at h
  split at h
  · contradiction
  · split at h
    · cases h; rfl
    · split at h
      · cases h; rfl
      · cases h

/-- What the points `d` of a string that ends at `stop` are by its values: the same fault, a lone latitude, or half as many points. -/
def PointsOf (stop : Nat) (d : Except DecodeStop (List Point)) : Except (FaultKind × Nat) (List Nat) → Prop
  | .error (f, i) => d = .error (.fault f i)
  | .ok us => (us.length % 2 = 1 ∧ d = .error (.fault .truncatedChunk stop)) ∨ ∃ ps, us.length = 2 * ps.length ∧ d = .ok ps

/-- A point more is two values more. -/
theorem PointsOf.cons {stop : Nat} {d : Except DecodeStop (List Point)} {vs : Except (FaultKind × Nat) (List Nat)} (h : PointsOf stop d vs)
    (p : Point) (u w : Nat) : PointsOf stop (d.map (p :: ·)) ((vs.map (w :: ·)).map (u :: ·)) := by
  match vs, h with
  | .error (f, i), h => exact congrArg (Except.map (p :: ·)) h
  | .ok us, .inl ⟨hodd, h⟩ =>
    refine .inl ⟨?_, congrArg (Except.map (p :: ·)) h⟩
    rw [List.length_cons, List.length_cons]
    omega
  | .ok us, .inr ⟨ps, hlen, h⟩ =>
    refine .inr ⟨p :: ps, ?_, congrArg (Except.map (p :: ·)) h⟩
    rw [List.length_cons, List.length_cons, List.length_cons]
    omega

/-- `decodePoints` against `decodeMany`: up to U5, both stop at the same fault, and a string of good values has a point for every two. -/
theorem decodePoints_of_values {prec : F64} (hp : precisionOk prec = true) {n m c : Nat} {lat lon : F64} {bs : List Byte}
    (hn : bs.length ≤ n) (hm : bs.length ≤ m) :
    decodePoints prec n c lat lon bs = .error (.outside .accumulatorNotFinite) ∨
      PointsOf (c + bs.length) (decodePoints prec n c lat lon bs) (decodeMany m c bs) := by
  induction n generalizing m c lat lon bs with
  | zero =>
    obtain rfl := List.length_eq_zero_iff.mp (Nat.le_zero.mp hn)
    rw [decodeMany_nil]
    exact .inr (.inr ⟨[], rfl, rfl⟩)
  | succ n ih =>
    by_cases hne : bs = []
    · rw [hne, decodePoints_nil, decodeMany_nil]
      exact .inr (.inr ⟨[], rfl, rfl⟩)
    have hrest : ∀ k, (bs.drop k).length = bs.length - k := fun k => List.length_drop
    cases pointRow prec lat lon bs with
    | latFault f o hlat =>
      rw [decodePoints_lat_fault n hne hlat, decodeMany_error c hne hm hlat]
      exact .inr rfl
    | latOutside u k r hlat hx => exact .inl (accumulate_error hp hx ▸ decodePoints_lat_outside n hne hlat hx)
    | lonFault u k x f o hlat hx hlon =>
      obtain ⟨hk, hkle⟩ := decodeOne_length hlat
      rw [decodePoints_lon_fault n hne hlat hx hlon, decodeMany_value c hne hm hlat]
      by_cases hnil : bs.drop k = []
      · have hend : bs.length = k := hkle.antisymm' (List.drop_eq_nil_iff.mp hnil)
        rw [hnil, decodeOne_nil] at hlon
        cases hlon
        rw [hnil, decodeMany_nil, hend]
        exact .inr (.inl ⟨rfl, rfl⟩)
      · rw [decodeMany_error (c + k) hnil (by rw [hrest]; omega) hlon]
        exact .inr rfl
    | lonOutside u k x w j r hlat hx hlon hy => exact .inl (accumulate_error hp hy ▸ decodePoints_lon_outside n hne hlat hx hlon hy)
    | point u k x w j y hlat hx hlon hy =>
      obtain ⟨hk, hkle⟩ := decodeOne_length hlat
      obtain ⟨hj, hjle⟩ := decodeOne_length hlon
      rw [hrest] at hjle
      have hnil : bs.drop k ≠ [] := List.length_pos_iff.mp (by rw [hrest]; omega)
      have hleft : ((bs.drop k).drop j).length = bs.length - k - j := by rw [List.length_drop, hrest]
      have hstop : c + k + j + ((bs.drop k).drop j).length = c + bs.length := by omega
      rw [decodePoints_point n hne hlat hx hlon hy, decodeMany_value c hne hm hlat,
        decodeMany_value (c + k) hnil (by rw [hrest]; omega) hlon, ← hstop]
      rcases ih (m := m - 1 - 1) (c := c + k + j) (lat := x) (lon := y) (bs := (bs.drop k).drop j) (by omega) (by omega) with h | h
      · exact .inl (congrArg (Except.map (⟨x, y⟩ :: ·)) h)
      · exact .inr (h.cons _ u w)

/-! ## `DECP` by the values of its string -/

section command

variable {psel : Bool} {s : State} (hb : s.busy = false) (hp : precisionOk (precisionOf psel s) = true)
include hb hp

theorem exec_decp_of_values :
    exec (.decp psel) s = .refused .accumulatorNotFinite ∨
      PointsOf s.inLen (decodePoints (precisionOf psel s) s.inLen 0 0#64 0#64 (inputBytes s)) (decodeAll (inputBytes s)) := by
  have hlen := length_inputBytes s
  rw [decodeAll, hlen]
  rcases decodePoints_of_values hp (c := 0) (lat := 0#64) (lon := 0#64) hlen.le hlen.le with h | h
  · have hpoints := (decpDecodesPoints psel s hb).2 hp
    rw [h] at hpoints
    exact .inl hpoints
  · rw [Nat.zero_add, hlen] at h
    exact .inr h

/-- A string with a fault in its values ends a `DECP` with that fault (43 R165). -/
theorem exec_decp_of_fault {f : FaultKind} {i : Nat} (h : decodeAll (inputBytes s) = .error (f, i)) :
    exec (.decp psel) s = .refused .accumulatorNotFinite ∨ ∃ t, exec (.decp psel) s = .next t ∧ EndedWith t f i := by
  refine (exec_decp_of_values hb hp).imp_right fun hvalues => ?_
  have hpoints := (decpDecodesPoints psel s hb).2 hp
  rw [h] at hvalues
  rwa [show decodePoints _ _ _ _ _ _ = _ from hvalues] at hpoints

/-- 43 R166. -/
theorem exec_decp_of_odd {us : List Nat} (h : decodeAll (inputBytes s) = .ok us) (hodd : us.length % 2 = 1) :
    exec (.decp psel) s = .refused .accumulatorNotFinite ∨
      ∃ t, exec (.decp psel) s = .next t ∧ EndedWith t .truncatedChunk s.inLen := by
  refine (exec_decp_of_values hb hp).imp_right fun hvalues => ?_
  have hpoints := (decpDecodesPoints psel s hb).2 hp
  rw [h] at hvalues
  rcases hvalues with ⟨-, hd⟩ | ⟨ps, hlen, -⟩
  · rwa [hd] at hpoints
  · omega

theorem exec_decp_of_even {us : List Nat} {n : Nat} (h : decodeAll (inputBytes s) = .ok us) (heven : us.length = 2 * n) :
    exec (.decp psel) s = .refused .accumulatorNotFinite ∨ ∃ t, exec (.decp psel) s = .next t ∧ EndedOk t 0#35 0 n := by
  refine (exec_decp_of_values hb hp).imp_right fun hvalues => ?_
  have hpoints := (decpDecodesPoints psel s hb).2 hp
  rw [h] at hvalues
  rcases hvalues with ⟨hodd, -⟩ | ⟨ps, hlen, hd⟩
  · omega
  · obtain rfl : n = ps.length := by omega
    rw [hd] at hpoints
    obtain ⟨t, ht, hend, -⟩ := hpoints
    exact ⟨t, ht, hend⟩

end command

/-- `?` is the latitude delta 0, whatever the precision. -/
theorem decodePoints_question {prec : F64} (hp : precisionOk prec = true) :
    decodePoints prec 1 0 0#64 0#64 [63#8] = .error (.fault .truncatedChunk 1) :=
  decodePoints_lon_fault 0 (List.cons_ne_nil _ _) (show decodeOne [63#8] = .ok (0, 1) by decide) (accumulate_zero accumulatorOk_zero hp) decodeOne_nil

/-- Settles O44: an odd number of values leaves a latitude alone, and `?` is one that no precision takes outside the domain. -/
theorem loneLatitudeIsTruncated : Obligations.LoneLatitudeIsTruncated := by
  refine ⟨fun psel s us hb hp h hodd => exec_decp_of_odd hb hp h hodd, fun s hb hin => ?_⟩
  have hlen : s.inLen = 1 := by rw [← length_inputBytes, hin]; rfl
  have hp : precisionOk (precisionOf false s) = true := precisionOk_default
  have hpoints := (decpDecodesPoints false s hb).2 hp
  rwa [hin, hlen, decodePoints_question hp] at hpoints

end Sys2Proof.Machine
end

section
/-! SUPPORT. The integer round trip of coordinates (43 R168): the values of a string of chunk sequences, and `DECP` of `ENCP`. -/

namespace Sys2Proof.Machine

/-! ## The values of chunk sequences one after another -/

theorem chunkLength_pos (u : Nat) : 0 < chunkLength u := by
  rw [chunkLength_eq]
  exact Nat.succ_pos _

theorem chunkBytes_append_ne_nil (u : Nat) (rest : List Byte) : chunkBytes u ++ rest ≠ [] := by
  have hpos : 0 < (chunkBytes u ++ rest).length := by
    rw [List.length_append, chunkBytes_length]
    exact Nat.add_pos_left (chunkLength_pos u) _
  exact List.length_pos_iff.mp hpos

section sequence

variable {n : Nat} (c : Nat) {u : Nat} {rest : List Byte} (hn : (chunkBytes u ++ rest).length ≤ n)
include hn

theorem decodeMany_chunkBytes_append (h : chunkLength u ≤ 6) :
    decodeMany n c (chunkBytes u ++ rest) = (decodeMany (n - 1) (c + chunkLength u) rest).map (u :: ·) := by
  rw [decodeMany_value c (chunkBytes_append_ne_nil u rest) hn (decodeOne_chunkBytes u rest h), List.drop_left' (chunkBytes_length u)]

theorem length_rest_le : rest.length ≤ n - 1 := by
  have hpos := chunkLength_pos u
  rw [List.length_append, chunkBytes_length] at hn
  omega

end sequence

theorem decodeMany_flatMap {us : List Nat} (h : ∀ u ∈ us, chunkLength u ≤ 6) {n : Nat} (hn : (us.flatMap chunkBytes).length ≤ n)
    (c : Nat) : decodeMany n c (us.flatMap chunkBytes) = .ok us := by
  induction us generalizing n c with
  | nil => exact decodeMany_nil n c
  | cons u us ih =>
    obtain ⟨hu, hus⟩ := List.forall_mem_cons.mp h
    rw [List.flatMap_cons] at hn ⊢
    rw [decodeMany_chunkBytes_append c hn hu, ih hus (length_rest_le hn)]
    rfl

/-- The first value of seven groups is a fault of the string (40 R115). -/
theorem decodeMany_flatMap_long {us : List Nat} (h : ∀ u ∈ us, chunkLength u ≤ 7) (hlong : ∃ u ∈ us, ¬ chunkLength u ≤ 6) {n : Nat}
    (hn : (us.flatMap chunkBytes).length ≤ n) (c : Nat) : ∃ i, decodeMany n c (us.flatMap chunkBytes) = .error (.overflowChunk, i) := by
  induction us generalizing n c with
  | nil => obtain ⟨u, hu, -⟩ := hlong; cases hu
  | cons u us ih =>
    obtain ⟨hu, hus⟩ := List.forall_mem_cons.mp h
    rw [List.flatMap_cons] at hn ⊢
    by_cases hshort : chunkLength u ≤ 6
    · have hrest := ((List.exists_mem_cons_iff ..).mp hlong).resolve_left (not_not_intro hshort)
      obtain ⟨i, hi⟩ := ih hus hrest (length_rest_le hn) (c + chunkLength u)
      exact ⟨i, by rw [decodeMany_chunkBytes_append c hn hshort, hi]; rfl⟩
    · exact ⟨c + 6, decodeMany_error c (chunkBytes_append_ne_nil u _) hn (decodeOne_chunkBytes_long u _ (by omega))⟩

/-! ## Deltas in and out of the decoder's range -/

theorem coordinateString_eq_flatMap (ps : List (Int × Int)) :
    coordinateString ps = ((deltasFrom (0, 0) ps).map zigZag).flatMap chunkBytes :=
  (List.flatMap_map ..).symm

/-- A delta has six groups at most exactly in the range of 43 R168. -/
theorem chunkLength_zigZag_le_iff (d : Int) : chunkLength (zigZag d) ≤ 6 ↔ -2 ^ 29 ≤ d ∧ d ≤ 2 ^ 29 - 1 := by
  rw [chunkLength_le_iff (by decide)]
  refine ⟨fun h => ?_, fun ⟨hlow, hhigh⟩ => zigZag_lt (n := 2 ^ 29) hlow (Int.lt_of_le_sub_one hhigh)⟩
  obtain ⟨hlow, hhigh⟩ := unZigZag_range (n := 2 ^ 29) h
  rw [unZigZag_zigZag] at hlow hhigh
  exact ⟨hlow, Int.le_sub_one_of_lt hhigh⟩

section strings

variable {ps : List (Int × Int)}

theorem decodeAll_coordinateString (h : ∀ d ∈ deltasFrom (0, 0) ps, -2 ^ 29 ≤ d ∧ d ≤ 2 ^ 29 - 1) :
    decodeAll (coordinateString ps) = .ok ((deltasFrom (0, 0) ps).map zigZag) := by
  rw [coordinateString_eq_flatMap]
  refine decodeMany_flatMap (List.forall_mem_map.mpr fun d hd => ?_) le_rfl 0
  exact (chunkLength_zigZag_le_iff d).mpr (h d hd)

theorem decodeAll_coordinateString_long (hps : ∀ p ∈ ps, PairFits p) (h : ∃ d ∈ deltasFrom (0, 0) ps, d < -2 ^ 29 ∨ 2 ^ 29 - 1 < d) :
    ∃ i, decodeAll (coordinateString ps) = .error (.overflowChunk, i) := by
  obtain ⟨d, hd, hout⟩ := h
  have hlong : ¬ chunkLength (zigZag d) ≤ 6 := fun hle => by
    obtain ⟨hlow, hhigh⟩ := (chunkLength_zigZag_le_iff d).mp hle
    omega
  rw [coordinateString_eq_flatMap]
  refine decodeMany_flatMap_long (List.forall_mem_map.mpr fun d hd => ?_) ⟨_, List.mem_map_of_mem hd, hlong⟩ le_rfl 0
  have hlt := zigZag_deltasFrom_lt (prev := (0, 0)) ⟨by decide, by decide⟩ hps d hd
  exact (chunkLength_le_iff (by decide)).mpr (hlt.trans (by decide))

end strings

/-! ## The commands -/

theorem exec_encp_next {psel : Bool} {s t : State} {ps : List (Int × Int)} (h : exec (.encp psel) s = .next t)
    (hps : scaledPairs (precisionOf psel s) (inputPoints s) = .ok ps) :
    precisionOk (precisionOf psel s) = true ∧ outBytes t = coordinateString ps := by
  obtain ⟨hb, hp, -⟩ := exec_next rfl h
  have hend := (encpEncodesPoints psel s hb).2 hp
  rw [hps] at hend
  obtain ⟨t', ht', -, hout⟩ := hend
  cases h.symm.trans ht'
  exact ⟨hp, hout⟩

/-- Settles O42: the values of what `ENCP` emitted are the zigzags of the deltas, and `DECP` ends by these values. -/
theorem coordinatesRoundTrip : Obligations.CoordinatesRoundTrip := by
  intro psel psel' s t s' ps henc hps hb hin hprec
  obtain ⟨hp, hout⟩ := exec_encp_next henc hps
  obtain ⟨hlen, hfits⟩ := scaledPairs_fit hps
  rw [← hprec] at hp
  rw [hout] at hin ⊢
  refine ⟨fun hrange => ?_, fun hlong => ?_⟩
  · have hvalues := decodeAll_coordinateString hrange
    have hcount : ((deltasFrom (0, 0) ps).map zigZag).length = 2 * s.inLen := by
      rw [List.length_map, length_deltasFrom, hlen, inputPoints, List.length_map, List.length_range]
    refine ⟨⟨_, hvalues, ?_⟩, ?_⟩
    · rw [List.map_map]
      exact (List.map_congr_left fun d _ => unZigZag_zigZag d).trans (List.map_id _)
    · refine (exec_decp_of_even hb hp (hin ▸ hvalues) hcount).imp_right ?_
      rintro ⟨t', ht', -, hstatus, -, -, -, hocnt⟩
      exact ⟨t', ht', hstatus, hocnt⟩
  · obtain ⟨i, hfault⟩ := decodeAll_coordinateString_long hfits hlong
    refine (exec_decp_of_fault hb hp (hin ▸ hfault)).imp_right ?_
    rintro ⟨t', ht', -, hstatus, -, -, -, hocnt⟩
    exact ⟨t', ht', hstatus, hocnt⟩

end Sys2Proof.Machine
end

section
/-! SUPPORT. `ENCL` (44 R180): one level at a time, and the list by induction on the number of levels that are left. -/

namespace Sys2Proof.Machine

/-! ## The levels that are left -/

/-- The next `n` levels from `CURSOR` on. -/
def nextLevels (n : Nat) (s : State) : List Level := (List.range' s.cursor n).map (levelAt s)

theorem nextLevels_commandStart (i : Instr) (s : State) : nextLevels s.inLen (commandStart i s) = inputLevels s := by
  rw [inputLevels, List.range_eq_range']
  rfl

theorem levelsString_cons (l : Level) (ls : List Level) : levelsString (l :: ls) = chunkBytes l.toNat ++ levelsString ls :=
  List.flatMap_cons

/-! ## One level -/

/-- `s` after the level `l` (44 R180). -/
def levelEncoded (l : Level) (s : State) : State :=
  { s with v := 0#35, est := .idle, cursor := s.cursor + 1, out := spaceAppend s.out s.ocnt (chunkBytes l.toNat),
           ocnt := s.ocnt + chunkLength l.toNat }

/-- The level that was encoded comes before the ones that are left after it. -/
theorem nextLevels_succ (n : Nat) (l : Level) (s : State) :
    nextLevels (n + 1) s = levelAt s s.cursor :: nextLevels n (levelEncoded l s) := rfl

section microSteps

variable {s : State} (hop : s.op = 8#4)
include hop

theorem blockStep_encl : blockStep s = .next ((enclOp s).perform s) := by
  rw [blockStep_eq, microOp_encl hop, answer_ok]

theorem blockStep_encl_load (he : s.est = .idle) (hlt : s.cursor < s.len) :
    blockStep s = .next (encodeStart ((levelAt s s.cursor).setWidth 35) s) := by
  rw [blockStep_encl hop, enclOp, he]
  dsimp only
  rw [if_pos hlt]
  rfl

theorem blockStep_encl_finish (he : s.est = .idle) (hle : s.len ≤ s.cursor) : blockStep s = .next (finishOk 0#35 0#3 s) := by
  rw [blockStep_encl hop, enclOp, he]
  dsimp only
  rw [if_neg hle.not_gt]
  rfl

/-- The level is encoded as its own value, zero-extended to `V`'s width (44 R180). -/
theorem reaches_levelEncoded (hb : s.busy = true) (he : s.est = .idle) (hlt : s.cursor < s.len) :
    Reaches s (levelEncoded (levelAt s s.cursor) s) := by
  have hvalue := reaches_encodeValue (u := (levelAt s s.cursor).setWidth 35) hb (.inr (.inr hop))
  rw [encodeValue_eq_chunkBytes, BitVec.toNat_setWidth_of_le (by decide)] at hvalue
  exact .head ⟨hb, blockStep_encl_load hop he hlt⟩ (hvalue.tail ⟨hb, blockStep_encl hop⟩)

end microSteps

/-! ## The list -/

theorem encl_ends {n : Nat} {s : State} (hb : s.busy = true) (hop : s.op = 8#4) (he : s.est = .idle) (hn : s.len = s.cursor + n) :
    ∃ t, Reaches s t ∧ EndedOk t 0#35 0 (s.ocnt + (levelsString (nextLevels n s)).length) ∧
      t.out = spaceAppend s.out s.ocnt (levelsString (nextLevels n s)) := by
  induction n generalizing s with
  | zero => exact ⟨_, .step hb (blockStep_encl_finish hop he hn.le), ⟨rfl, rfl, rfl, rfl, rfl, rfl⟩, rfl⟩
  | succ n ih =>
    have hlevel := reaches_levelEncoded hop hb he (by omega)
    have hleft : s.len = s.cursor + 1 + n := by omega
    obtain ⟨t, ht, hend, hout⟩ := ih (s := levelEncoded (levelAt s s.cursor) s) hb hop rfl hleft
    rw [nextLevels_succ n (levelAt s s.cursor), levelsString_cons, List.length_append, spaceAppend_append, chunkBytes_length,
      ← Nat.add_assoc]
    exact ⟨t, hlevel.trans ht, hend, hout⟩

/-- Settles O39: the levels one by one, from command start on. -/
theorem enclEncodesLevels : Obligations.EnclEncodesLevels := by
  intro s hb
  obtain ⟨t, ht, hend, hout⟩ := encl_ends (n := s.inLen) (s := commandStart .encl s) rfl rfl rfl (Nat.zero_add _).symm
  rw [nextLevels_commandStart, commandStart_ocnt] at hend hout
  rw [Nat.zero_add] at hend
  have ⟨hidle, _, _, _, _, hocnt⟩ := hend
  exact ⟨t, exec_of_reaches rfl (startable_of_idle rfl hb) ht hidle, hend, outBytes_eq hout hocnt⟩

end Sys2Proof.Machine
end

section
/-! SUPPORT. `DECL` (44 R181): one value, and the string by induction on the bound of its values. -/

namespace Sys2Proof.Machine

/-! ## One level -/

theorem outLevels_emit (l : Level) (s : State) : outLevels (emit (.level l) s) = outLevels s ++ [l] := by
  rw [outLevels, outElements_emit, List.filterMap_append]
  rfl

/-- `s` after a value `u` of `k` bytes was emitted as a level (44 R181). -/
def levelTaken (u k : Nat) (s : State) : State := emit (.level (BitVec.ofNat 32 u)) (valueDecoded u k s)

theorem bytesFromCursor_levelTaken (u k : Nat) (s : State) : bytesFromCursor (levelTaken u k s) = (bytesFromCursor s).drop k :=
  bytesFromCursor_add s k

theorem outLevels_levelTaken (u k : Nat) (s : State) : outLevels (levelTaken u k s) = outLevels s ++ [BitVec.ofNat 32 u] :=
  outLevels_emit _ (valueDecoded u k s)

section microSteps

variable {s : State} (hop : s.op = 9#4)
include hop

theorem blockStep_decl : blockStep s = declStep s := by
  rw [blockStep, hop]
  rfl

theorem isDecodeOp_decl : isDecodeOp s.op = true := by
  rw [hop]
  rfl

theorem blockStep_decl_empty (hc : s.cst = .accumulate) (hg : s.gcnt = 0#3) (hle : s.len ≤ s.cursor) :
    blockStep s = .next (finishOk 0#35 0#3 s) := by
  rw [blockStep_decl hop, declStep, hc]
  exact if_pos ⟨hg, hle⟩

/-- The value of 30 bits is the level, zero-extended, and the next value starts if a byte is left (44 R181). -/
theorem blockStep_valueDecoded_decl {u k : Nat} (hu : u < 2 ^ 30) : blockStep (valueDecoded u k s) = .next (nextValue (levelTaken u k s)) := by
  have hlevel : (valueDecoded u k s).acc.setWidth 32 = BitVec.ofNat 32 u := BitVec.setWidth_ofNat_of_le_of_lt (by decide) hu
  rw [levelTaken, ← hlevel]
  exact blockStep_decl (s := valueDecoded u k s) hop

variable (hlt : s.cursor < s.len)
include hlt

theorem reaches_of_decodeValue_decl {t : State} (h : decodeValue s = .next t) : Reaches (nextValue s) t := by
  have hdec := isDecodeOp_decl hop
  rw [nextValue_of_lt hlt]
  exact reaches_of_chunkSteps hdec (show (0#3) ≠ 7#3 by decide) (fun _ => blockStep_accumulating hdec rfl hlt) h

variable (hb : s.busy = true)
include hb

theorem decl_value_fault {f : FaultKind} {o : Nat} (hd : decodeOne (bytesFromCursor s) = .error (f, o)) :
    ∃ t, Reaches (nextValue s) t ∧ EndedWith t f (s.cursor + o) := by
  have hvalue := decodeValueClosedForm s hb (isDecodeOp_decl hop)
  rw [hd] at hvalue
  obtain ⟨t, ht, hend, -⟩ := hvalue
  exact ⟨t, reaches_of_decodeValue_decl hop hlt ht, hend⟩

theorem reaches_levelTaken {u k : Nat} (hd : decodeOne (bytesFromCursor s) = .ok (u, k)) :
    1 ≤ k ∧ u < 2 ^ 30 ∧ Reaches (nextValue s) (nextValue (levelTaken u k s)) := by
  have hvalue := decodeValueClosedForm s hb (isDecodeOp_decl hop)
  rw [hd] at hvalue
  obtain ⟨hk, -, hu, ht⟩ := hvalue
  exact ⟨hk, hu, (reaches_of_decodeValue_decl hop hlt ht).tail ⟨hb, blockStep_valueDecoded_decl hop hu⟩⟩

end microSteps

/-! ## The string -/

/-- How a `DECL` between two values ends, by the values of the bytes that are left. -/
def DeclEnds (s : State) : Except (FaultKind × Nat) (List Nat) → Prop
  | .ok us => (∀ u ∈ us, u < 2 ^ 30) ∧
      ∃ t, Reaches (nextValue s) t ∧ EndedOk t 0#35 0 (s.ocnt + us.length) ∧ outLevels t = outLevels s ++ us.map (BitVec.ofNat 32)
  | .error (f, i) => ∃ t, Reaches (nextValue s) t ∧ EndedWith t f i

theorem declEnds_nil {s : State} (h : bytesFromCursor s = []) : DeclEnds s (.ok []) := by
  refine ⟨List.forall_mem_nil _, nextValue s, .refl, ?_⟩
  rw [nextValue_of_le (len_le_cursor h), List.map_nil, List.append_nil]
  exact ⟨⟨rfl, rfl, rfl, rfl, rfl, rfl⟩, rfl⟩

/-- The level that was emitted comes before what is decoded after it. -/
theorem DeclEnds.of_levelTaken {s : State} {u k : Nat} {d : Except (FaultKind × Nat) (List Nat)} (h : DeclEnds (levelTaken u k s) d)
    (hu : u < 2 ^ 30) (hreach : Reaches (nextValue s) (nextValue (levelTaken u k s))) : DeclEnds s (d.map (u :: ·)) := by
  match d, h with
  | .ok us, ⟨hus, t, ht, hend, hout⟩ =>
    refine ⟨List.forall_mem_cons.mpr ⟨hu, hus⟩, t, hreach.trans ht, ?_, ?_⟩
    · rw [List.length_cons, Nat.add_comm us.length, ← Nat.add_assoc]
      exact hend
    · rw [hout, outLevels_levelTaken, List.map_cons, List.append_assoc, List.singleton_append]
  | .error (f, i), ⟨t, ht, hend⟩ => exact ⟨t, hreach.trans ht, hend⟩

theorem declEnds {n : Nat} {s : State} (hb : s.busy = true) (hop : s.op = 9#4) (hn : (bytesFromCursor s).length ≤ n) :
    DeclEnds s (decodeMany n s.cursor (bytesFromCursor s)) := by
  induction n generalizing s with
  | zero => exact declEnds_nil (List.length_eq_zero_iff.mp (Nat.le_zero.mp hn))
  | succ n ih =>
    by_cases hne : bytesFromCursor s = []
    · rw [hne, decodeMany_nil]
      exact declEnds_nil hne
    have hlt : s.cursor < s.len := not_le.mp (mt bytesFromCursor_of_le hne)
    cases hd : decodeOne (bytesFromCursor s) with
    | error e =>
      rw [decodeMany_error s.cursor hne hn hd]
      exact decl_value_fault hop hlt hb hd
    | ok r =>
      obtain ⟨u, k⟩ := r
      obtain ⟨hk, hu, hreach⟩ := reaches_levelTaken hop hlt hb hd
      have hrest := bytesFromCursor_levelTaken u k s
      have hroom : (bytesFromCursor (levelTaken u k s)).length ≤ n := by
        rw [hrest, List.length_drop]
        omega
      rw [decodeMany_value s.cursor hne hn hd, ← hrest]
      exact (ih (s := levelTaken u k s) hb hop hroom).of_levelTaken hu hreach

/-- From command start on, `DECL` is at its first boundary (44 R181). -/
theorem reaches_nextValue_decl (s : State) : Reaches (commandStart .decl s) (nextValue (commandStart .decl s)) := by
  rcases Nat.eq_zero_or_pos s.inLen with h0 | hpos
  · have hle : s.inLen ≤ 0 := h0.le
    rw [nextValue_of_le (s := commandStart .decl s) hle]
    exact .step rfl (blockStep_decl_empty rfl rfl rfl hle)
  · rw [nextValue_of_lt (s := commandStart .decl s) hpos]
    exact .refl

/-- Settles O40: the values one by one, from command start on. -/
theorem declDecodesLevels : Obligations.DeclDecodesLevels := by
  intro s hb
  have hexec : ∀ {t}, Reaches (nextValue (commandStart .decl s)) t → t.busy = false → exec .decl s = .next t := fun ht hidle =>
    exec_of_reaches rfl (startable_of_idle rfl hb) ((reaches_nextValue_decl s).trans ht) hidle
  have hends := declEnds (s := commandStart .decl s) rfl rfl le_rfl
  rw [bytesFromCursor_commandStart] at hends
  change DeclEnds _ (decodeAll (inputBytes s)) at hends
  generalize decodeAll (inputBytes s) = d at hends
  match d, hends with
  | .ok us, ⟨hus, t, ht, hend, hout⟩ =>
    rw [commandStart_ocnt, Nat.zero_add] at hend
    exact ⟨t, hexec ht hend.1, hus, hend, hout⟩
  | .error (f, i), ⟨t, ht, hend⟩ => exact ⟨t, hexec ht hend.1, hend⟩

end Sys2Proof.Machine
end

section
/-! SUPPORT. The round trip of levels (44 R182): `DECL` of what `ENCL` emitted, by the lengths of the chunk sequences. -/

namespace Sys2Proof.Machine

/-! ## What the two commands give -/

theorem exec_encl_next {s t : State} (h : exec .encl s = .next t) : outBytes t = levelsString (inputLevels s) := by
  obtain ⟨hb, -⟩ := exec_next rfl h
  obtain ⟨t', ht', -, hout⟩ := enclEncodesLevels s hb
  cases h.symm.trans ht'
  exact hout

theorem outLevels_of_ocnt_zero {s : State} (h : s.ocnt = 0) : outLevels s = [] := by
  rw [outLevels, outElements, h]
  rfl

theorem toNat_lt_of_decl {s t : State} (h : exec .decl s = .next t) : ∀ l ∈ outLevels t, l.toNat < 2 ^ 30 := by
  obtain ⟨hb, -⟩ := exec_next rfl h
  obtain ⟨t', ht', hend⟩ := declDecodesLevels s hb
  cases h.symm.trans ht'
  split at hend
  · obtain ⟨hus, -, hout⟩ := hend
    rw [hout]
    exact List.forall_mem_map.mpr fun u hu => (Nat.mod_le u _).trans_lt (hus u hu)
  · obtain ⟨-, -, -, -, -, hocnt⟩ := hend
    rw [outLevels_of_ocnt_zero hocnt]
    exact List.forall_mem_nil _

section command

variable {s : State} (hb : s.busy = false)
include hb

theorem exec_decl_of_values {us : List Nat} (h : decodeAll (inputBytes s) = .ok us) :
    ∃ t, exec .decl s = .next t ∧ t.status = 0#3 ∧ outLevels t = us.map (BitVec.ofNat 32) := by
  obtain ⟨t, ht, hend⟩ := declDecodesLevels s hb
  rw [h] at hend
  obtain ⟨-, ⟨-, hstatus, -⟩, hout⟩ := hend
  exact ⟨t, ht, hstatus, hout⟩

theorem exec_decl_of_fault {f : FaultKind} {i : Nat} (h : decodeAll (inputBytes s) = .error (f, i)) :
    ∃ t, exec .decl s = .next t ∧ t.status = faultCode f ∧ t.ocnt = 0 := by
  obtain ⟨t, ht, hend⟩ := declDecodesLevels s hb
  rw [h] at hend
  obtain ⟨-, hstatus, -, -, -, hocnt⟩ := hend
  exact ⟨t, ht, hstatus, hocnt⟩

end command

/-! ## Levels in and out of the decoder's range -/

theorem levelsString_eq_flatMap (ls : List Level) : levelsString ls = (ls.map BitVec.toNat).flatMap chunkBytes :=
  (List.flatMap_map ..).symm

section strings

variable {ls : List Level}

theorem decodeAll_levelsString (h : ∀ l ∈ ls, l.toNat < 2 ^ 30) : decodeAll (levelsString ls) = .ok (ls.map BitVec.toNat) := by
  rw [levelsString_eq_flatMap]
  exact decodeMany_flatMap (List.forall_mem_map.mpr fun l hl => (chunkLength_le_iff (by decide)).mpr (h l hl)) le_rfl 0

theorem decodeAll_levelsString_long (h : ∃ l ∈ ls, 2 ^ 30 ≤ l.toNat) : ∃ i, decodeAll (levelsString ls) = .error (.overflowChunk, i) := by
  obtain ⟨l, hl, hge⟩ := h
  have hlong : ¬ chunkLength l.toNat ≤ 6 := mt (chunkLength_le_iff (by decide)).mp hge.not_gt
  rw [levelsString_eq_flatMap]
  refine decodeMany_flatMap_long (List.forall_mem_map.mpr fun l _ => ?_) ⟨_, List.mem_map_of_mem hl, hlong⟩ le_rfl 0
  exact (chunkLength_le_iff (by decide)).mpr (l.isLt.trans (by decide))

end strings

/-- Settles O41: `DECL` delivers levels below `2^30` only, so it gives back none but such, and those it does. -/
theorem levelsRoundTrip : Obligations.LevelsRoundTrip := by
  refine ⟨fun s hb => ?_, fun s t h => toNat_lt_of_decl h, fun s t s' henc hb hin => ?_⟩
  · obtain ⟨t, ht, ⟨-, hstatus, -⟩, -⟩ := enclEncodesLevels s hb
    exact ⟨t, ht, hstatus⟩
  rw [exec_encl_next henc] at hin
  by_cases hrange : ∀ l ∈ inputLevels s, l.toNat < 2 ^ 30
  · obtain ⟨t', ht', hstatus, hout⟩ := exec_decl_of_values hb (hin ▸ decodeAll_levelsString hrange)
    have hback : outLevels t' = inputLevels s := by
      rw [hout, List.map_map]
      exact (List.map_congr_left fun l _ => (BitVec.ofNat_toNat 32 l).trans (BitVec.setWidth_eq l)).trans (List.map_id _)
    exact ⟨t', ht', iff_of_true ⟨hstatus, hback⟩ hrange, fun ⟨l, hl, hge⟩ => absurd (hrange l hl) hge.not_gt⟩
  · have hlong : ∃ l ∈ inputLevels s, 2 ^ 30 ≤ l.toNat := by simpa only [not_forall, not_lt, exists_prop] using hrange
    obtain ⟨i, hfault⟩ := decodeAll_levelsString_long hlong
    obtain ⟨t', ht', hend⟩ := exec_decl_of_fault hb (hin ▸ hfault)
    exact ⟨t', ht', iff_of_false (fun ⟨_, hback⟩ => hrange (hback ▸ toNat_lt_of_decl ht')) hrange, fun _ => hend⟩

end Sys2Proof.Machine
end

section
/-! SUPPORT. The facade (45 R190 to R192): its calls by the lines they issue, and the lines by the statements about the single commands. -/

namespace Sys2Proof.Machine

/-! ## The lines that the facade issues -/

/-- Every level fits the element that its line writes (30 R95). -/
theorem wellFormed_encl_toNat (ls : List Level) : (Line.encl (ls.map BitVec.toNat)).wellFormed = true :=
  List.all_eq_true.mpr (List.forall_mem_map.mpr fun l _ => decide_eq_true l.isLt)

section lines

variable {s : State} (hb : s.busy = false)
include hb

/-- The line of `ENCP` on points in the domain: the block is idle again, with their coordinate string in OUT. -/
theorem performAll_encp {p : Option F64} {points : List Point} {ps : List (Int × Int)}
    (hp : precisionOk (p.getD 0x40F86A0000000000#64) = true) (hps : scaledPairs (p.getD 0x40F86A0000000000#64) points = .ok ps) :
    ∃ t, performAll (lineActions (.encp p points)) s = .next t ∧ t.busy = false ∧ outBytes t = coordinateString ps := by
  obtain ⟨-, -, -, -, hline, -⟩ := linesIssueCommands s hb
  obtain ⟨u, hrun, hbu, hin, hprec⟩ := hline p points
  have hend := (encpEncodesPoints p.isSome u hbu).2 (hprec ▸ hp)
  rw [hprec, hin, hps] at hend
  obtain ⟨t, ht, ⟨hbt, -⟩, hout⟩ := hend
  exact ⟨t, hrun.trans ht, hbt, hout⟩

/-- The line of `ENCL`: the levels string in OUT. -/
theorem performAll_encl (ls : List Level) :
    ∃ t, performAll (lineActions (.encl (ls.map BitVec.toNat))) s = .next t ∧ outBytes t = levelsString ls := by
  obtain ⟨-, -, -, -, -, -, hline, -⟩ := linesIssueCommands s hb
  obtain ⟨u, hrun, hbu, hin⟩ := hline _ (wellFormed_encl_toNat ls)
  obtain ⟨t, ht, -, hout⟩ := enclEncodesLevels u hbu
  rw [List.map_injective_iff.mpr (fun _ _ => BitVec.eq_of_toNat_eq) hin] at hout
  exact ⟨t, hrun.trans ht, hout⟩

/-- The line of `DECP` leaves the block idle. -/
theorem busy_of_performAll_decp {p : Option F64} {bs : List Byte} {t : State}
    (h : performAll (lineActions (.decp p bs)) s = .next t) : t.busy = false := by
  obtain ⟨-, -, -, -, -, hline, -⟩ := linesIssueCommands s hb
  obtain ⟨u, hrun, -⟩ := hline p bs
  obtain ⟨-, -, hbt, -⟩ := exec_next rfl (hrun.symm.trans h)
  exact hbt

/-- The line of `DECL` completes, and delivers the same from every idle state (10 R20). -/
theorem performAll_decl_same {t : State} (ht : t.busy = false) (bs : List Byte) :
    ∃ x y, performAll (lineActions (.decl bs)) s = .next x ∧ performAll (lineActions (.decl bs)) t = .next y ∧
      x.status = y.status ∧ outLevels x = outLevels y := by
  obtain ⟨-, -, -, -, -, -, -, -, hline⟩ := linesIssueCommands s hb
  obtain ⟨-, -, -, -, -, -, -, -, hline'⟩ := linesIssueCommands t ht
  obtain ⟨u, hrun, hbu, hin⟩ := hline bs
  obtain ⟨v, hrun', hbv, hin'⟩ := hline' bs
  obtain ⟨x, hx, -⟩ := declDecodesLevels u hbu
  obtain ⟨y, hy, -⟩ := declDecodesLevels v hbv
  have hsame := noStateSurvivesACommand .decl u v hbu hbv (hin.trans hin'.symm)
  rw [hx, hy] at hsame
  obtain ⟨hstatus, -, -, -, -, hout⟩ := hsame
  exact ⟨x, y, hrun.trans hx, hrun'.trans hy, hstatus, congrArg (List.filterMap elemLevel) hout⟩

end lines

/-! ## A call of the facade, by what its lines answer -/

section calls

variable {p : Option F64} {s t w : State}

theorem facadeEnc_none {points : List Point} (ht : performAll (lineActions (.encp p points)) s = .next t) :
    facadeEnc p points none s = .next (⟨some points, outBytes t, none, none, p.getD Config.defaultPrecision⟩, t) := by
  rw [facadeEnc, ht]

theorem facadeEnc_some {points : List Point} {ls : List Level} (ht : performAll (lineActions (.encp p points)) s = .next t)
    (hw : performAll (lineActions (.encl (ls.map BitVec.toNat))) t = .next w) :
    facadeEnc p points (some ls) s =
      .next (⟨some points, outBytes t, some ls, some (outBytes w), p.getD Config.defaultPrecision⟩, w) := by
  simp only [facadeEnc, ht, hw]

theorem facadeDec_none {coords : List Byte} (ht : performAll (lineActions (.decp p coords)) s = .next t) :
    facadeDec p coords none s = .next (⟨presentIf t (outPoints t), coords, none, none, p.getD Config.defaultPrecision⟩, t) := by
  rw [facadeDec, ht]

theorem facadeDec_some {coords ls : List Byte} (ht : performAll (lineActions (.decp p coords)) s = .next t)
    (hw : performAll (lineActions (.decl ls)) t = .next w) :
    facadeDec p coords (some ls) s =
      .next (⟨presentIf t (outPoints t), coords, presentIf w (outLevels w), some ls, p.getD Config.defaultPrecision⟩, w) := by
  simp only [facadeDec, ht, hw]

/-- A call of `FACADE.DEC` that is answered has run its `DECP`. -/
theorem performAll_decp_of_facadeDec {coords : List Byte} {levels : Option (List Byte)} {r : Snapshot × State}
    (h : facadeDec p coords levels s = .next r) : ∃ u, performAll (lineActions (.decp p coords)) s = .next u := by
  rw [facadeDec] at h
  cases hu : performAll (lineActions (.decp p coords)) s with
  | next u => exact ⟨u, rfl⟩
  | fault f => rw [hu] at h; cases h
  | refused q => rw [hu] at h; cases h

end calls

/-- Settles O58: both encode lines complete, and the call puts together what they emitted. -/
theorem facadeEncodesEagerly : Obligations.FacadeEncodesEagerly := by
  intro p points levels s ps hb hp hps
  obtain ⟨t, ht, hbt, hcoords⟩ := performAll_encp hb hp hps
  cases levels with
  | none => exact ⟨_, t, facadeEnc_none ht, rfl, hcoords, rfl, rfl, rfl⟩
  | some ls =>
    obtain ⟨w, hw, hlevels⟩ := performAll_encl hbt ls
    exact ⟨_, w, facadeEnc_some ht hw, rfl, hcoords, rfl, congrArg some hlevels, rfl⟩

/-- Settles O57: `DECL` delivers the same after `DECP` as alone, and the coordinates are stored before it runs. -/
theorem facadeStreamsAreIndependent : Obligations.FacadeStreamsAreIndependent := by
  refine ⟨fun p coords levels s u hb hu => ?_, fun p coords levels s w sn hb h => ?_⟩
  · cases levels with
    | none => exact ⟨_, u, facadeDec_none hu, rfl, rfl, rfl, rfl, fun _ => rfl, nofun⟩
    | some ls =>
      obtain ⟨x, w, hx, hw, hstatus, hout⟩ := performAll_decl_same hb (busy_of_performAll_decp hb hu) ls
      refine ⟨_, w, facadeDec_some hu hw, rfl, rfl, rfl, rfl, nofun, ?_⟩
      rintro _ ⟨⟩
      exact ⟨x, hx, by rw [hstatus, hout]; rfl⟩
  · obtain ⟨u, hu⟩ := performAll_decp_of_facadeDec h
    obtain ⟨-, y, -, hy, -⟩ := performAll_decl_same hb (busy_of_performAll_decp hb hu) levels
    cases (facadeDec_some hu hy).symm.trans h
    exact ⟨_, u, facadeDec_none hu, rfl⟩

end Sys2Proof.Machine
end

section
/-! SUPPORT. How a command fails (60 R200 to R206, R216): a fault of a `ChunkStep` at `CURSOR`, in a decode command only, and nothing else. -/

namespace Sys2Proof.Machine

/-! ## The faults of a ChunkStep -/

/-- Settles O17: exhaustion is checked first, then the group limit, then the byte at `CURSOR`. -/
theorem chunkStepFaults : Obligations.ChunkStepFaults := by
  intro s _ _ _
  refine ⟨fun hle => ?_, fun hlt hg => ?_, fun hlt hg hbyte => ?_⟩
  · exact chunkStep_exhausted (bytesFromCursor_of_le hle)
  · exact chunkStep_seventh (bytesFromCursor_of_lt hlt) hg
  · exact chunkStep_outside (bytesFromCursor_of_lt hlt) hg hbyte

theorem chunkOp_fault {s : State} {f : FaultKind} (h : chunkOp s = .ok (.fault f)) : f ≠ .illegalCommand := by
  unfold chunkOp at h
  split at h
  · cases h; nofun
  · split at h
    · cases h; nofun
    · split at h
      · cases h; nofun
      · split at h <;> cases h

theorem microOp_decc {s : State} (h : s.op = 2#4) : microOp s = deccOp s := by
  unfold microOp
  rw [h]; rfl

theorem microOp_decl {s : State} (h : s.op = 9#4) : microOp s = declOp s := by
  unfold microOp
  rw [h]; rfl

/-- The fault of a running command is that of its `ChunkStep`. -/
theorem chunkOp_of_microOp_fault {s : State} {f : FaultKind} (h : microOp s = .ok (.fault f)) : chunkOp s = .ok (.fault f) := by
  rcases isDecodeOp_cases (microOp_fault h) with hop | hop | hop
  · rw [microOp_decc hop, deccOp] at h
    split at h
    · exact h
    · cases h
  · rw [microOp_decp hop, decpOp] at h
    split at h
    · split at h
      · cases h
      · exact h
    all_goals obtain ⟨a, -, ⟨⟩⟩ := except_map_ok h
  · rw [microOp_decl hop, declOp] at h
    split at h
    · split at h
      · cases h
      · exact h
    · cases h

/-! ## A command that ended with a fault -/

/-- A command that has ended with `STATUS` not 0 is a decode command, and a fault of a `ChunkStep` at `CURSOR` ended it (60 R206). -/
abbrev FailureWf (s : State) : Prop :=
  s.busy = false → s.status ≠ 0#3 → isDecodeOp s.op = true ∧ ∃ f, f ≠ .illegalCommand ∧ EndedWith s f s.cursor

theorem blockStep_failureWf {s t : State} (hb : s.busy = true) (ht : blockStep s = .next t) : FailureWf t := by
  obtain ⟨m, hm, rfl⟩ := blockStep_next ht
  intro hidle hne
  rcases m.perform_goes_or_ok hb with ⟨f, rfl⟩ | hbusy | hok
  · have hdec : isDecodeOp s.op = true := microOp_fault hm
    exact ⟨hdec, f, chunkOp_fault (chunkOp_of_microOp_fault hm), rfl, rfl, rfl, rfl, rfl, rfl⟩
  · exact absurd (hbusy.symm.trans hidle) (by decide)
  · exact absurd hok hne

theorem exec_failureWf {i : Instr} (hi : i.code = .command) {s t : State} (h : exec i s = .next t) : FailureWf t := by
  obtain ⟨-, -, -, hrun⟩ := exec_next hi h
  have hstart : FailureWf (commandStart i s) := nofun
  exact runSteps_keeps (fun _ _ _ => blockStep_failureWf) hstart (hrun _ le_rfl)

theorem faultCode_cases {f : FaultKind} (h : f ≠ .illegalCommand) : faultCode f = 1#3 ∨ faultCode f = 2#3 ∨ faultCode f = 3#3 := by
  cases f with
  | truncatedChunk => exact .inl rfl
  | overflowChunk => exact .inr (.inl rfl)
  | invalidByte => exact .inr (.inr rfl)
  | illegalCommand => exact absurd rfl h

theorem eq_of_isDecodeOp_encode {i : Instr} (hi : i.code = .command) (h : isDecodeOp (cmdOpc (encode i)) = true) :
    i = .decc ∨ i = .decl ∨ ∃ psel, i = .decp psel := by
  cases i with
  | decc => exact .inl rfl
  | decl => exact .inr (.inl rfl)
  | decp psel => exact .inr (.inr ⟨psel, rfl⟩)
  | encu | zze | zzd | encl => exact absurd h (by decide)
  | scale p | encp p => exact absurd h (by cases p <;> decide)
  | wireTerminator | wireContinuation => cases hi

/-- Settles O46: the fault that ended the command was at `CURSOR`, and wrote the absent result. -/
theorem failureIsAtomic : Obligations.FailureIsAtomic := by
  intro i s t hi h hne
  obtain ⟨hframe, hb⟩ := exec_commandFrame hi h
  obtain ⟨hdec, f, hf, -, hstatus, herrpos, hrval, hconsumed, hocnt⟩ := exec_failureWf hi h hb hne
  have hwithin : t.cursor ≤ s.inLen := hframe.cursor.trans_eq hframe.setting.len
  have hempty : outElements t = [] := by rw [outElements, hocnt]; rfl
  exact ⟨eq_of_isDecodeOp_encode hi (hframe.op_eq ▸ hdec), hstatus ▸ faultCode_cases hf, herrpos ▸ hwithin, hrval, hconsumed, hocnt, hempty⟩

/-! ## The commands that never fail -/

/-- Only the decode commands end with another `STATUS` than 0. -/
theorem exec_status_of_not_decode {i : Instr} (hi : i.code = .command) (hdec : isDecodeOp (cmdOpc (encode i)) = false) {s t : State}
    (h : exec i s = .next t) : t.status = 0#3 := by
  obtain ⟨hframe, hb⟩ := exec_commandFrame hi h
  by_contra hne
  have hop := (exec_failureWf hi h hb hne).1
  rw [hframe.op_eq, hdec] at hop
  cases hop

/-- Settles O45: each of the six completes by the statement about it, and none is a decode command. -/
theorem encodingNeverFaults : Obligations.EncodingNeverFaults := by
  refine ⟨fun s i hb hi => ?_, fun psel s hb hp => ⟨fun n hn => ?_, fun ps hps => ?_⟩, fun psel s t i hi h => ?_⟩
  · rcases hi with rfl | rfl | rfl | rfl
    · exact (encuEncodesValue s hb).imp fun _ ⟨ht, ⟨_, hstatus, _⟩, _⟩ => ⟨ht, hstatus⟩
    · exact (enclEncodesLevels s hb).imp fun _ ⟨ht, ⟨_, hstatus, _⟩, _⟩ => ⟨ht, hstatus⟩
    · exact ⟨_, exec_zze hb, rfl⟩
    · exact ⟨_, exec_zzd hb, rfl⟩
  · exact ⟨_, exec_scale_of_ok hb hp hn, rfl⟩
  · have hend := (encpEncodesPoints psel s hb).2 hp
    rw [hps] at hend
    exact hend.imp fun _ ⟨ht, ⟨_, hstatus, _⟩, _⟩ => ⟨ht, hstatus⟩
  · have hnot : i.code = .command ∧ isDecodeOp (cmdOpc (encode i)) = false := by
      rcases hi with rfl | rfl | rfl | rfl | rfl | rfl <;> cases psel <;> decide
    exact exec_status_of_not_decode hnot.1 hnot.2 h

/-! ## Empty input -/

section empty

variable {s : State} (h : s.inLen = 0)
include h

theorem inputBytes_of_empty : inputBytes s = [] := by rw [inputBytes, h]; rfl

theorem inputLevels_of_empty : inputLevels s = [] := by rw [inputLevels, h]; rfl

theorem inputPoints_of_empty : inputPoints s = [] := by rw [inputPoints, h]; rfl

end empty

/-- Settles O43: the closed form of each stream command on the empty list, and of `DECC` on the empty string. -/
theorem emptyInputSucceeds : Obligations.EmptyInputSucceeds := by
  intro psel s hb hlen hp
  have hencp := (encpEncodesPoints psel s hb).2 hp
  have hdecp := (decpDecodesPoints psel s hb).2 hp
  have hencl := enclEncodesLevels s hb
  have hdecl := declDecodesLevels s hb
  have hdecc := deccDecodesOneValue s hb
  rw [inputPoints_of_empty hlen] at hencp
  rw [inputBytes_of_empty hlen, decodePoints_nil] at hdecp
  rw [inputLevels_of_empty hlen] at hencl
  rw [inputBytes_of_empty hlen] at hdecl
  rw [inputBytes_of_empty hlen, decodeOne_nil] at hdecc
  exact ⟨hencp.imp fun _ ⟨ht, hend, _⟩ => ⟨ht, hend⟩, hdecp.imp fun _ ⟨ht, hend, _⟩ => ⟨ht, hend⟩,
    hencl.imp fun _ ⟨ht, hend, _⟩ => ⟨ht, hend⟩, hdecl.imp fun _ ⟨ht, _, hend, _⟩ => ⟨ht, hend⟩, hdecc⟩

end Sys2Proof.Machine
end

section
/-! SUPPORT. Command end, command start, power-on reset and the host's port (10 R32 to R37; 70 R230 to R240; 93 U6, U7, U9). -/

namespace Sys2Proof.Machine

/-! ## The end and the start of a command -/

/-- Settles O47: the measure `stepsLeft` is at most `stepBound` at command start, and every micro-step that does not end the command lowers it. -/
theorem everyCommandEnds : Obligations.EveryCommandEnds := by
  intro i s t hi h
  obtain ⟨-, -, hidle, -⟩ := exec_next hi h
  exact hidle

/-- Bit PSEL of a command's word (30 R89). -/
theorem cmdPsel_encode {i : Instr} (hi : i.code = .command) : cmdPsel (encode i) = i.psel := by
  cases i with
  | wireTerminator | wireContinuation => cases hi
  | scale p | encp p | decp p => cases p <;> rfl
  | _ => rfl

/-- Settles O6: a legal word is the word of the command it names, and its write is command start. -/
theorem commandStartInitialises : Obligations.CommandStartInitialises := by
  intro s w rest i hb hh hd hp
  obtain ⟨hi, rfl⟩ := decodeCommand_eq_ok_iff.mp hd
  have hpsel : (encode i).getLsbD 4 = i.psel := cmdPsel_encode hi
  rw [hpsel] at hp ⊢
  exact step_writeCmd hi hh hb hp

/-! ## Power-on reset -/

theorem step_reset {s : State} {rest : List HostAction} (hh : s.host = .reset :: rest) :
    step s = .next (powerOnReset { s with host := rest }) :=
  step_action hh (by rintro ⟨⟩)

/-- Reset leaves the block idle with every result register 0, whatever it was doing (70 R230). -/
theorem powerOnReset_endedOk (s : State) : EndedOk (powerOnReset s) 0#35 0 0 := ⟨rfl, rfl, rfl, rfl, rfl, rfl⟩

/-- Settles O8: reset as a move of the host is `powerOnReset` in every state, and the block after reset is idle with nothing pending. -/
theorem resetClearsResults : Obligations.ResetClearsResults :=
  ⟨powerOnReset_endedOk State.reset, idleBlockStays State.reset rfl rfl,
    fun _ _ hh => ⟨_, step_reset hh, powerOnReset_endedOk _, rfl⟩⟩

/-- Settles O54: the invariant says nothing of `epoch`, in which alone `powerOnReset State.reset` differs from `State.reset`. -/
theorem resetMeetsInvariant : Obligations.ResetMeetsInvariant := powerOnReset_inv State.reset

/-! ## The host's port -/

/-- A move that the host may make only while `BUSY = 0` (10 R32) is refused while `BUSY = 1`. -/
theorem step_refused_of_busy {s : State} {a : HostAction} {rest : List HostAction} {r : Refusal} {f : Fetched} (hb : s.busy = true)
    (hh : s.host = a :: rest) (ha : a ≠ .wait)
    (hmove : hostMove a { s with host := rest } = if s.busy then .other (.refused r) else f) : step s = .refused r := by
  rw [step_action hh ha, hmove, if_pos hb]
  rfl

/-- Settles O9: each of these moves is guarded by `BUSY`. -/
theorem protocolViolationsRefused : Obligations.ProtocolViolationsRefused := by
  intro s rest hb
  refine ⟨fun w hh => ?_, fun n hh => ?_, fun i e hh => ?_, fun v hh => ?_, fun x hh => ?_, fun p hh => ?_⟩
  · rcases hh with hh | hh <;> exact step_refused_of_busy hb hh (by rintro ⟨⟩) rfl
  all_goals exact step_refused_of_busy hb hh (by rintro ⟨⟩) rfl

/-- A valid output element of an idle block, as the host reads it (70 R240). -/
theorem hostOut_of_idle {s : State} {i : Nat} {e : Elem} (k : Nat) (hb : s.busy = false) (hi : i < s.ocnt)
    (he : spaceRead s.out i = some e) : hostOut k i s = e := by
  rw [hostOut, if_neg (by simp [hb]), if_pos hi, he]
  rfl

/-- Settles O11: a read is a move that leaves the state, and the port of an idle block shows the registers. -/
theorem hostReadsAffectNothing : Obligations.HostReadsAffectNothing := by
  refine ⟨fun s r rest hh => step_action hh (by rintro ⟨⟩), fun s k hb => ?_⟩
  have hidle : ¬ s.busy = true := by rw [hb]; decide
  exact ⟨if_neg hidle, if_neg hidle, if_neg hidle, if_neg hidle, if_neg hidle, fun i e hi he => hostOut_of_idle k hb hi he⟩

end Sys2Proof.Machine
end
